-- ==== Sys2Proof/Word.lean ====
section
/-! DEFINITION. The word types of the RBIC: 32-bit register values (R9 `REG_W`), 7-bit register addresses (R9 `ADDR_W`),
bytes, and the five bytes of one bus transaction (R9 `FRAME_BYTES`, R13). -/

namespace Sys2Proof

/-- A 32-bit unsigned register value, operand word or host-visible register (R9, R66). -/
abbrev Word := BitVec 32

/-- One byte of a frame (R13). -/
abbrev Byte := BitVec 8

/-- A 7-bit device register address, 0x00 to 0x7F (R9, R38). -/
abbrev Addr := BitVec 7

/-- The five bytes of one bus transaction in the order they are handed to the bus primitive; `f0` goes first (R13). -/
structure Frame where
  f0 : Byte
  f1 : Byte
  f2 : Byte
  f3 : Byte
  f4 : Byte
  deriving DecidableEq, Repr, Inhabited

end Sys2Proof
end

