-- ==== Sys2Proof/Config.lean ====
section
/-! DEFINITION. What an implementation fixes (the configuration of R10 and R11, with its defaults), the parameters the source
itself fixes (R9), and the free values: the answers of the environment's primitives (R15, R16). -/

namespace Sys2Proof

/-- The four output lines (R33). -/
inductive Line where
  | csN
  | enN
  | dir
  | step
  deriving DecidableEq, Repr

/-- A field descriptor: "(bit offset, bit width) pair per named field" (R22, R81). -/
structure FieldDesc where
  off : Nat
  wid : Nat
  deriving DecidableEq, Repr

/-- The configuration a model takes (R11), fixed for a machine. A rule that names one of these reads the configured value. -/
structure Config where
  /-- `TRACKED_SET`: the addresses the shadow cache covers, in order (R35, R101). -/
  trackedSet : List Addr
  /-- `TOFF_FIELD`: the off-time field of CHOPCONF (R43). -/
  toffField : FieldDesc
  /-- `MRES_FIELD`: the microstep-resolution field of CHOPCONF (R43). -/
  mresField : FieldDesc
  /-- `PLACEHOLDER`: the filler byte of a read request (R75). -/
  placeholder : Byte
  /-- `RESET_PIN_ORDER`: the order in which the power-on sequence sets the lines (R141). -/
  resetPinOrder : List Line
  deriving DecidableEq, Repr

/-- The defaults of R10. -/
def Config.default : Config where
  trackedSet := [0x10#7, 0x13#7, 0x6D#7, 0x70#7]
  toffField := ⟨0, 4⟩
  mresField := ⟨24, 4⟩
  placeholder := 0x00#8
  resetPinOrder := [.csN, .enN, .dir, .step]

/-- What R11, R83 and R141 allow a configuration to be: at most 128 distinct tracked addresses, fields inside the register,
and any permutation of the four lines. DESIGN CHOICE (log 20): the two CHOPCONF fields may overlap. R11 sets no such limit, while
R81 and R82 say that the fields of one register never overlap, as those of the default do not. -/
abbrev Config.Valid (c : Config) : Prop :=
  c.trackedSet.Nodup ∧ c.trackedSet.length ≤ 128 ∧
  (1 ≤ c.toffField.wid ∧ c.toffField.off + c.toffField.wid ≤ 32) ∧
  (1 ≤ c.mresField.wid ∧ c.mresField.off + c.mresField.wid ≤ 32) ∧
  c.resetPinOrder.Perm [.csN, .enN, .dir, .step]

/-- `STEP_PULSE_NS`: the step pulse width in nanoseconds (R9, R153). -/
def Config.stepPulseNs : Nat := 1000

/-- `RUN_MAX` (R9). -/
def Config.runMax : Nat := 31

/-- `HOLD_MAX` (R9). -/
def Config.holdMax : Nat := 31

/-- `DELAY_MAX` (R9). -/
def Config.delayMax : Nat := 7

/-- The largest of the `MRES_LEVELS` = 9 resolution codes, 0 to 8 (R9, R110). -/
def Config.mresMax : Nat := 8

/-- `INIT_RUN` (R9). -/
def Config.initRun : Word := 16#32

/-- `INIT_HOLD` (R9). -/
def Config.initHold : Word := 8#32

/-- `INIT_DELAY` (R9). -/
def Config.initDelay : Word := 4#32

/-- `INIT_TOFF` (R9). -/
def Config.initToff : Word := 5#32

/-- How a primitive ends: it returns Ok, returns Fail (R15), or never returns (R18). -/
inductive PrimOutcome where
  | ok
  | fail
  | noReturn
  deriving DecidableEq, Repr, Inhabited

/-- One draw: the environment's answer to one primitive (R16, R22). `rx` is what a `BusXfer` that returns Ok delivers, and is
looked at by nothing else. -/
structure Draw where
  out : PrimOutcome
  rx : Frame
  deriving DecidableEq, Repr, Inhabited

/-- FREE VALUE (log 2): the environment's answer to a primitive that the state's list of answers does not give. It has no body:
nothing can be proved of its value, so a statement that rests on it holds for every answer. -/
opaque Config.freeDraw : Nat → Draw

end Sys2Proof
end

