-- ==== Sys2Proof/Syntax.lean ====
section
/-! DEFINITION. The commands of the RBIC (R69) and the two wire frames (R73, R77): one constructor per row of
spec/opcode_table.json; and the words an instruction is spelled with (R64, R77). -/

namespace Sys2Proof

/-- The opcode table's rows. Operand words a command does not use are no part of it (R64). -/
inductive Instr where
  /-- READ_REG (R95). -/
  | readReg (addr : Addr)
  /-- WRITE_REG (R96). -/
  | writeReg (addr : Addr) (value : Word)
  /-- MODIFY_FIELD (R97). -/
  | modifyField (addr : Addr) (off : BitVec 5) (wid : BitVec 6) (x : Word)
  /-- CACHE_GET (R107). -/
  | cacheGet (addr : Addr)
  /-- FIELD_GET (R87). -/
  | fieldGet (off : BitVec 5) (wid : BitVec 6) (value : Word)
  /-- FIELD_SET (R88). -/
  | fieldSet (off : BitVec 5) (wid : BitVec 6) (value : Word) (x : Word)
  /-- INIT (R111). -/
  | init
  /-- RESET_CFG (R112). -/
  | resetCfg
  /-- SET_CURRENT (R108). -/
  | setCurrent (run : Word) (hold : Word) (delay : Word)
  /-- SET_MICROSTEPS (R109). -/
  | setMicrosteps (code : Word)
  /-- GET_DRIVER_STATUS (R113). -/
  | getDriverStatus
  /-- ENABLE_DRIVER (R116). -/
  | enableDriver
  /-- DISABLE_DRIVER (R117). -/
  | disableDriver
  /-- SET_DIRECTION (R118). -/
  | setDirection (direction : Word)
  /-- STEP (R119). -/
  | step
  /-- WIRE_READ: a read request frame (R73, R77, R92), with the four placeholder bytes it carries. -/
  | wireRead (addr : Addr) (placeholders : Word)
  /-- WIRE_WRITE: a write request frame (R73, R77, R93). -/
  | wireWrite (addr : Addr) (value : Word)
  deriving DecidableEq, Repr

/-- The command record the host presents: the header word and the three operand words (R64). -/
structure Command where
  H : Word
  A : Word
  B : Word
  C : Word
  deriving DecidableEq, Repr

/-- The words of an instruction: a command record (R64), or one 40-bit wire frame `W = {f[0], ..., f[4]}` (R77). -/
inductive Packet where
  | command (c : Command)
  | frame (w : BitVec 40)
  deriving DecidableEq, Repr

end Sys2Proof
end

