-- ==== Sys2Proof/WellFormed.lean ====
section
/-! DEFINITION. Which instructions the encoding tables spell. The fields' widths are in the types (R65); the one check left is
that a read request frame carries the placeholder bytes (R75). Operand VALUES a command rejects at run time (a width of 0, a
run current of 32) are well formed: the command answers them with INVALID_ARGUMENT (R78, R125). -/

namespace Sys2Proof

/-- `PLACEHOLDER` four times, at its default (R75): the low 32 bits of a read request (R77). -/
def placeholderWord : Word :=
  let p := Config.default.placeholder
  p ++ p ++ p ++ p

/-- The instruction is one the encoding tables spell. -/
def Instr.wellFormed : Instr → Bool
  | .wireRead _ placeholders => placeholders == placeholderWord
  | .readReg _ => true
  | .writeReg _ _ => true
  | .modifyField _ _ _ _ => true
  | .cacheGet _ => true
  | .fieldGet _ _ _ => true
  | .fieldSet _ _ _ _ => true
  | .init => true
  | .resetCfg => true
  | .setCurrent _ _ _ => true
  | .setMicrosteps _ => true
  | .getDriverStatus => true
  | .enableDriver => true
  | .disableDriver => true
  | .setDirection _ => true
  | .step => true
  | .wireWrite _ _ => true

/-- `Instr.wellFormed` as a proposition. -/
abbrev WellFormed (i : Instr) : Prop := i.wellFormed = true

end Sys2Proof
end

