-- ==== Sys2Proof/Decode.lean ====
section
/-! DEFINITION. Decoding (R70 to R72, R77), total on any words and rejecting by name, and the encoder written from the same
tables (R65, R67, R69, R77). -/

namespace Sys2Proof

/-- Why a header spells no command (R71). -/
inductive DecodeError where
  /-- `OPC` is none of the fifteen values of R69. -/
  | unassignedOpcode
  /-- One of the reserved bits `H[23]`, `H[15:14]`, `H[7:5]` is not 0 (R65). -/
  | reservedBits
  /-- A field the opcode does not use is not 0 (R69). -/
  | unusedField
  deriving DecidableEq, Repr

/-- The opcodes of R69. -/
inductive Opcode where
  | readReg
  | writeReg
  | modifyField
  | cacheGet
  | fieldGet
  | fieldSet
  | init
  | resetCfg
  | setCurrent
  | setMicrosteps
  | getDriverStatus
  | enableDriver
  | disableDriver
  | setDirection
  | step
  deriving DecidableEq, Repr

/-- The `OPC` value of an opcode (R69). -/
def Opcode.byte : Opcode → Byte
  | .readReg => 0x01#8
  | .writeReg => 0x02#8
  | .modifyField => 0x03#8
  | .cacheGet => 0x04#8
  | .fieldGet => 0x10#8
  | .fieldSet => 0x11#8
  | .init => 0x20#8
  | .resetCfg => 0x21#8
  | .setCurrent => 0x22#8
  | .setMicrosteps => 0x23#8
  | .getDriverStatus => 0x24#8
  | .enableDriver => 0x30#8
  | .disableDriver => 0x31#8
  | .setDirection => 0x32#8
  | .step => 0x33#8

/-- Every opcode, in the order of R69. -/
def Opcode.all : List Opcode :=
  [.readReg, .writeReg, .modifyField, .cacheGet, .fieldGet, .fieldSet, .init, .resetCfg, .setCurrent, .setMicrosteps,
    .getDriverStatus, .enableDriver, .disableDriver, .setDirection, .step]

/-- The opcode an `OPC` value stands for, if any (R69, R71). -/
def Opcode.ofByte (b : Byte) : Option Opcode :=
  Opcode.all.find? (fun o => o.byte == b)

/-- The mask of the header shape an opcode has (R70). -/
def Opcode.mask : Opcode → Word
  | .readReg => 0xFF80FFFF#32
  | .writeReg => 0xFF80FFFF#32
  | .cacheGet => 0xFF80FFFF#32
  | .modifyField => 0xFF80C0E0#32
  | .fieldGet => 0xFFFFC0E0#32
  | .fieldSet => 0xFFFFC0E0#32
  | .init => 0xFFFFFFFF#32
  | .resetCfg => 0xFFFFFFFF#32
  | .setCurrent => 0xFFFFFFFF#32
  | .setMicrosteps => 0xFFFFFFFF#32
  | .getDriverStatus => 0xFFFFFFFF#32
  | .enableDriver => 0xFFFFFFFF#32
  | .disableDriver => 0xFFFFFFFF#32
  | .setDirection => 0xFFFFFFFF#32
  | .step => 0xFFFFFFFF#32

/-- The match word of an opcode, `OPC << 24` (R70). -/
def Opcode.matchWord (o : Opcode) : Word := o.byte ++ 0#24

/-- The header's fields (R65, R66). -/
def Command.opc (c : Command) : Byte := c.H.extractLsb' 24 8
def Command.addr (c : Command) : Addr := c.H.extractLsb' 16 7
def Command.wid (c : Command) : BitVec 6 := c.H.extractLsb' 8 6
def Command.off (c : Command) : BitVec 5 := c.H.extractLsb' 0 5

/-- The reserved bits `H[23]`, `H[15:14]`, `H[7:5]` (R65). -/
def reservedMask : Word := 0x0080C0E0#32

/-- The instruction an opcode makes of a record's fields and operand words (R69). -/
def Opcode.assemble (c : Command) : Opcode → Instr
  | .readReg => .readReg c.addr
  | .writeReg => .writeReg c.addr c.A
  | .modifyField => .modifyField c.addr c.off c.wid c.A
  | .cacheGet => .cacheGet c.addr
  | .fieldGet => .fieldGet c.off c.wid c.A
  | .fieldSet => .fieldSet c.off c.wid c.A c.B
  | .init => .init
  | .resetCfg => .resetCfg
  | .setCurrent => .setCurrent c.A c.B c.C
  | .setMicrosteps => .setMicrosteps c.A
  | .getDriverStatus => .getDriverStatus
  | .enableDriver => .enableDriver
  | .disableDriver => .disableDriver
  | .setDirection => .setDirection c.A
  | .step => .step

/-- Decoding a command record: exact match of the header (R70), else rejected by name (R71). -/
def decodeCommand (c : Command) : Except DecodeError Instr :=
  match Opcode.ofByte c.opc with
  | none => .error .unassignedOpcode
  | some o =>
    if c.H &&& reservedMask ≠ 0#32 then .error .reservedBits
    else if c.H &&& o.mask = o.matchWord then .ok (o.assemble c)
    else .error .unusedField

/-- Decoding a wire frame: "Bit 39 alone tells a read request from a write request" (R77; log 9). -/
def decodeFrame (w : BitVec 40) : Instr :=
  if w.getLsbD 39 then .wireWrite (w.extractLsb' 32 7) (w.extractLsb' 0 32)
  else .wireRead (w.extractLsb' 32 7) (w.extractLsb' 0 32)

/-- Decoding, total on any words (R72, R77). -/
def decode : Packet → Except DecodeError Instr
  | .command c => decodeCommand c
  | .frame w => .ok (decodeFrame w)

/-- A header from its fields: `{OPC, 0, ADDR, 00, WID, 000, OFF}` (R65, R67). -/
def header (o : Opcode) (addr : Addr) (wid : BitVec 6) (off : BitVec 5) : Word :=
  o.byte ++ (0#1 ++ addr) ++ (0#2 ++ wid) ++ (0#3 ++ off)

/-- The words of an instruction: unused fields and unused operand words are 0 (R67, R69, R77). -/
def encode : Instr → Packet
  | .readReg addr => .command ⟨header .readReg addr 0 0, 0, 0, 0⟩
  | .writeReg addr value => .command ⟨header .writeReg addr 0 0, value, 0, 0⟩
  | .modifyField addr off wid x => .command ⟨header .modifyField addr wid off, x, 0, 0⟩
  | .cacheGet addr => .command ⟨header .cacheGet addr 0 0, 0, 0, 0⟩
  | .fieldGet off wid value => .command ⟨header .fieldGet 0 wid off, value, 0, 0⟩
  | .fieldSet off wid value x => .command ⟨header .fieldSet 0 wid off, value, x, 0⟩
  | .init => .command ⟨header .init 0 0 0, 0, 0, 0⟩
  | .resetCfg => .command ⟨header .resetCfg 0 0 0, 0, 0, 0⟩
  | .setCurrent run hold delay => .command ⟨header .setCurrent 0 0 0, run, hold, delay⟩
  | .setMicrosteps code => .command ⟨header .setMicrosteps 0 0 0, code, 0, 0⟩
  | .getDriverStatus => .command ⟨header .getDriverStatus 0 0 0, 0, 0, 0⟩
  | .enableDriver => .command ⟨header .enableDriver 0 0 0, 0, 0, 0⟩
  | .disableDriver => .command ⟨header .disableDriver 0 0 0, 0, 0, 0⟩
  | .setDirection direction => .command ⟨header .setDirection 0 0 0, direction, 0, 0⟩
  | .step => .command ⟨header .step 0 0 0, 0, 0, 0⟩
  | .wireRead addr placeholders => .frame (0#1 ++ addr ++ placeholders)
  | .wireWrite addr value => .frame (1#1 ++ addr ++ value)

/-- The words an instruction of the opcode table has when its bits are `w`: 40 bits are a wire frame `W` (R77); otherwise the
first 32 bits are the header and the operand words follow, every bit above `nbits` being 0 (log 15). -/
def tablePacket (nbits w : Nat) : Packet :=
  if nbits = 40 then .frame (BitVec.ofNat 40 w)
  else
    let v := w % 2 ^ nbits
    .command ⟨BitVec.ofNat 32 v, BitVec.ofNat 32 (v / 2 ^ 32), BitVec.ofNat 32 (v / 2 ^ 64), BitVec.ofNat 32 (v / 2 ^ 96)⟩

/-- What the decoder reads from an instruction whose bits are `w`. -/
def decodeTableWord (nbits w : Nat) : Option Instr :=
  match decode (tablePacket nbits w) with
  | .ok i => some i
  | .error _ => none

end Sys2Proof
end

