-- ==== Sys2Proof/Machine/State.lean ====
section
/-! DEFINITION. The state of the RBIC (R23), as plain data: everything the spec gives the block, its configuration, and the
model's own record of what the host and the environment do. -/

namespace Sys2Proof.Machine

/-- The commanded level of a line: 0, 1, or U "not known" (R33). -/
inductive Level where
  | low
  | high
  | unknown
  deriving DecidableEq, Repr

/-- The level 0 or 1 of a `PinSet` (R15): `true` is 1. -/
def Level.ofBit : Bool → Level
  | false => .low
  | true => .high

/-- `LINE[*]`: the level last commanded on each output line (R33). -/
structure Lines where
  csN : Level
  enN : Level
  dir : Level
  step : Level
  deriving DecidableEq, Repr

/-- `LINE[l]` (R33). -/
def Lines.get (ls : Lines) : Line → Level
  | .csN => ls.csN
  | .enN => ls.enN
  | .dir => ls.dir
  | .step => ls.step

/-- `LINE[l] <- v` (R34). -/
def Lines.set (ls : Lines) (l : Line) (v : Level) : Lines :=
  match l with
  | .csN => { ls with csN := v }
  | .enN => { ls with enN := v }
  | .dir => { ls with dir := v }
  | .step => { ls with step := v }

/-- One shadow entry: the tracked address, the valid bit `V` and the value `D` (R36). -/
structure ShadowCell where
  addr : Addr
  v : Bool
  d : Word
  deriving DecidableEq, Repr

/-- How a `BusXfer` ends: Ok with five response bytes, Fail (R15), or it never returns (R18). -/
inductive XferOutcome where
  | ok (rx : Frame)
  | fail
  | noReturn
  deriving DecidableEq, Repr

/-- One primitive event of `TRACE`, with its arguments and its outcome (R15, R17). -/
inductive Event where
  | pinSet (l : Line) (lvl : Bool) (out : PrimOutcome)
  | busXfer (tx : Frame) (out : XferOutcome)
  | busWrite (tx : Frame) (out : PrimOutcome)
  | delay (ns : Nat) (out : PrimOutcome)
  deriving DecidableEq, Repr

/-- The home of `BUSY` (R32; log 5). -/
inductive Activity where
  /-- `BUSY = 0`: the RBIC accepts a command. -/
  | idle
  /-- `BUSY = 1`: reset was asserted and the power-on sequence is about to run (R139, R47). -/
  | starting
  /-- `BUSY = 1`: a command or the power-on sequence is in progress. Between two steps of the model this means that its last
  primitive has not returned and never will (R18, R150). -/
  | running
  deriving DecidableEq, Repr

/-- What the host does: present the words of a command or frame (R32, R64), or assert reset (R139). DESIGN CHOICE (log 21): one act
stands for "assert and release reset" (R143): the spec gives release no effect and no place in time. -/
inductive HostInput where
  | present (p : Packet)
  | assertReset
  deriving DecidableEq, Repr

/-- The machine's state. -/
structure State where
  /-- The configuration (R11; log 1). No step changes it. -/
  cfg : Config
  /-- `STATUS` (R28). -/
  status : Word
  /-- `RESULT0` (R26). -/
  result0 : Word
  /-- `RESULT1` (R27). -/
  result1 : Word
  /-- `READY` (R31). -/
  ready : Bool
  /-- `BUSY` (R32; log 5). -/
  busy : Activity
  /-- `LINE[*]` (R33). -/
  lines : Lines
  /-- `SHADOW`: one cell per tracked address (R35, R36; log 12). -/
  shadow : List ShadowCell
  /-- `TRACE`, oldest event first (R17). No step reads it. -/
  trace : List Event
  /-- The model's own: the environment's answers to come, oldest first (R15, R16; log 2). -/
  env : List Draw
  /-- The model's own: how many answers were taken from `Config.freeDraw` (log 2). -/
  drawCount : Nat
  /-- The model's own: what the host does next, oldest first (log 4). -/
  inputs : List HostInput
  deriving DecidableEq, Repr

/-- The `BUSY` bit (R32). -/
def State.busyBit (s : State) : Bool :=
  match s.busy with
  | .idle => false
  | .starting => true
  | .running => true

/-- Every shadow entry invalid, `V = 0`, `D = 0`: one for each tracked address (R36, R47). -/
def emptyShadow (c : Config) : List ShadowCell :=
  c.trackedSet.map (fun a => ⟨a, false, 0#32⟩)

/-- Every line at U, "not known" (R33, R47). -/
def Lines.allUnknown : Lines := ⟨.unknown, .unknown, .unknown, .unknown⟩

/-- The machine right after reset: the column "at reset assertion" of R47, with the default configuration (log 1), no answer of
the environment written down (log 2) and no act of the host pending (log 4). The power-on sequence is about to run. -/
def State.reset : State where
  cfg := Config.default
  status := 0#32
  result0 := 0#32
  result1 := 0#32
  ready := false
  busy := .starting
  lines := Lines.allUnknown
  shadow := emptyShadow Config.default
  trace := []
  env := []
  drawCount := 0
  inputs := []

/-- Why the machine stops. An error of a command is NO fault here: it is a code in `STATUS` and the machine goes on (R127). -/
inductive Fault where
  /-- Raised by the step alone, never by an instruction: a primitive in progress never returns ("leaves the RBIC with no further
  step", R18; "stuck", I8) and the host does nothing more. Safe: nothing can happen in that state but a reset, which is an
  act of the host (R150; log 6). -/
  | stuckInPrimitive
  deriving DecidableEq, Repr

/-- Why an instruction has no meaning. -/
inductive Refusal where
  /-- Raised only by an arm of exec that has no meaning yet; every arm has one, so nothing raises it. Safe: it claims nothing. -/
  | notModelled (mnemonic : String)
  deriving DecidableEq, Repr

end Sys2Proof.Machine
end

