-- ==== Sys2Proof/Machine/Flags.lean ====
section
/-! DEFINITION. The status word (R28, R29), its codes, and the decoded driver status word (R114). -/

namespace Sys2Proof.Machine

/-- The errors a command raises (R29, R122). -/
inductive ErrCode where
  | busError
  | pinError
  | invalidArgument
  | notInitialized
  | illegalCommand
  deriving DecidableEq, Repr

/-- `STATUS.CODE` of an error (R29). -/
def ErrCode.code : ErrCode → BitVec 3
  | .busError => 1#3
  | .pinError => 2#3
  | .invalidArgument => 3#3
  | .notInitialized => 4#3
  | .illegalCommand => 5#3

/-- The status word of an error: `CODE` in bits [2:0], `CSF` in bit 3, bits [31:4] zero (R28). -/
def statusWord (e : ErrCode) (csf : Bool) : Word :=
  0#28 ++ BitVec.ofBool csf ++ e.code

/-- The status word of a completed command, `CODE = OK` and `CSF = 0` (R19, R29). -/
def statusOk : Word := 0#32

/-- `STATUS.CODE` (R28). -/
def State.statusCode (s : State) : BitVec 3 := s.status.extractLsb' 0 3

/-- `STATUS.CSF` (R28). -/
def State.statusCsf (s : State) : Bool := s.status.getLsbD 3

/-- The decoded status word of R114 from GSTAT `g` and DRV_STATUS `d`: cs_actual in [15:8], bit 7 reserved, open_load and
short_to_ground never decoded (R115), stealth_mode, stallguard_status, uv_cp, drv_err, reset_flag. -/
def driverStatus (g d : Word) : Word :=
  0#16 ++ d.extractLsb' 16 8 ++ 0#1 ++ 0#1 ++ 0#1 ++ d.extractLsb' 15 1 ++ d.extractLsb' 14 1 ++ g.extractLsb' 2 1
    ++ g.extractLsb' 1 1 ++ g.extractLsb' 0 1

end Sys2Proof.Machine
end

