-- ==== Sys2Proof/Machine/Operands.lean ====
section
/-! DEFINITION. Operand forms: field descriptors and the bitfield codec (R81 to R85), argument ranges (R108, R109, R118), the
packed current value (R108), and the frames of a transaction (R73 to R76). -/

namespace Sys2Proof.Machine

/-- `mask(w) = 2^w - 1` (R12), as a 32-bit word. -/
def fieldMask (wid : Nat) : Word := BitVec.ofNat 32 (2 ^ wid - 1)

/-- A descriptor is legal iff `1 <= wid <= 32` and `off + wid <= 32` (R83). -/
def FieldLegal (off wid : Nat) : Bool := decide (1 ≤ wid ∧ wid ≤ 32 ∧ off + wid ≤ 32)

/-- `get_field(v, off, wid)` (R84). -/
def getField (v : Word) (off wid : Nat) : Word := (v >>> off) &&& fieldMask wid

/-- `set_field(v, off, wid, x)`: clears exactly the field's bit range and ORs in the truncated value (R85). -/
def setField (v : Word) (off wid : Nat) (x : Word) : Word :=
  (v &&& ~~~(fieldMask wid <<< off)) ||| ((x &&& fieldMask wid) <<< off)

/-- `encode` of a field set: `set_field` of each field in turn, from 0 (R86). -/
def encodeFields (fs : List (FieldDesc × Word)) : Word :=
  fs.foldl (fun v f => setField v f.1.off f.1.wid f.2) 0#32

/-- The value SET_CURRENT writes: delay in [19:16], run in [12:8], hold in [4:0] (R40, R108). -/
def currentValue (run hold delay : Word) : Word := (delay <<< 16) ||| (run <<< 8) ||| hold

/-- The argument check of SET_CURRENT, on the whole 32-bit operands (R66, R108). -/
def CurrentLegal (run hold delay : Word) : Bool :=
  decide (run.toNat ≤ Config.runMax ∧ hold.toNat ≤ Config.holdMax ∧ delay.toNat ≤ Config.delayMax)

/-- The argument check of SET_MICROSTEPS (R109, R110). -/
def MicrostepsLegal (code : Word) : Bool := decide (code.toNat ≤ Config.mresMax)

/-- The direction operand: 0 is CW, line low; 1 is CCW, line high; anything else is none (R33, R118). -/
def directionLevel (direction : Word) : Option Bool :=
  if direction = 0#32 then some false else if direction = 1#32 then some true else none

/-- `byte_k(v) = v[8k+7:8k]` (R13). -/
def byteOf (v : Word) (k : Nat) : Byte := v.extractLsb' (8 * k) 8

/-- `f[0] = (dir << 7) | addr` (R74). -/
def addressByte (dir : Bool) (a : Addr) : Byte := BitVec.ofBool dir ++ a

/-- A frame whose value bytes are those of `v`, most-significant first (R48, R73). -/
def frameOf (dir : Bool) (a : Addr) (v : Word) : Frame :=
  ⟨addressByte dir a, byteOf v 3, byteOf v 2, byteOf v 1, byteOf v 0⟩

/-- The request of a read: the address and four placeholder bytes (R75, R92). -/
def readRequest (placeholder : Byte) (a : Addr) : Frame :=
  ⟨addressByte false a, placeholder, placeholder, placeholder, placeholder⟩

/-- The request of a write (R93). -/
def writeRequest (a : Addr) (v : Word) : Frame := frameOf true a v

/-- The value of a response: `{rx[1], rx[2], rx[3], rx[4]}`, `rx[0]` discarded (R48, R76). -/
def responseValue (rx : Frame) : Word := rx.f1 ++ rx.f2 ++ rx.f3 ++ rx.f4

/-- The device registers the composite commands name (R39). -/
def regGstat : Addr := 0x01#7
def regIholdIrun : Addr := 0x10#7
def regChopconf : Addr := 0x6C#7
def regDrvStatus : Addr := 0x6F#7

end Sys2Proof.Machine
end

