-- ==== Sys2Proof/Machine/Ops.lean ====
section
/-! DEFINITION. The named operations every command is made of: draws (R16), the four primitives (R15, R34), the transaction
(R89), RegRead and RegWrite (R92, R93), the shadow cache (R101 to R104), raise and complete (R19, R127), acceptance of a
command (R31, R32), and the power-on sequence and reset (R139, R140). -/

namespace Sys2Proof.Machine

/-! ### Draws -/

/-- The answer the environment will give to the `k`-th primitive from now: the state's list, then the free values (R16; log 2). -/
def State.upcoming (s : State) (k : Nat) : Draw :=
  match s.env[k]? with
  | some d => d
  | none => Config.freeDraw (s.drawCount + (k - s.env.length))

/-- The next answer is used up. -/
def State.popDraw (s : State) : State :=
  match s.env with
  | [] => { s with drawCount := s.drawCount + 1 }
  | _ :: ds => { s with env := ds }

/-- How the next primitive ends. -/
def State.nextOut (s : State) : PrimOutcome := (s.upcoming 0).out

/-! ### Primitives. Each is one recorded event (R15, R17). The state after it is given; how it ended is `nextOut` before it. -/

/-- One primitive: its answer is used up and its event recorded. -/
def State.record (s : State) (e : Event) : State :=
  { s.popDraw with trace := s.trace ++ [e] }

/-- The level a line has after `PinSet(l, lvl)`: `lvl` after Ok, U after Fail (R34); never changed otherwise (log 6). -/
def levelAfter (out : PrimOutcome) (lvl : Bool) (old : Level) : Level :=
  match out with
  | .ok => Level.ofBit lvl
  | .fail => .unknown
  | .noReturn => old

/-- `PinSet(l, lvl)` (R15, R34). -/
def State.pinSet (s : State) (l : Line) (lvl : Bool) : State :=
  { s.record (.pinSet l lvl s.nextOut) with lines := s.lines.set l (levelAfter s.nextOut lvl (s.lines.get l)) }

/-- The recorded outcome of a `BusXfer` whose answer is `d` (R15). -/
def xferOutcome (d : Draw) : XferOutcome :=
  match d.out with
  | .ok => .ok d.rx
  | .fail => .fail
  | .noReturn => .noReturn

/-- `BusXfer(tx)` (R15). -/
def State.busXfer (s : State) (tx : Frame) : State :=
  s.record (.busXfer tx (xferOutcome (s.upcoming 0)))

/-- `BusWrite(tx)` (R15). -/
def State.busWrite (s : State) (tx : Frame) : State :=
  s.record (.busWrite tx s.nextOut)

/-- How a `Delay` ends: it may never return (R15, R18) but "never fails" (R15, D29; log 7). -/
def delayOutcome (out : PrimOutcome) : PrimOutcome :=
  match out with
  | .ok => .ok
  | .fail => .ok
  | .noReturn => .noReturn

/-- `Delay(ns)` (R15). -/
def State.delay (s : State) (ns : Nat) : State :=
  s.record (.delay ns (delayOutcome s.nextOut))

/-! ### A command's pseudocode -/

/-- How a piece of a command's pseudocode ends: with a value, with `raise E(csf)` (R19), or in a primitive that never returns
(R18). -/
inductive Run (α : Type) where
  | done (a : α) (s : State)
  | raised (e : ErrCode) (csf : Bool) (s : State)
  | hung (s : State)

/-- Sequence: the next statement runs only after the one before it returned (R20); a raise or a hang ends it (R19, R18). -/
def Run.andThen {α β : Type} (r : Run α) (f : α → State → Run β) : Run β :=
  match r with
  | .done a s => f a s
  | .raised e csf s => .raised e csf s
  | .hung s => .hung s

/-! ### The transaction -/

/-- The kind of a transaction (R89). -/
inductive TxnKind where
  | read
  | write
  deriving DecidableEq, Repr

/-- The transfer of a transaction (R89). -/
def State.transfer (s : State) (kind : TxnKind) (f : Frame) : State :=
  match kind with
  | .read => s.busXfer f
  | .write => s.busWrite f

/-- The end of a transaction, from the results of its transfer and its release (R89, R90, R126). -/
def txnEnd (transfer release : PrimOutcome) (rx : Frame) (s : State) : Run Frame :=
  match release with
  | .noReturn => .hung s
  | .ok => if transfer = .fail then .raised .busError false s else .done rx s
  | .fail => if transfer = .fail then .raised .busError true s else .raised .pinError true s

/-- `Txn(kind, f)` (R89): assert chip-select, transfer, release attempted whatever the transfer's result was. -/
def txn (kind : TxnKind) (f : Frame) (s : State) : Run Frame :=
  let s1 := s.pinSet .csN false
  match s.nextOut with
  | .noReturn => .hung s1
  | .fail => .raised .pinError false s1
  | .ok =>
    let s2 := s1.transfer kind f
    match s1.nextOut with
    | .noReturn => .hung s2
    | .ok => txnEnd .ok s2.nextOut (s1.upcoming 0).rx (s2.pinSet .csN true)
    | .fail => txnEnd .fail s2.nextOut (s1.upcoming 0).rx (s2.pinSet .csN true)

/-! ### The shadow cache -/

/-- `tracked(a)` (R101). -/
def State.tracked (s : State) (a : Addr) : Bool := s.cfg.trackedSet.contains a

/-- The cell of an address in a list of cells, if any. -/
def findCell (cells : List ShadowCell) (a : Addr) : Option ShadowCell :=
  cells.find? (fun c => c.addr == a)

/-- `get(a)` (R102): the shadow's value if `a` is tracked and its entry is valid. -/
def State.cacheGet (s : State) (a : Addr) : Option Word :=
  if s.tracked a then
    match findCell s.shadow a with
    | some c => if c.v then some c.d else none
    | none => none
  else none

/-- `SHADOW[a] <- {V: 1, D: v}` in a list of cells (R104; log 12). -/
def putCell : List ShadowCell → Addr → Word → List ShadowCell
  | [], a, v => [⟨a, true, v⟩]
  | c :: cs, a, v => if c.addr = a then ⟨a, true, v⟩ :: cs else c :: putCell cs a v

/-- `put(a, v)` after a successful write: a tracked address gets its entry, any other leaves the cache alone (R93, R104). -/
def State.cachePut (s : State) (a : Addr) (v : Word) : State :=
  if s.tracked a then { s with shadow := putCell s.shadow a v } else s

/-! ### RegRead and RegWrite -/

/-- `RegRead(a)` (R92). -/
def regRead (a : Addr) (s : State) : Run Word :=
  (txn .read (readRequest s.cfg.placeholder a) s).andThen fun rx s => .done (responseValue rx) s

/-- `RegWrite(a, v)` (R93): the shadow is updated only when the transaction returned. -/
def regWrite (a : Addr) (v : Word) (s : State) : Run Unit :=
  (txn .write (writeRequest a v) s).andThen fun _ s => .done () (s.cachePut a v)

/-- Read CHOPCONF from hardware, set one field of it, write it back, and give the value written (R109, R111, R112). -/
def modifyChopconf (f : FieldDesc) (x : Word) (s : State) : Run Word :=
  (regRead regChopconf s).andThen fun cur s =>
    (regWrite regChopconf (setField cur f.off f.wid x) s).andThen fun _ s => .done (setField cur f.off f.wid x) s

/-- One `PinSet` of a line command: a failure raises PIN_ERROR (R116 to R119). -/
def linePin (l : Line) (lvl : Bool) (s : State) : Run Unit :=
  match s.nextOut with
  | .ok => .done () (s.pinSet l lvl)
  | .fail => .raised .pinError false (s.pinSet l lvl)
  | .noReturn => .hung (s.pinSet l lvl)

/-- One `Delay` (R119): it returns or hangs. -/
def lineDelay (ns : Nat) (s : State) : Run Unit :=
  match delayOutcome s.nextOut with
  | .noReturn => .hung (s.delay ns)
  | .ok => .done () (s.delay ns)
  | .fail => .done () (s.delay ns)

/-! ### Results, error entry, completion, acceptance -/

/-- `RESULT0 <- v` (R26). -/
def State.setResult0 (s : State) (v : Word) : State := { s with result0 := v }

/-- `RESULT1 <- v` (R27). -/
def State.setResult1 (s : State) (v : Word) : State := { s with result1 := v }

/-- Error entry (R19, R127): `STATUS` is written and `BUSY <- 0`; nothing is undone and no handler is entered. There is no
return operation: the next command runs normally (R128). -/
def State.raise (s : State) (e : ErrCode) (csf : Bool) : State :=
  { s with status := statusWord e csf, busy := .idle }

/-- `complete` (R19): `STATUS <- 0` and `BUSY <- 0`. -/
def State.complete (s : State) : State :=
  { s with status := statusOk, busy := .idle }

/-- The end of a command (R19, R30): completed, ended by an error, or in progress for ever (R18). -/
def Run.finish {α : Type} : Run α → State
  | .done _ s => s.complete
  | .raised e csf s => s.raise e csf
  | .hung s => s

/-- A command presented to the RBIC: not accepted while `BUSY = 1` (R32, R149); answered with NOT_INITIALIZED while
`READY = 0` (R31, R125); else run to completion with `BUSY = 1` (R32). -/
def command {α : Type} (body : State → Run α) (s : State) : State :=
  match s.busy with
  | .starting => s
  | .running => s
  | .idle =>
    if s.ready then (body { s with busy := .running }).finish
    else s.raise .notInitialized false

/-- A header that spells no command (R71), after the check of `READY` (R125). -/
def illegalCommand (s : State) : State :=
  command (α := Unit) (fun s => .raised .illegalCommand false s) s

/-- The end of a bare transaction, one of the wire rows (log 8): on success the RBIC is idle again and no command has completed,
so `STATUS` is not written; a failure raises (R94). -/
def Run.finishFrame {α : Type} : Run α → State
  | .done _ s => { s with busy := .idle }
  | .raised e csf s => s.raise e csf
  | .hung s => s

/-- A bare transaction (log 8): accepted as a command is. -/
def frameTxn {α : Type} (body : State → Run α) (s : State) : State :=
  match s.busy with
  | .starting => s
  | .running => s
  | .idle =>
    if s.ready then (body { s with busy := .running }).finishFrame
    else s.raise .notInitialized false

/-! ### Power-on and reset -/

/-- The level the power-on sequence sets a line to: chip-select high (inactive), enable high (motor disabled), direction low, step
low (R140). -/
def powerOnLevel : Line → Bool
  | .csN => true
  | .enN => true
  | .dir => false
  | .step => false

/-- `PowerOn()` over the lines still to be set (R140): fail-fast, later lines not attempted. -/
def powerOnLines : List Line → State → State
  | [], s => { s with status := statusOk, ready := true, busy := .idle }
  | l :: ls, s =>
    match s.nextOut with
    | .ok => powerOnLines ls (s.pinSet l (powerOnLevel l))
    | .fail => { s.pinSet l (powerOnLevel l) with status := statusWord .pinError false, ready := false, busy := .idle }
    | .noReturn => s.pinSet l (powerOnLevel l)

/-- The power-on sequence, in `RESET_PIN_ORDER`, with `BUSY = 1` (R139, R140, R141). -/
def powerOn (s : State) : State :=
  powerOnLines s.cfg.resetPinOrder { s with busy := .running }

/-- Reset is asserted (R139): any command in progress is abandoned and the state takes the column "at reset assertion" of R47.
The configuration, the environment and the host are not the RBIC's to reset. -/
def State.assertReset (s : State) : State :=
  { s with
    status := 0#32, result0 := 0#32, result1 := 0#32, ready := false, busy := .starting,
    lines := Lines.allUnknown, shadow := emptyShadow s.cfg, trace := [] }

end Sys2Proof.Machine
end

