-- ==== Sys2Proof/Machine/Cache.lean ====
section
/-! DEFINITION. The shadow cache command CACHE_GET (R107). It issues no primitive. -/

namespace Sys2Proof.Machine

/-- The pseudocode of CACHE_GET (R107): a miss is no error (D33). -/
def cacheGetBody (addr : Addr) (s : State) : Run Unit :=
  match s.cacheGet addr with
  | some d => .done () ((s.setResult0 d).setResult1 1#32)
  | none => .done () ((s.setResult0 0#32).setResult1 0#32)

/-- CACHE_GET (R107). -/
def execCacheGet (addr : Addr) (s : State) : Host.Outcome State Fault Refusal :=
  .next (command (cacheGetBody addr) s)

end Sys2Proof.Machine
end

