-- ==== Sys2Proof/Machine/Codec.lean ====
section
/-! DEFINITION. The codec commands FIELD_GET and FIELD_SET (R87, R88). They issue no primitive. -/

namespace Sys2Proof.Machine

/-- The pseudocode of FIELD_GET (R87). -/
def fieldGetBody (off wid : Nat) (value : Word) (s : State) : Run Unit :=
  if FieldLegal off wid then .done () (s.setResult0 (getField value off wid))
  else .raised .invalidArgument false s

/-- FIELD_GET (R87). -/
def execFieldGet (off : BitVec 5) (wid : BitVec 6) (value : Word) (s : State) : Host.Outcome State Fault Refusal :=
  .next (command (fieldGetBody off.toNat wid.toNat value) s)

/-- The pseudocode of FIELD_SET (R88). -/
def fieldSetBody (off wid : Nat) (value x : Word) (s : State) : Run Unit :=
  if FieldLegal off wid then .done () (s.setResult0 (setField value off wid x))
  else .raised .invalidArgument false s

/-- FIELD_SET (R88). -/
def execFieldSet (off : BitVec 5) (wid : BitVec 6) (value x : Word) (s : State) : Host.Outcome State Fault Refusal :=
  .next (command (fieldSetBody off.toNat wid.toNat value x) s)

end Sys2Proof.Machine
end

