-- ==== Sys2Proof/Machine/LineCommands.lean ====
section
/-! DEFINITION. The line commands ENABLE_DRIVER, DISABLE_DRIVER, SET_DIRECTION and STEP (R116 to R119). -/

namespace Sys2Proof.Machine

/-- ENABLE_DRIVER (R116): active-low enable. -/
def execEnableDriver (s : State) : Host.Outcome State Fault Refusal :=
  .next (command (linePin .enN false) s)

/-- DISABLE_DRIVER (R117). -/
def execDisableDriver (s : State) : Host.Outcome State Fault Refusal :=
  .next (command (linePin .enN true) s)

/-- The pseudocode of SET_DIRECTION (R118). -/
def setDirectionBody (direction : Word) (s : State) : Run Unit :=
  match directionLevel direction with
  | some lvl => linePin .dir lvl s
  | none => .raised .invalidArgument false s

/-- SET_DIRECTION (R118). -/
def execSetDirection (direction : Word) (s : State) : Host.Outcome State Fault Refusal :=
  .next (command (setDirectionBody direction) s)

/-- The pseudocode of STEP (R119): one pulse of fixed width. -/
def stepBody (s : State) : Run Unit :=
  (linePin .step true s).andThen fun _ s =>
    (lineDelay Config.stepPulseNs s).andThen fun _ s => linePin .step false s

/-- STEP (R119). -/
def execStep (s : State) : Host.Outcome State Fault Refusal :=
  .next (command stepBody s)

end Sys2Proof.Machine
end

