-- ==== Sys2Proof/Machine/Motor.lean ====
section
/-! DEFINITION. The register-configuring and status commands SET_CURRENT, SET_MICROSTEPS, INIT, RESET_CFG and GET_DRIVER_STATUS
(R108 to R115). None rolls back (R120). -/

namespace Sys2Proof.Machine

/-- The pseudocode of SET_CURRENT (R108): the checks stand before any primitive. -/
def setCurrentBody (run hold delay : Word) (s : State) : Run Unit :=
  if CurrentLegal run hold delay then
    (regWrite regIholdIrun (currentValue run hold delay) s).andThen fun _ s =>
      .done () (s.setResult0 (currentValue run hold delay))
  else .raised .invalidArgument false s

/-- SET_CURRENT (R108). -/
def execSetCurrent (run hold delay : Word) (s : State) : Host.Outcome State Fault Refusal :=
  .next (command (setCurrentBody run hold delay) s)

/-- The pseudocode of SET_MICROSTEPS (R109): the current value comes from hardware whatever the tracked set is. -/
def setMicrostepsBody (code : Word) (s : State) : Run Unit :=
  if MicrostepsLegal code then
    (modifyChopconf s.cfg.mresField code s).andThen fun new s => .done () (s.setResult0 new)
  else .raised .invalidArgument false s

/-- SET_MICROSTEPS (R109). -/
def execSetMicrosteps (code : Word) (s : State) : Host.Outcome State Fault Refusal :=
  .next (command (setMicrostepsBody code) s)

/-- The current value INIT and RESET_CFG write, 0x00041008 (R111, R112). -/
def initCurrent : Word := currentValue Config.initRun Config.initHold Config.initDelay

/-- The pseudocode of INIT (R111): currents, full step (code 0), off-time 5. -/
def initBody (s : State) : Run Unit :=
  (regWrite regIholdIrun initCurrent s).andThen fun _ s =>
    (modifyChopconf s.cfg.mresField 0#32 s).andThen fun _ s =>
      (modifyChopconf s.cfg.toffField Config.initToff s).andThen fun _ s => .done () s

/-- INIT (R111). -/
def execInit (s : State) : Host.Outcome State Fault Refusal :=
  .next (command initBody s)

/-- The pseudocode of RESET_CFG (R112): INIT without the microstep resolution. -/
def resetCfgBody (s : State) : Run Unit :=
  (regWrite regIholdIrun initCurrent s).andThen fun _ s =>
    (modifyChopconf s.cfg.toffField Config.initToff s).andThen fun _ s => .done () s

/-- RESET_CFG (R112). -/
def execResetCfg (s : State) : Host.Outcome State Fault Refusal :=
  .next (command resetCfgBody s)

/-- The pseudocode of GET_DRIVER_STATUS (R113): GSTAT first, then DRV_STATUS. -/
def getDriverStatusBody (s : State) : Run Unit :=
  (regRead regGstat s).andThen fun g s =>
    (regRead regDrvStatus s).andThen fun d s => .done () (s.setResult0 (driverStatus g d))

/-- GET_DRIVER_STATUS (R113). -/
def execGetDriverStatus (s : State) : Host.Outcome State Fault Refusal :=
  .next (command getDriverStatusBody s)

end Sys2Proof.Machine
end

