-- ==== Sys2Proof/Machine/Transport.lean ====
section
/-! DEFINITION. The transport commands READ_REG, WRITE_REG and MODIFY_FIELD (R95 to R99), and the two wire rows (R92, R93; log 8). -/

namespace Sys2Proof.Machine

/-- The pseudocode of READ_REG (R95): the bus's answer, for a tracked register too (R99). -/
def readRegBody (addr : Addr) (s : State) : Run Unit :=
  (regRead addr s).andThen fun v s => .done () (s.setResult0 v)

/-- READ_REG (R95). -/
def execReadReg (addr : Addr) (s : State) : Host.Outcome State Fault Refusal :=
  .next (command (readRegBody addr) s)

/-- The pseudocode of WRITE_REG (R96). -/
def writeRegBody (addr : Addr) (value : Word) (s : State) : Run Unit :=
  (regWrite addr value s).andThen fun _ s => .done () (s.setResult0 value)

/-- WRITE_REG (R96). -/
def execWriteReg (addr : Addr) (value : Word) (s : State) : Host.Outcome State Fault Refusal :=
  .next (command (writeRegBody addr value) s)

/-- Where MODIFY_FIELD takes the current value from (R97, R98): the shadow of a tracked register, with NOT_INITIALIZED on a miss
(R106), and a hardware read of any other. -/
def currentForModify (addr : Addr) (s : State) : Run Word :=
  if s.tracked addr then
    match s.cacheGet addr with
    | some d => .done d s
    | none => .raised .notInitialized false s
  else regRead addr s

/-- The pseudocode of MODIFY_FIELD (R97). -/
def modifyFieldBody (addr : Addr) (off wid : Nat) (x : Word) (s : State) : Run Unit :=
  if FieldLegal off wid then
    (currentForModify addr s).andThen fun cur s =>
      (regWrite addr (setField cur off wid x) s).andThen fun _ s => .done () (s.setResult0 (setField cur off wid x))
  else .raised .invalidArgument false s

/-- MODIFY_FIELD (R97). -/
def execModifyField (addr : Addr) (off : BitVec 5) (wid : BitVec 6) (x : Word) (s : State) :
    Host.Outcome State Fault Refusal :=
  .next (command (modifyFieldBody addr off.toNat wid.toNat x) s)

/-- WIRE_READ: the read transaction that carries this request frame (R89, R92; log 8). The five response bytes stand in `TRACE`. -/
def execWireRead (addr : Addr) (placeholders : Word) (s : State) : Host.Outcome State Fault Refusal :=
  .next (frameTxn (txn .read (frameOf false addr placeholders)) s)

/-- WIRE_WRITE: the write transaction that carries this request frame, and its shadow update (R89, R93; log 8). -/
def execWireWrite (addr : Addr) (value : Word) (s : State) : Host.Outcome State Fault Refusal :=
  .next (frameTxn (regWrite addr value) s)

end Sys2Proof.Machine
end

