-- ==== Sys2Proof/Machine/Dispatch.lean ====
section
/-! DEFINITION. The dispatch: one arm per constructor of Instr, each one call of its meaning. -/

namespace Sys2Proof.Machine

def exec (i : Instr) (s : State) : Host.Outcome State Fault Refusal :=
  match i with
  | .readReg addr => Sys2Proof.Machine.execReadReg addr s
  | .writeReg addr value => Sys2Proof.Machine.execWriteReg addr value s
  | .modifyField addr off wid x => Sys2Proof.Machine.execModifyField addr off wid x s
  | .cacheGet addr => Sys2Proof.Machine.execCacheGet addr s
  | .fieldGet off wid value => Sys2Proof.Machine.execFieldGet off wid value s
  | .fieldSet off wid value x => Sys2Proof.Machine.execFieldSet off wid value x s
  | .init => Sys2Proof.Machine.execInit s
  | .resetCfg => Sys2Proof.Machine.execResetCfg s
  | .setCurrent run hold delay => Sys2Proof.Machine.execSetCurrent run hold delay s
  | .setMicrosteps code => Sys2Proof.Machine.execSetMicrosteps code s
  | .getDriverStatus => Sys2Proof.Machine.execGetDriverStatus s
  | .enableDriver => Sys2Proof.Machine.execEnableDriver s
  | .disableDriver => Sys2Proof.Machine.execDisableDriver s
  | .setDirection direction => Sys2Proof.Machine.execSetDirection direction s
  | .step => Sys2Proof.Machine.execStep s
  | .wireRead addr placeholders => Sys2Proof.Machine.execWireRead addr placeholders s
  | .wireWrite addr value => Sys2Proof.Machine.execWireWrite addr value s

end Sys2Proof.Machine
end

