-- ==== Sys2Proof/Machine/Fetch.lean ====
section
/-! DEFINITION. Where the next command comes from (the host presents it; nothing is fetched from memory, R62), what the machine
does between commands, and how a command is placed there. -/

namespace Sys2Proof.Machine

/-- The words the host presents are decoded and run (R72); a header that spells no command is answered as R71 says. -/
def runPacket (p : Packet) (s : State) : Host.Outcome State Fault Refusal :=
  match decode p with
  | .ok i => exec i s
  | .error _ => .next (illegalCommand s)

/-- One act of the host (log 4). -/
def hostAct (a : HostInput) (s : State) : Host.Outcome State Fault Refusal :=
  match a with
  | .present p => runPacket p s
  | .assertReset => .next s.assertReset

/-- One step of the machine. After reset the power-on sequence runs, whatever the host does meanwhile (R139, R149; log 4), in the
step after reset is asserted, with no release to wait for (log 21, DESIGN CHOICE). Then the host's next act is taken. With none, an idle RBIC waits (log 10), and one whose primitive never returns has no further step
(R18; log 6). -/
def advance (s : State) : Host.Outcome State Fault Refusal :=
  match s.busy with
  | .starting => .next (powerOn s)
  | .idle =>
    match s.inputs with
    | [] => .next s
    | a :: rest => hostAct a { s with inputs := rest }
  | .running =>
    match s.inputs with
    | [] => .fault .stuckInPrimitive
    | a :: rest => hostAct a { s with inputs := rest }

/-- The state after a power-on sequence in which every `PinSet` returned Ok (R47, R140), no answer of the environment used. -/
def State.poweredOn (s : State) : State :=
  { s with
    status := statusOk, ready := true, busy := .idle, lines := ⟨.high, .high, .low, .low⟩,
    trace := s.trace ++ s.cfg.resetPinOrder.map (fun l => .pinSet l (powerOnLevel l) .ok) }

/-- The RBIC accepts a command (log 11): a power-on sequence that is still to run has run with every `PinSet` Ok; else `BUSY = 0`
and `READY = 1`, and nothing more. -/
def State.accepting (s : State) : State :=
  match s.busy with
  | .starting => s.poweredOn
  | .idle => { s with ready := true }
  | .running => { s with ready := true, busy := .idle }

/-- The packet is what the host presents next, to an RBIC that accepts it. -/
def State.withPacket (s : State) (p : Packet) : State :=
  { s.accepting with inputs := .present p :: s.inputs }

end Sys2Proof.Machine
end

