-- ==== Sys2Proof/Machine/Step.lean ====
section
/-! DEFINITION. The step of the machine, and placing an instruction where the step takes its next one. -/

namespace Sys2Proof.Machine

/-- One step (Machine/Fetch.lean). -/
def step (s : State) : Host.Outcome State Fault Refusal := advance s

/-- The state with the instruction whose bits are `w` presented next (Decode.lean `tablePacket`, Machine/Fetch.lean
`State.withPacket`; log 11, log 15). -/
def State.withFetchWord (s : State) (nbits w : Nat) : State := s.withPacket (tablePacket nbits w)

end Sys2Proof.Machine
end

