-- ==== Sys2Proof/Safety.lean ====
section
/-! DEFINITION. The terms claims are stated in: what a list of primitive events does to the state (R34, R93, R104), which answers
of the environment a list of events stands for (R15, R17), the outcomes of a transaction (R90), the table of legal headers
(R69, R70), and what a state reached by steps satisfies. Nothing here is called by the machine. -/

namespace Sys2Proof.Machine

/-! ### What events do -/

/-- The lines after one event: R34, "`LINE` is never changed otherwise". -/
def lineStep (ls : Lines) : Event → Lines
  | .pinSet l lvl .ok => ls.set l (if lvl then .high else .low)
  | .pinSet l _ .fail => ls.set l .unknown
  | .pinSet _ _ .noReturn => ls
  | .busXfer _ _ => ls
  | .busWrite _ _ => ls
  | .delay _ _ => ls

/-- The lines after a list of events. -/
def linesAfter (evs : List Event) (ls : Lines) : Lines := evs.foldl lineStep ls

/-- The register address and value a write request frame carries (R73). -/
def frameAddr (f : Frame) : Addr := f.f0.setWidth 7
def frameValue (f : Frame) : Word := f.f1 ++ f.f2 ++ f.f3 ++ f.f4

/-- The shadow after one event. A `BusWrite` that returned Ok is remembered, and the chip-select release that follows it and
returns Ok makes it a successful write transaction (R90), which writes the entry of a tracked address (R93, R104). -/
def shadowStep (c : Config) : Option Frame × List ShadowCell → Event → Option Frame × List ShadowCell
  | (_, cells), .busWrite f .ok => (some f, cells)
  | (some f, cells), .pinSet .csN true .ok =>
    (none, if c.trackedSet.contains (frameAddr f) then putCell cells (frameAddr f) (frameValue f) else cells)
  | (_, cells), _ => (none, cells)

/-- The shadow after a list of events. -/
def shadowAfter (c : Config) (evs : List Event) (cells : List ShadowCell) : List ShadowCell :=
  (evs.foldl (shadowStep c) (none, cells)).2

/-- `n` answers of the environment are used up. -/
def State.dropDraws (s : State) : Nat → State
  | 0 => s
  | n + 1 => s.popDraw.dropDraws n

/-- The state after the primitive events `evs`: their answers are used up, they stand in `TRACE` (R17), and the lines (R34) and
the shadow (R93) are what they make them. Nothing else differs. -/
def State.afterEvents (s : State) (evs : List Event) : State :=
  { s.dropDraws evs.length with
    trace := s.trace ++ evs, lines := linesAfter evs s.lines, shadow := shadowAfter s.cfg evs s.shadow }

/-! ### Which answers a list of events stands for -/

/-- The event is the one a primitive with this answer leaves in `TRACE`. A `Delay` never fails (R15). -/
def Event.answeredBy : Event → Draw → Bool
  | .pinSet _ _ o, d => d.out == o
  | .busXfer _ (.ok rx), d => d.out == .ok && d.rx == rx
  | .busXfer _ .fail, d => d.out == .fail
  | .busXfer _ .noReturn, d => d.out == .noReturn
  | .busWrite _ o, d => d.out == o
  | .delay _ .noReturn, d => d.out == .noReturn
  | .delay _ .ok, d => d.out != .noReturn
  | .delay _ .fail, _ => false

/-- The environment's next answers are those of the events, in order. -/
def State.gives (s : State) : List Event → Bool
  | [] => true
  | e :: es => e.answeredBy (s.upcoming 0) && s.popDraw.gives es

/-- The RBIC accepts a command and runs it: `BUSY = 0` and `READY = 1` (R31, R32). -/
abbrev State.Accepts (s : State) : Prop := s.busy = .idle ∧ s.ready = true

/-! ### Transactions (R89, R90) -/

/-- A successful read transaction with request `f` and response `rx`. -/
def readTxn (f rx : Frame) : List Event :=
  [.pinSet .csN false .ok, .busXfer f (.ok rx), .pinSet .csN true .ok]

/-- A successful write transaction with request `f`. -/
def writeTxn (f : Frame) : List Event :=
  [.pinSet .csN false .ok, .busWrite f .ok, .pinSet .csN true .ok]

/-- The four rows of R90 that fail. -/
inductive TxnFailure where
  | assert
  | transfer
  | release
  | transferAndRelease
  deriving DecidableEq, Repr

/-- `STATUS` after a failed transaction (R90): CODE in [2:0], CSF in bit 3. -/
def TxnFailure.status : TxnFailure → Word
  | .assert => 0x2#32
  | .transfer => 0x1#32
  | .release => 0xA#32
  | .transferAndRelease => 0x9#32

/-- `LINE[CS_N]` after a failed transaction (R90). -/
def TxnFailure.csN : TxnFailure → Level
  | .assert => .unknown
  | .transfer => .high
  | .release => .unknown
  | .transferAndRelease => .unknown

/-- The events of a read transaction that fails so; `rx` is the response of a transfer that returned Ok. -/
def TxnFailure.readEvents (f rx : Frame) : TxnFailure → List Event
  | .assert => [.pinSet .csN false .fail]
  | .transfer => [.pinSet .csN false .ok, .busXfer f .fail, .pinSet .csN true .ok]
  | .release => [.pinSet .csN false .ok, .busXfer f (.ok rx), .pinSet .csN true .fail]
  | .transferAndRelease => [.pinSet .csN false .ok, .busXfer f .fail, .pinSet .csN true .fail]

/-- The events of a write transaction that fails so. -/
def TxnFailure.writeEvents (f : Frame) : TxnFailure → List Event
  | .assert => [.pinSet .csN false .fail]
  | .transfer => [.pinSet .csN false .ok, .busWrite f .fail, .pinSet .csN true .ok]
  | .release => [.pinSet .csN false .ok, .busWrite f .ok, .pinSet .csN true .fail]
  | .transferAndRelease => [.pinSet .csN false .ok, .busWrite f .fail, .pinSet .csN true .fail]

/-- Where a transaction hangs (R18, R90): in its assertion, its transfer, or its release after a transfer that returned Ok or Fail. -/
inductive TxnHang where
  | assert
  | transfer
  | release
  | releaseAfterFail
  deriving DecidableEq, Repr

/-- The events of a read transaction that hangs so. -/
def TxnHang.readEvents (f rx : Frame) : TxnHang → List Event
  | .assert => [.pinSet .csN false .noReturn]
  | .transfer => [.pinSet .csN false .ok, .busXfer f .noReturn]
  | .release => [.pinSet .csN false .ok, .busXfer f (.ok rx), .pinSet .csN true .noReturn]
  | .releaseAfterFail => [.pinSet .csN false .ok, .busXfer f .fail, .pinSet .csN true .noReturn]

/-- The events of a write transaction that hangs so. -/
def TxnHang.writeEvents (f : Frame) : TxnHang → List Event
  | .assert => [.pinSet .csN false .noReturn]
  | .transfer => [.pinSet .csN false .ok, .busWrite f .noReturn]
  | .release => [.pinSet .csN false .ok, .busWrite f .ok, .pinSet .csN true .noReturn]
  | .releaseAfterFail => [.pinSet .csN false .ok, .busWrite f .fail, .pinSet .csN true .noReturn]

/-- The request of a read of address `a` (R73, R75): direction bit 0 and four placeholder bytes `p`. -/
def readFrame (p : Byte) (a : Addr) : Frame := ⟨0#1 ++ a, p, p, p, p⟩

/-- The request of a write of `v` to address `a` (R73): direction bit 1, then the value, most-significant byte first. -/
def writeFrame (a : Addr) (v : Word) : Frame :=
  ⟨1#1 ++ a, v.extractLsb' 24 8, v.extractLsb' 16 8, v.extractLsb' 8 8, v.extractLsb' 0 8⟩

/-- A command whose transactions before were `before` and whose next transaction fails as `e` says ends there (R90, R94): exec
answers the state those events give, with the failure's `STATUS` and nothing else written. -/
def StopsInRead (i : Instr) (s : State) (before : List Event) (f : Frame) : Prop :=
  ∀ (e : TxnFailure) (rx : Frame), s.gives (before ++ e.readEvents f rx) = true →
    exec i s = .next { s.afterEvents (before ++ e.readEvents f rx) with status := e.status }

/-- The same for a write transaction. -/
def StopsInWrite (i : Instr) (s : State) (before : List Event) (f : Frame) : Prop :=
  ∀ e : TxnFailure, s.gives (before ++ e.writeEvents f) = true →
    exec i s = .next { s.afterEvents (before ++ e.writeEvents f) with status := e.status }

/-- The value of a read response (R76): bytes 1 to 4, most-significant first, `rx[0]` discarded. -/
def rxValue (rx : Frame) : Word := rx.f1 ++ rx.f2 ++ rx.f3 ++ rx.f4

/-- The primitive of the event returned (R18). -/
def Event.returned : Event → Bool
  | .pinSet _ _ o => o != .noReturn
  | .busXfer _ o => o != .noReturn
  | .busWrite _ o => o != .noReturn
  | .delay _ o => o != .noReturn

/-- The primitive of the event returned Ok. -/
def Event.succeeded : Event → Bool
  | .pinSet _ _ o => o == .ok
  | .busXfer _ (.ok _) => true
  | .busXfer _ .fail => false
  | .busXfer _ .noReturn => false
  | .busWrite _ o => o == .ok
  | .delay _ o => o == .ok

/-! ### Fields, bit by bit (R12, R83 to R86) -/

/-- R83, in the spec's words. -/
abbrev LegalDesc (off wid : Nat) : Prop := 1 ≤ wid ∧ wid ≤ 32 ∧ off + wid ≤ 32

/-- The bits `[off, off + wid)` of `r` are the low bits of `x` and every other bit is that of `v` (R85). -/
def FieldInserted (v : Word) (off wid : Nat) (x r : Word) : Prop :=
  ∀ i, i < 32 → r.getLsbD i = if off ≤ i ∧ i < off + wid then x.getLsbD (i - off) else v.getLsbD i

/-- Two fields of one register that do not overlap (R81). -/
abbrev DisjointFields (f g : FieldDesc) : Prop := f.off + f.wid ≤ g.off ∨ g.off + g.wid ≤ f.off

/-! ### Headers (R69, R70) -/

/-- One row of R69: the opcode, whether it uses ADDR, and whether it uses WID and OFF. -/
structure HeaderRow where
  opc : Byte
  usesAddr : Bool
  usesField : Bool
  deriving DecidableEq, Repr

/-- The fifteen rows of R69. -/
def headerRows : List HeaderRow :=
  [⟨0x01, true, false⟩, ⟨0x02, true, false⟩, ⟨0x03, true, true⟩, ⟨0x04, true, false⟩, ⟨0x10, false, true⟩,
    ⟨0x11, false, true⟩, ⟨0x20, false, false⟩, ⟨0x21, false, false⟩, ⟨0x22, false, false⟩, ⟨0x23, false, false⟩,
    ⟨0x24, false, false⟩, ⟨0x30, false, false⟩, ⟨0x31, false, false⟩, ⟨0x32, false, false⟩, ⟨0x33, false, false⟩]

/-- The mask of a row's header shape (the table of R70). -/
def HeaderRow.mask (r : HeaderRow) : Word :=
  match r.usesAddr, r.usesField with
  | true, false => 0xFF80FFFF#32
  | true, true => 0xFF80C0E0#32
  | false, true => 0xFFFFC0E0#32
  | false, false => 0xFFFFFFFF#32

/-- The header spells the row's command: its opcode, every reserved bit 0, every field the opcode does not use 0 (R70). -/
def HeaderRow.legal (r : HeaderRow) (H : Word) : Bool :=
  H.extractLsb' 24 8 == r.opc && H.extractLsb' 23 1 == 0#1 && H.extractLsb' 14 2 == 0#2 && H.extractLsb' 5 3 == 0#3
    && (r.usesAddr || H.extractLsb' 16 7 == 0#7)
    && (r.usesField || (H.extractLsb' 8 6 == 0#6 && H.extractLsb' 0 5 == 0#5))

/-- The header spells some command (R70). -/
def legalHeader (H : Word) : Bool := headerRows.any (fun r => r.legal H)

/-- A header with this match under this mask decodes to that instruction (the "Encoding" line of a command's rule). -/
def EncodedAs (mask matchWord : Word) (f : Command → Instr) : Prop :=
  ∀ c : Command, c.H &&& mask = matchWord → decode (.command c) = .ok (f c)

/-! ### What the commands may do -/

/-- The instruction is a host command of R69, not a wire row (log 8). -/
def isCommand : Instr → Bool
  | .wireRead _ _ => false
  | .wireWrite _ _ => false
  | .readReg _ => true
  | .writeReg _ _ => true
  | .modifyField _ _ _ _ => true
  | .cacheGet _ => true
  | .fieldGet _ _ _ => true
  | .fieldSet _ _ _ _ => true
  | .init => true
  | .resetCfg => true
  | .setCurrent _ _ _ => true
  | .setMicrosteps _ => true
  | .getDriverStatus => true
  | .enableDriver => true
  | .disableDriver => true
  | .setDirection _ => true
  | .step => true

/-- The error codes a command can end with once it is accepted and decoded (R122): BUS_ERROR 1, PIN_ERROR 2, INVALID_ARGUMENT 3,
NOT_INITIALIZED 4; 0 is OK. -/
def mayEndWith : Instr → List (BitVec 3)
  | .readReg _ => [0, 1, 2]
  | .writeReg _ _ => [0, 1, 2]
  | .modifyField _ _ _ _ => [0, 1, 2, 3, 4]
  | .cacheGet _ => [0]
  | .fieldGet _ _ _ => [0, 3]
  | .fieldSet _ _ _ _ => [0, 3]
  | .init => [0, 1, 2]
  | .resetCfg => [0, 1, 2]
  | .setCurrent _ _ _ => [0, 1, 2, 3]
  | .setMicrosteps _ => [0, 1, 2, 3]
  | .getDriverStatus => [0, 1, 2]
  | .enableDriver => [0, 2]
  | .disableDriver => [0, 2]
  | .setDirection _ => [0, 2, 3]
  | .step => [0, 2]
  | .wireRead _ _ => [0, 1, 2]
  | .wireWrite _ _ => [0, 1, 2]

/-- The kinds of primitive events (R15). -/
inductive EventKind where
  | pin
  | read
  | write
  | delay
  deriving DecidableEq, Repr

/-- The kind of an event. -/
def Event.kind : Event → EventKind
  | .pinSet _ _ _ => .pin
  | .busXfer _ _ => .read
  | .busWrite _ _ => .write
  | .delay _ _ => .delay

/-- The number of events of a kind. -/
def countKind (k : EventKind) (evs : List Event) : Nat := evs.countP (fun e => e.kind == k)

/-- A row of R100: bus reads, bus writes, PinSet events, Delay events. -/
structure Counts where
  reads : Nat
  writes : Nat
  pins : Nat
  delays : Nat
  deriving DecidableEq, Repr

/-- The counts of a list of events. -/
def countsOf (evs : List Event) : Counts :=
  ⟨countKind .read evs, countKind .write evs, countKind .pin evs, countKind .delay evs⟩

/-- The table of R100, for a command that ends with OK under a configuration; the wire rows are one transaction (R52). -/
def primitiveCounts (c : Config) : Instr → Counts
  | .readReg _ => ⟨1, 0, 2, 0⟩
  | .writeReg _ _ => ⟨0, 1, 2, 0⟩
  | .modifyField addr _ _ _ => if c.trackedSet.contains addr then ⟨0, 1, 2, 0⟩ else ⟨1, 1, 4, 0⟩
  | .cacheGet _ => ⟨0, 0, 0, 0⟩
  | .fieldGet _ _ _ => ⟨0, 0, 0, 0⟩
  | .fieldSet _ _ _ _ => ⟨0, 0, 0, 0⟩
  | .init => ⟨2, 3, 10, 0⟩
  | .resetCfg => ⟨1, 2, 6, 0⟩
  | .setCurrent _ _ _ => ⟨0, 1, 2, 0⟩
  | .setMicrosteps _ => ⟨1, 1, 4, 0⟩
  | .getDriverStatus => ⟨2, 0, 4, 0⟩
  | .enableDriver => ⟨0, 0, 1, 0⟩
  | .disableDriver => ⟨0, 0, 1, 0⟩
  | .setDirection _ => ⟨0, 0, 1, 0⟩
  | .step => ⟨0, 0, 2, 1⟩
  | .wireRead _ _ => ⟨1, 0, 2, 0⟩
  | .wireWrite _ _ => ⟨0, 1, 2, 0⟩

/-- The lines an instruction may drive (R89, R116 to R119). -/
def mayDrive : Instr → List Line
  | .readReg _ => [.csN]
  | .writeReg _ _ => [.csN]
  | .modifyField _ _ _ _ => [.csN]
  | .cacheGet _ => []
  | .fieldGet _ _ _ => []
  | .fieldSet _ _ _ _ => []
  | .init => [.csN]
  | .resetCfg => [.csN]
  | .setCurrent _ _ _ => [.csN]
  | .setMicrosteps _ => [.csN]
  | .getDriverStatus => [.csN]
  | .enableDriver => [.enN]
  | .disableDriver => [.enN]
  | .setDirection _ => [.dir]
  | .step => [.step]
  | .wireRead _ _ => [.csN]
  | .wireWrite _ _ => [.csN]

/-- The device registers an instruction may write (R93, R96, R97, R108 to R112): the only addresses whose shadow entry it may
change (R104). -/
def mayWrite : Instr → List Addr
  | .readReg _ => []
  | .writeReg addr _ => [addr]
  | .modifyField addr _ _ _ => [addr]
  | .cacheGet _ => []
  | .fieldGet _ _ _ => []
  | .fieldSet _ _ _ _ => []
  | .init => [0x10#7, 0x6C#7]
  | .resetCfg => [0x10#7, 0x6C#7]
  | .setCurrent _ _ _ => [0x10#7]
  | .setMicrosteps _ => [0x6C#7]
  | .getDriverStatus => []
  | .enableDriver => []
  | .disableDriver => []
  | .setDirection _ => []
  | .step => []
  | .wireRead _ _ => []
  | .wireWrite addr _ => [addr]

/-- The instruction may write `RESULT0` (R26). -/
def writesResult0 : Instr → Bool
  | .readReg _ => true
  | .writeReg _ _ => true
  | .modifyField _ _ _ _ => true
  | .cacheGet _ => true
  | .fieldGet _ _ _ => true
  | .fieldSet _ _ _ _ => true
  | .init => false
  | .resetCfg => false
  | .setCurrent _ _ _ => true
  | .setMicrosteps _ => true
  | .getDriverStatus => true
  | .enableDriver => false
  | .disableDriver => false
  | .setDirection _ => false
  | .step => false
  | .wireRead _ _ => false
  | .wireWrite _ _ => false

/-- The instruction may write `RESULT1`: CACHE_GET alone (R27). -/
def writesResult1 : Instr → Bool
  | .cacheGet _ => true
  | .readReg _ => false
  | .writeReg _ _ => false
  | .modifyField _ _ _ _ => false
  | .fieldGet _ _ _ => false
  | .fieldSet _ _ _ _ => false
  | .init => false
  | .resetCfg => false
  | .setCurrent _ _ _ => false
  | .setMicrosteps _ => false
  | .getDriverStatus => false
  | .enableDriver => false
  | .disableDriver => false
  | .setDirection _ => false
  | .step => false
  | .wireRead _ _ => false
  | .wireWrite _ _ => false

/-! ### What a state reached by steps satisfies -/

/-- The values `STATUS` takes (R28, R29, R90): CODE 0 to 5, CSF only with BUS_ERROR or PIN_ERROR, [31:4] zero. -/
def statusValues : List Word := [0x0, 0x1, 0x2, 0x3, 0x4, 0x5, 0x9, 0xA]

/-- The registers are what the spec lets them be: a valid configuration (R11), a legal `STATUS` (R28, R29), `RESULT1` 0 or 1
(R27), one shadow cell per tracked address in order (R36), an invalid cell holding 0 (R36, R104), and while `READY = 0` no
result and no valid cell (R31, R47). -/
structure State.Sound (s : State) : Prop where
  cfg : s.cfg.Valid
  status : s.status ∈ statusValues
  result1 : s.result1 = 0#32 ∨ s.result1 = 1#32
  shadowAddrs : s.shadow.map ShadowCell.addr = s.cfg.trackedSet
  shadowEmpty : ∀ c ∈ s.shadow, c.v = false → c.d = 0#32
  notReady : s.ready = false → s.result0 = 0#32 ∧ s.result1 = 0#32 ∧ s.shadow = emptyShadow s.cfg
  starting : s.busy = .starting → s.ready = false ∧ s.trace = [] ∧ s.lines = Lines.allUnknown

/-- `LINE` is what the `PinSet` events of `TRACE` make it, from U (R33, R34). -/
def State.LinesFollowTrace (s : State) : Prop := s.lines = linesAfter s.trace Lines.allUnknown

/-- `SHADOW` is what the successful write transactions of `TRACE` make it, from empty, and no write waits for its release (R37,
R59, R104). -/
def State.ShadowFollowsTrace (s : State) : Prop :=
  s.trace.foldl (shadowStep s.cfg) (none, emptyShadow s.cfg) = (none, s.shadow)

/-- Where a reader of `TRACE` stands (R53, R58, R89): between transactions; after a chip-select assertion that returned Ok; after
a transfer that returned; after a primitive that never returned (R18), which no event follows; or the trace is not one of the RBIC. -/
inductive Framing where
  | between
  | asserted
  | transferred
  | stuck
  | broken
  deriving DecidableEq, Repr

/-- One event read: a bus transfer stands only between a chip-select assertion that returned Ok and an attempted release, and
nothing stands between them (R54, R58, R89). -/
def frameStep : Framing → Event → Framing
  | .between, .pinSet .csN false .ok => .asserted
  | .between, .pinSet _ _ .noReturn => .stuck
  | .between, .pinSet _ _ _ => .between
  | .between, .delay _ .noReturn => .stuck
  | .between, .delay _ _ => .between
  | .asserted, .busXfer _ .noReturn => .stuck
  | .asserted, .busXfer _ _ => .transferred
  | .asserted, .busWrite _ .noReturn => .stuck
  | .asserted, .busWrite _ _ => .transferred
  | .transferred, .pinSet .csN true .noReturn => .stuck
  | .transferred, .pinSet .csN true _ => .between
  | _, _ => .broken

/-- `TRACE` is framed; it ends in a primitive that never returned exactly while the RBIC is held in it (R18, R53, R58, R150;
that the hung primitive stands in `TRACE` is log 6). -/
def State.TraceFramed (s : State) : Prop :=
  s.trace.foldl frameStep .between = if s.busy = .running then .stuck else .between

end Sys2Proof.Machine
end

