-- ==== Sys2Proof/Certificates/Slice0/Obligations.lean ====
section
/-! DEFINITION. The statements about the model, each from a numbered rule of spec/ or from what the rules give together. Terms
are those of Sys2Proof/Safety.lean. Nothing is proved here. -/

open Sys2Proof Sys2Proof.Machine

/-! ### Encoding (30_encoding.md) -/

/-- R65, R67, R69, R77: no bit of an encoding is dropped, for every instruction and every operand value. -/
def Obligations.DecodeOfEncode : Prop :=
  ∀ i : Instr, decode (encode i) = .ok i

/-- The other direction of R67 and R77: the header or frame of a decoded instruction is the one the encoder gives (the operand
words a command does not use are not determined, R64). -/
def Obligations.EncodeOfDecode : Prop :=
  (∀ (c : Command) (i : Instr), decode (.command c) = .ok i → ∃ a b d, encode i = .command ⟨c.H, a, b, d⟩) ∧
  (∀ (w : BitVec 40) (i : Instr), decode (.frame w) = .ok i → encode i = .frame w)

/-- R70: decoding is by exact match, said through the reserved bits and unused fields and through match and mask. -/
def Obligations.LegalHeadersDecode : Prop :=
  ∀ c : Command,
    ((∃ i, decode (.command c) = .ok i) ↔ legalHeader c.H = true) ∧
    (legalHeader c.H = true ↔ ∃ r ∈ headerRows, c.H &&& r.mask = (r.opc ++ 0#24 : Word))

/-- R71: an illegal header presented to an RBIC that accepts it ends with ILLEGAL_COMMAND and changes nothing else. -/
def Obligations.IllegalCommandCompletes : Prop :=
  ∀ (s : State) (c : Command) (rest : List HostInput), s.Accepts → s.inputs = .present (.command c) :: rest →
    legalHeader c.H = false → step s = .next { s with inputs := rest, status := 0x5#32 }

/-- R80: the worked encodings, both ways; the operand words a command does not use are 0. -/
def Obligations.WorkedEncodingsDecode : Prop :=
  ∀ p ∈ ([(⟨0x016F0000, 0, 0, 0⟩, .readReg 0x6F),
      (⟨0x02100000, 0x00041008, 0, 0⟩, .writeReg 0x10 0x00041008),
      (⟨0x03100508, 0x0000001F, 0, 0⟩, .modifyField 0x10 8 5 31),
      (⟨0x04100000, 0, 0, 0⟩, .cacheGet 0x10),
      (⟨0x10000508, 0x00041008, 0, 0⟩, .fieldGet 8 5 0x00041008),
      (⟨0x11000508, 0xFFFFFFFF, 0x00000000, 0⟩, .fieldSet 8 5 0xFFFFFFFF 0),
      (⟨0x20000000, 0, 0, 0⟩, .init),
      (⟨0x21000000, 0, 0, 0⟩, .resetCfg),
      (⟨0x22000000, 0x00000010, 0x00000008, 0x00000004⟩, .setCurrent 16 8 4),
      (⟨0x23000000, 0x00000000, 0, 0⟩, .setMicrosteps 0),
      (⟨0x24000000, 0, 0, 0⟩, .getDriverStatus),
      (⟨0x30000000, 0, 0, 0⟩, .enableDriver),
      (⟨0x31000000, 0, 0, 0⟩, .disableDriver),
      (⟨0x32000000, 0x00000001, 0, 0⟩, .setDirection 1),
      (⟨0x33000000, 0, 0, 0⟩, .step)] : List (Command × Instr)),
    decode (.command p.1) = .ok p.2 ∧ encode p.2 = .command p.1

/-- R77: the 40-bit word of a frame, `{f[0], ..., f[4]}`, and bit 39 alone telling a read request from a write request. -/
def Obligations.WireFrameWord : Prop :=
  (∀ (a : Addr) (v : Word), ∃ w : BitVec 40, encode (.wireWrite a v) = .frame w ∧
    w.toNat = 2 ^ 39 + a.toNat * 2 ^ 32 + v.toNat ∧
    w = (writeFrame a v).f0 ++ (writeFrame a v).f1 ++ (writeFrame a v).f2 ++ (writeFrame a v).f3 ++ (writeFrame a v).f4) ∧
  (∀ a : Addr, ∃ w : BitVec 40, encode (.wireRead a placeholderWord) = .frame w ∧ w.toNat = a.toNat * 2 ^ 32 ∧
    w = (readFrame 0x00#8 a).f0 ++ (readFrame 0x00#8 a).f1 ++ (readFrame 0x00#8 a).f2 ++ (readFrame 0x00#8 a).f3
      ++ (readFrame 0x00#8 a).f4) ∧
  (∀ w : BitVec 40, ∃ i, decode (.frame w) = .ok i ∧
    (w.getLsbD 39 = true → ∃ a v, i = .wireWrite a v) ∧ (w.getLsbD 39 = false → ∃ a p, i = .wireRead a p))

/-! ### The bitfield codec (41_codec.md) -/

/-- R87. -/
def Obligations.FieldGetResult : Prop :=
  EncodedAs 0xFFFFC0E0#32 0x10000000#32 (fun c => .fieldGet (c.H.extractLsb' 0 5) (c.H.extractLsb' 8 6) c.A) ∧
  ∀ (s : State) (off : BitVec 5) (wid : BitVec 6) (v : Word), s.Accepts →
    (LegalDesc off.toNat wid.toNat → exec (.fieldGet off wid v) s =
      .next { s with status := 0#32, result0 := BitVec.ofNat 32 (v.toNat / 2 ^ off.toNat % 2 ^ wid.toNat) }) ∧
    (¬ LegalDesc off.toNat wid.toNat → exec (.fieldGet off wid v) s = .next { s with status := 0x3#32 })

/-- R88. -/
def Obligations.FieldSetResult : Prop :=
  EncodedAs 0xFFFFC0E0#32 0x11000000#32 (fun c => .fieldSet (c.H.extractLsb' 0 5) (c.H.extractLsb' 8 6) c.A c.B) ∧
  ∀ (s : State) (off : BitVec 5) (wid : BitVec 6) (v x : Word), s.Accepts →
    (LegalDesc off.toNat wid.toNat → ∃ r, FieldInserted v off.toNat wid.toNat x r ∧
      exec (.fieldSet off wid v x) s = .next { s with status := 0#32, result0 := r }) ∧
    (¬ LegalDesc off.toNat wid.toNat → exec (.fieldSet off wid v x) s = .next { s with status := 0x3#32 })

/-- R86: truncation, round trip, non-interference, identity; and encoding a set of fields that do not overlap, in any order, and
decoding each of them. -/
def Obligations.CodecLaws : Prop :=
  (∀ (v x : Word) (off wid : Nat), LegalDesc off wid →
    (getField (setField v off wid x) off wid).toNat = x.toNat % 2 ^ wid ∧
    (x.toNat < 2 ^ wid → getField (setField v off wid x) off wid = x) ∧
    (∀ off2 wid2, LegalDesc off2 wid2 → DisjointFields ⟨off, wid⟩ ⟨off2, wid2⟩ →
      getField (setField v off wid x) off2 wid2 = getField v off2 wid2) ∧
    FieldInserted v off wid x (setField v off wid x) ∧
    setField v off wid (getField v off wid) = v) ∧
  (∀ fs : List (FieldDesc × Word), (∀ f ∈ fs, LegalDesc f.1.off f.1.wid) →
    fs.Pairwise (fun f g => DisjointFields f.1 g.1) →
    encodeFields fs = fs.foldl (fun v f => setField v f.1.off f.1.wid f.2) 0#32 ∧
    (∀ f ∈ fs, (getField (encodeFields fs) f.1.off f.1.wid).toNat = f.2.toNat % 2 ^ f.1.wid) ∧
    (∀ gs, gs.Perm fs → encodeFields gs = encodeFields fs))

/-! ### Transport (42_transport.md) -/

/-- R95 with the rows of R90: READ_REG, of a tracked register too (R99). -/
def Obligations.ReadRegOutcomes : Prop :=
  EncodedAs 0xFF80FFFF#32 0x01000000#32 (fun c => .readReg (c.H.extractLsb' 16 7)) ∧
  ∀ (s : State) (a : Addr), s.Accepts →
    (∀ rx, s.gives (readTxn (readFrame s.cfg.placeholder a) rx) = true → exec (.readReg a) s =
      .next { s.afterEvents (readTxn (readFrame s.cfg.placeholder a) rx) with
        status := 0#32, result0 := rxValue rx, lines := { s.lines with csN := .high }, shadow := s.shadow }) ∧
    (∀ (e : TxnFailure) (rx : Frame), s.gives (e.readEvents (readFrame s.cfg.placeholder a) rx) = true →
      exec (.readReg a) s = .next { s.afterEvents (e.readEvents (readFrame s.cfg.placeholder a) rx) with
        status := e.status, lines := { s.lines with csN := e.csN }, shadow := s.shadow })

/-- R96 with the rows of R90: WRITE_REG, and the shadow update of R93. -/
def Obligations.WriteRegOutcomes : Prop :=
  EncodedAs 0xFF80FFFF#32 0x02000000#32 (fun c => .writeReg (c.H.extractLsb' 16 7) c.A) ∧
  ∀ (s : State) (a : Addr) (v : Word), s.Accepts →
    (s.gives (writeTxn (writeFrame a v)) = true → exec (.writeReg a v) s =
      .next { s.afterEvents (writeTxn (writeFrame a v)) with
        status := 0#32, result0 := v, lines := { s.lines with csN := .high },
        shadow := if a ∈ s.cfg.trackedSet then putCell s.shadow a v else s.shadow }) ∧
    (∀ e : TxnFailure, s.gives (e.writeEvents (writeFrame a v)) = true →
      exec (.writeReg a v) s = .next { s.afterEvents (e.writeEvents (writeFrame a v)) with
        status := e.status, lines := { s.lines with csN := e.csN }, shadow := s.shadow })

/-- R18, R150: a transaction of READ_REG or WRITE_REG whose primitive never returns leaves the command in progress. That the
primitive stands in TRACE with no outcome of its own is the model's reading (log 6). -/
def Obligations.HungTransactionHolds : Prop :=
  ∀ (s : State) (a : Addr) (v : Word) (rx : Frame) (h : TxnHang), s.Accepts →
    (s.gives (h.readEvents (readFrame s.cfg.placeholder a) rx) = true → exec (.readReg a) s =
      .next { s.afterEvents (h.readEvents (readFrame s.cfg.placeholder a) rx) with busy := .running }) ∧
    (s.gives (h.writeEvents (writeFrame a v)) = true → exec (.writeReg a v) s =
      .next { s.afterEvents (h.writeEvents (writeFrame a v)) with busy := .running })

/-- R83, R106, R125: MODIFY_FIELD checks its descriptor first, then the shadow of a tracked register, and issues no primitive when
either fails. -/
def Obligations.ModifyFieldRejects : Prop :=
  EncodedAs 0xFF80C0E0#32 0x03000000#32
    (fun c => .modifyField (c.H.extractLsb' 16 7) (c.H.extractLsb' 0 5) (c.H.extractLsb' 8 6) c.A) ∧
  ∀ (s : State) (a : Addr) (off : BitVec 5) (wid : BitVec 6) (x : Word), s.Accepts →
    (¬ LegalDesc off.toNat wid.toNat → exec (.modifyField a off wid x) s = .next { s with status := 0x3#32 }) ∧
    (LegalDesc off.toNat wid.toNat → a ∈ s.cfg.trackedSet → (∀ d, findCell s.shadow a ≠ some ⟨a, true, d⟩) →
      exec (.modifyField a off wid x) s = .next { s with status := 0x4#32 })

/-- R97, R98: MODIFY_FIELD of a tracked register takes the shadow's value and issues one write transaction and no read. -/
def Obligations.ModifyFieldFromShadow : Prop :=
  ∀ (s : State) (a : Addr) (off : BitVec 5) (wid : BitVec 6) (x cur : Word), s.Accepts →
    LegalDesc off.toNat wid.toNat → a ∈ s.cfg.trackedSet → findCell s.shadow a = some ⟨a, true, cur⟩ →
    ∃ new, FieldInserted cur off.toNat wid.toNat x new ∧
      (s.gives (writeTxn (writeFrame a new)) = true → exec (.modifyField a off wid x) s =
        .next { s.afterEvents (writeTxn (writeFrame a new)) with
          status := 0#32, result0 := new, shadow := putCell s.shadow a new }) ∧
      StopsInWrite (.modifyField a off wid x) s [] (writeFrame a new)

/-- R97, R98: MODIFY_FIELD of an untracked register reads it from the bus, then writes it. -/
def Obligations.ModifyFieldFromBus : Prop :=
  ∀ (s : State) (a : Addr) (off : BitVec 5) (wid : BitVec 6) (x : Word), s.Accepts →
    LegalDesc off.toNat wid.toNat → a ∉ s.cfg.trackedSet →
    StopsInRead (.modifyField a off wid x) s [] (readFrame s.cfg.placeholder a) ∧
    ∀ rx, ∃ new, FieldInserted (rxValue rx) off.toNat wid.toNat x new ∧
      (s.gives (readTxn (readFrame s.cfg.placeholder a) rx ++ writeTxn (writeFrame a new)) = true →
        exec (.modifyField a off wid x) s =
          .next { s.afterEvents (readTxn (readFrame s.cfg.placeholder a) rx ++ writeTxn (writeFrame a new)) with
            status := 0#32, result0 := new, shadow := s.shadow }) ∧
      StopsInWrite (.modifyField a off wid x) s (readTxn (readFrame s.cfg.placeholder a) rx) (writeFrame a new)

/-- The model's own reading of the two wire rows (log 8): the transaction of R92 or R93 that carries the frame, whatever the four
bytes after a read request's address are, without a command around it. -/
def Obligations.WireRowOutcomes : Prop :=
  ∀ (s : State) (a : Addr) (v : Word), s.Accepts →
    let f : Frame := ⟨0#1 ++ a, v.extractLsb' 24 8, v.extractLsb' 16 8, v.extractLsb' 8 8, v.extractLsb' 0 8⟩
    (∀ rx, s.gives (readTxn f rx) = true → exec (.wireRead a v) s = .next (s.afterEvents (readTxn f rx))) ∧
    StopsInRead (.wireRead a v) s [] f ∧
    (s.gives (writeTxn (writeFrame a v)) = true →
      exec (.wireWrite a v) s = .next (s.afterEvents (writeTxn (writeFrame a v)))) ∧
    StopsInWrite (.wireWrite a v) s [] (writeFrame a v)

/-! ### The shadow cache (43_cache.md) -/

/-- R107. -/
def Obligations.CacheGetResult : Prop :=
  EncodedAs 0xFF80FFFF#32 0x04000000#32 (fun c => .cacheGet (c.H.extractLsb' 16 7)) ∧
  ∀ (s : State) (a : Addr), s.Accepts →
    (∀ d, a ∈ s.cfg.trackedSet → findCell s.shadow a = some ⟨a, true, d⟩ →
      exec (.cacheGet a) s = .next { s with status := 0#32, result0 := d, result1 := 1#32 }) ∧
    ((a ∉ s.cfg.trackedSet ∨ ∀ d, findCell s.shadow a ≠ some ⟨a, true, d⟩) →
      exec (.cacheGet a) s = .next { s with status := 0#32, result0 := 0#32, result1 := 0#32 })

/-- R37: a step that makes a successful write transaction to a tracked register, and no later successful one to it, leaves the
written value in its entry; and a step that makes no successful write transaction to it, other than reset, leaves the entry. A
write whose transfer returned Ok and whose release did not is no successful one (R90, R105). -/
def Obligations.CacheHoldsLastWrite : Prop :=
  (∀ (s t : State) (a : Addr) (v : Word) (before after : List Event), step s = .next t → a ∈ s.cfg.trackedSet →
    t.trace = s.trace ++ (before ++ writeTxn (writeFrame a v) ++ after) →
    (∀ f, writeTxn f <:+: after → frameAddr f ≠ a) → findCell t.shadow a = some ⟨a, true, v⟩) ∧
  (∀ (s t : State) (a : Addr) (v : Word) (evs : List Event), step s = .next t → t.busy ≠ .starting →
    t.trace = s.trace ++ evs → (∀ f, writeTxn f <:+: evs → frameAddr f ≠ a) →
    findCell s.shadow a = some ⟨a, true, v⟩ → findCell t.shadow a = some ⟨a, true, v⟩)

/-- R105: a step other than reset changes the shadow by its successful write transactions to tracked registers and by nothing
else: a failed write, a read, and everything else leave it. -/
def Obligations.OnlySuccessfulWritesReachShadow : Prop :=
  ∀ s t : State, step s = .next t → t.busy ≠ .starting →
    ∃ evs, t.trace = s.trace ++ evs ∧ t.shadow = shadowAfter s.cfg evs s.shadow

/-- R34: a step other than reset changes `LINE` by its `PinSet` events and by nothing else. -/
def Obligations.OnlyPinSetsChangeLines : Prop :=
  ∀ s t : State, step s = .next t → t.busy ≠ .starting →
    ∃ evs, t.trace = s.trace ++ evs ∧ t.lines = linesAfter evs s.lines

/-- R27: `RESULT1` is CACHE_GET's alone, 1 for a valid entry and 0 otherwise; 0 at reset. -/
def Obligations.Result1IsCacheGets : Prop :=
  State.reset.result1 = 0#32 ∧
  (∀ (i : Instr) (s t : State), exec i s = .next t → (∀ a, i ≠ .cacheGet a) → t.result1 = s.result1) ∧
  (∀ (s : State) (a : Addr), s.Accepts → ∃ t, exec (.cacheGet a) s = .next t ∧
    ((a ∈ s.cfg.trackedSet ∧ ∃ d, findCell s.shadow a = some ⟨a, true, d⟩) → t.result1 = 1#32) ∧
    (¬ (a ∈ s.cfg.trackedSet ∧ ∃ d, findCell s.shadow a = some ⟨a, true, d⟩) → t.result1 = 0#32))

/-! ### Motor control (44_motor_control.md) -/

/-- R108. -/
def Obligations.SetCurrentOutcomes : Prop :=
  EncodedAs 0xFFFFFFFF#32 0x22000000#32 (fun c => .setCurrent c.A c.B c.C) ∧
  ∀ (s : State) (run hold delay : Word), s.Accepts →
    ((run.toNat > 31 ∨ hold.toNat > 31 ∨ delay.toNat > 7) →
      exec (.setCurrent run hold delay) s = .next { s with status := 0x3#32 }) ∧
    (run.toNat ≤ 31 → hold.toNat ≤ 31 → delay.toNat ≤ 7 →
      ∃ v : Word, v.toNat = delay.toNat * 2 ^ 16 + run.toNat * 2 ^ 8 + hold.toNat ∧
        (s.gives (writeTxn (writeFrame 0x10#7 v)) = true → exec (.setCurrent run hold delay) s =
          .next { s.afterEvents (writeTxn (writeFrame 0x10#7 v)) with
            status := 0#32, result0 := v,
            shadow := if 0x10#7 ∈ s.cfg.trackedSet then putCell s.shadow 0x10#7 v else s.shadow }) ∧
        StopsInWrite (.setCurrent run hold delay) s [] (writeFrame 0x10#7 v))

/-- R109: the current value is read from hardware whatever the tracked set is. -/
def Obligations.SetMicrostepsOutcomes : Prop :=
  EncodedAs 0xFFFFFFFF#32 0x23000000#32 (fun c => .setMicrosteps c.A) ∧
  ∀ (s : State) (code : Word), s.Accepts → s.cfg.Valid →
    (code.toNat > 8 → exec (.setMicrosteps code) s = .next { s with status := 0x3#32 }) ∧
    (code.toNat ≤ 8 →
      StopsInRead (.setMicrosteps code) s [] (readFrame s.cfg.placeholder 0x6C#7) ∧
      ∀ rx, ∃ new, FieldInserted (rxValue rx) s.cfg.mresField.off s.cfg.mresField.wid code new ∧
        (s.gives (readTxn (readFrame s.cfg.placeholder 0x6C#7) rx ++ writeTxn (writeFrame 0x6C#7 new)) = true →
          exec (.setMicrosteps code) s =
            .next { s.afterEvents (readTxn (readFrame s.cfg.placeholder 0x6C#7) rx ++ writeTxn (writeFrame 0x6C#7 new)) with
              status := 0#32, result0 := new }) ∧
        StopsInWrite (.setMicrosteps code) s (readTxn (readFrame s.cfg.placeholder 0x6C#7) rx) (writeFrame 0x6C#7 new))

/-- R111 and R121: INIT's five transactions in order, with every read a fresh answer, and its end in each of them; `RESULT0` and
`RESULT1` are never written. -/
def Obligations.InitOutcomes : Prop :=
  EncodedAs 0xFFFFFFFF#32 0x20000000#32 (fun _ => .init) ∧
  ∀ (s : State) (rx1 rx2 : Frame), s.Accepts → s.cfg.Valid →
    ∃ v1 v2 : Word,
      FieldInserted (rxValue rx1) s.cfg.mresField.off s.cfg.mresField.wid 0#32 v1 ∧
      FieldInserted (rxValue rx2) s.cfg.toffField.off s.cfg.toffField.wid 5#32 v2 ∧
      let rd := readFrame s.cfg.placeholder 0x6C#7
      let t1 := writeTxn (writeFrame 0x10#7 0x00041008#32)
      let t2 := t1 ++ readTxn rd rx1
      let t3 := t2 ++ writeTxn (writeFrame 0x6C#7 v1)
      let t4 := t3 ++ readTxn rd rx2
      let t5 := t4 ++ writeTxn (writeFrame 0x6C#7 v2)
      (s.gives t5 = true → exec .init s = .next { s.afterEvents t5 with status := 0#32 }) ∧
      StopsInWrite .init s [] (writeFrame 0x10#7 0x00041008#32) ∧
      StopsInRead .init s t1 rd ∧
      StopsInWrite .init s t2 (writeFrame 0x6C#7 v1) ∧
      StopsInRead .init s t3 rd ∧
      StopsInWrite .init s t4 (writeFrame 0x6C#7 v2)

/-- R112 and R121: RESET_CFG's three transactions, and its end in each of them. -/
def Obligations.ResetCfgOutcomes : Prop :=
  EncodedAs 0xFFFFFFFF#32 0x21000000#32 (fun _ => .resetCfg) ∧
  ∀ (s : State) (rx : Frame), s.Accepts → s.cfg.Valid →
    ∃ v : Word, FieldInserted (rxValue rx) s.cfg.toffField.off s.cfg.toffField.wid 5#32 v ∧
      let rd := readFrame s.cfg.placeholder 0x6C#7
      let t1 := writeTxn (writeFrame 0x10#7 0x00041008#32)
      let t2 := t1 ++ readTxn rd rx
      let t3 := t2 ++ writeTxn (writeFrame 0x6C#7 v)
      (s.gives t3 = true → exec .resetCfg s = .next { s.afterEvents t3 with status := 0#32 }) ∧
      StopsInWrite .resetCfg s [] (writeFrame 0x10#7 0x00041008#32) ∧
      StopsInRead .resetCfg s t1 rd ∧
      StopsInWrite .resetCfg s t2 (writeFrame 0x6C#7 v)

/-- R113 to R115: the two status reads and every bit of the decoded word. -/
def Obligations.GetDriverStatusOutcomes : Prop :=
  EncodedAs 0xFFFFFFFF#32 0x24000000#32 (fun _ => .getDriverStatus) ∧
  ∀ (s : State) (rx1 rx2 : Frame), s.Accepts →
    ∃ r : Word,
      (r.getLsbD 0 = (rxValue rx1).getLsbD 0 ∧ r.getLsbD 1 = (rxValue rx1).getLsbD 1 ∧
        r.getLsbD 2 = (rxValue rx1).getLsbD 2 ∧ r.getLsbD 3 = (rxValue rx2).getLsbD 14 ∧
        r.getLsbD 4 = (rxValue rx2).getLsbD 15 ∧ r.getLsbD 5 = false ∧ r.getLsbD 6 = false ∧ r.getLsbD 7 = false ∧
        r.extractLsb' 8 8 = (rxValue rx2).extractLsb' 16 8 ∧ r.extractLsb' 16 16 = 0#16) ∧
      let t1 := readTxn (readFrame s.cfg.placeholder 0x01#7) rx1
      let t2 := t1 ++ readTxn (readFrame s.cfg.placeholder 0x6F#7) rx2
      (s.gives t2 = true → exec .getDriverStatus s =
        .next { s.afterEvents t2 with status := 0#32, result0 := r, shadow := s.shadow }) ∧
      StopsInRead .getDriverStatus s [] (readFrame s.cfg.placeholder 0x01#7) ∧
      StopsInRead .getDriverStatus s t1 (readFrame s.cfg.placeholder 0x6F#7)

/-- R116, R117: the enable line, active low. -/
def Obligations.EnableDisableOutcomes : Prop :=
  EncodedAs 0xFFFFFFFF#32 0x30000000#32 (fun _ => .enableDriver) ∧
  EncodedAs 0xFFFFFFFF#32 0x31000000#32 (fun _ => .disableDriver) ∧
  ∀ s : State, s.Accepts →
    (s.gives [.pinSet .enN false .ok] = true → exec .enableDriver s =
      .next { s.afterEvents [.pinSet .enN false .ok] with status := 0#32, lines := { s.lines with enN := .low } }) ∧
    (s.gives [.pinSet .enN false .fail] = true → exec .enableDriver s =
      .next { s.afterEvents [.pinSet .enN false .fail] with status := 0x2#32, lines := { s.lines with enN := .unknown } }) ∧
    (s.gives [.pinSet .enN true .ok] = true → exec .disableDriver s =
      .next { s.afterEvents [.pinSet .enN true .ok] with status := 0#32, lines := { s.lines with enN := .high } }) ∧
    (s.gives [.pinSet .enN true .fail] = true → exec .disableDriver s =
      .next { s.afterEvents [.pinSet .enN true .fail] with status := 0x2#32, lines := { s.lines with enN := .unknown } })

/-- R118: CW is line low, CCW line high, anything else is rejected. -/
def Obligations.SetDirectionOutcomes : Prop :=
  EncodedAs 0xFFFFFFFF#32 0x32000000#32 (fun c => .setDirection c.A) ∧
  ∀ (s : State) (d : Word), s.Accepts →
    (d.toNat > 1 → exec (.setDirection d) s = .next { s with status := 0x3#32 }) ∧
    (d.toNat ≤ 1 →
      (s.gives [.pinSet .dir (d.getLsbD 0) .ok] = true → exec (.setDirection d) s =
        .next { s.afterEvents [.pinSet .dir (d.getLsbD 0) .ok] with
          status := 0#32, lines := { s.lines with dir := if d.getLsbD 0 then .high else .low } }) ∧
      (s.gives [.pinSet .dir (d.getLsbD 0) .fail] = true → exec (.setDirection d) s =
        .next { s.afterEvents [.pinSet .dir (d.getLsbD 0) .fail] with
          status := 0x2#32, lines := { s.lines with dir := .unknown } }))

/-- R119: one pulse, "exactly the sequence" high, delay of 1000 ns, low; and its two failures. -/
def Obligations.StepPulseOutcomes : Prop :=
  EncodedAs 0xFFFFFFFF#32 0x33000000#32 (fun _ => .step) ∧
  ∀ s : State, s.Accepts →
    (s.gives [.pinSet .step true .ok, .delay 1000 .ok, .pinSet .step false .ok] = true → exec .step s =
      .next { s.afterEvents [.pinSet .step true .ok, .delay 1000 .ok, .pinSet .step false .ok] with
        status := 0#32, lines := { s.lines with step := .low } }) ∧
    (s.gives [.pinSet .step true .fail] = true → exec .step s =
      .next { s.afterEvents [.pinSet .step true .fail] with
        status := 0x2#32, lines := { s.lines with step := .unknown } }) ∧
    (s.gives [.pinSet .step true .ok, .delay 1000 .ok, .pinSet .step false .fail] = true → exec .step s =
      .next { s.afterEvents [.pinSet .step true .ok, .delay 1000 .ok, .pinSet .step false .fail] with
        status := 0x2#32, lines := { s.lines with step := .unknown } })

/-! ### Errors (60_exceptions.md) -/

/-- R31: while `READY = 0` whatever the host presents, a legal command or not, ends with NOT_INITIALIZED and changes nothing else. -/
def Obligations.NotReadyRejectsEverything : Prop :=
  ∀ (s : State) (c : Command) (rest : List HostInput), s.busy = .idle → s.ready = false →
    s.inputs = .present (.command c) :: rest → step s = .next { s with inputs := rest, status := 0x4#32 }

/-- R149: what is presented while `BUSY = 1` has no effect. -/
def Obligations.BusyAcceptsNothing : Prop :=
  (∀ (s : State) (i : Instr), s.busyBit = true → exec i s = .next s) ∧
  (∀ (s : State) (p : Packet) (rest : List HostInput), s.busy = .running → s.inputs = .present p :: rest →
    step s = .next { s with inputs := rest })

/-- R124: whatever error a presented command ends with, and a hang too, leaves both result registers as they were. -/
def Obligations.ResultsKeptOnError : Prop :=
  ∀ (s t : State) (c : Command) (rest : List HostInput), s.inputs = .present (.command c) :: rest → step s = .next t →
    t.statusCode ≠ 0#3 ∨ t.busyBit = true → t.result0 = s.result0 ∧ t.result1 = s.result1

/-- R122: the codes a command can end with. -/
def Obligations.CommandsEndWithTheirCodes : Prop :=
  ∀ (i : Instr) (s t : State), isCommand i = true → s.Accepts → exec i s = .next t → t.busyBit = false →
    t.statusCode ∈ mayEndWith i

/-- R125: an error of the checks before the primitives (INVALID_ARGUMENT, NOT_INITIALIZED) changes `STATUS` and nothing else. -/
def Obligations.RejectionIssuesNothing : Prop :=
  ∀ (i : Instr) (s t : State), isCommand i = true → s.busyBit = false → exec i s = .next t → t.busyBit = false →
    t.statusCode = 3#3 ∨ t.statusCode = 4#3 → t = { s with status := t.status }

/-- R127: errors are precise. A command that ends with BUS_ERROR or PIN_ERROR has a failing event, and after the first one only a
chip-select release was issued. -/
def Obligations.ErrorsArePrecise : Prop :=
  ∀ (i : Instr) (s t : State), isCommand i = true → s.Accepts → exec i s = .next t → t.busyBit = false →
    t.statusCode = 1#3 ∨ t.statusCode = 2#3 →
    ∃ before after e, t.trace = s.trace ++ before ++ e :: after ∧
      (∀ x ∈ before, x.succeeded = true) ∧ e.succeeded = false ∧
      (after = [] ∨ ∃ f o, after = [.pinSet .csN true o] ∧ (e = .busXfer f .fail ∨ e = .busWrite f .fail))

/-- R100: the primitives of a command that ends with OK. -/
def Obligations.PrimitiveCountsOnSuccess : Prop :=
  ∀ (i : Instr) (s t : State), isCommand i = true → s.Accepts → exec i s = .next t → t.busyBit = false →
    t.statusCode = 0#3 → ∃ evs, t.trace = s.trace ++ evs ∧ countsOf evs = primitiveCounts s.cfg i

/-- R18, R150: an instruction that leaves the RBIC busy has an event that never returned, after which nothing was issued, and
writes neither `STATUS` nor a result. -/
def Obligations.HangWritesNothing : Prop :=
  ∀ (i : Instr) (s t : State), s.Accepts → exec i s = .next t → t.busyBit = true →
    t.status = s.status ∧ t.result0 = s.result0 ∧ t.result1 = s.result1 ∧
    ∃ evs e, t.trace = s.trace ++ evs ++ [e] ∧ (∀ x ∈ evs, x.returned = true) ∧ e.returned = false

/-! ### Frames and whole-machine rules -/

/-- What an instruction does to the machine is what its events do to it, each answered by the environment, and beyond that at
most `STATUS`, the results and `BUSY` (R23, R34, R58, R104). For an instruction that hangs this rests on the model's choice that
the primitive that never returned is an event of `TRACE` whose answer is used up (log 6, DEDUCED). -/
def Obligations.EffectsAreThoseOfEvents : Prop :=
  ∀ (i : Instr) (s t : State), exec i s = .next t →
    ∃ evs, s.gives evs = true ∧
      t = { s.afterEvents evs with status := t.status, result0 := t.result0, result1 := t.result1, busy := t.busy }

/-- The frame of every instruction: what it leaves alone (R26, R27, R31, R36, R89, R104, R116 to R119). -/
def Obligations.InstructionFrame : Prop :=
  ∀ (i : Instr) (s t : State), exec i s = .next t →
    t.cfg = s.cfg ∧ t.ready = s.ready ∧ t.inputs = s.inputs ∧
    (writesResult0 i = false → t.result0 = s.result0) ∧ (writesResult1 i = false → t.result1 = s.result1) ∧
    (∀ l, l ∉ mayDrive i → t.lines.get l = s.lines.get l) ∧
    (∀ a, a ∉ mayWrite i → findCell t.shadow a = findCell s.shadow a) ∧
    (mayDrive i = [] → t.trace = s.trace ∧ t.env = s.env ∧ t.drawCount = s.drawCount ∧ t.shadow = s.shadow)

/-- No instruction stops the machine, in any state: an error is a code in `STATUS` and the machine goes on (R127, R128). -/
def Obligations.NoInstructionStops : Prop :=
  ∀ (i : Instr) (s : State), ∃ t, exec i s = .next t ∧ (t.busy = .starting → t = s)

/-- Every instruction completes when the next fifteen primitives return Ok (INIT, the longest, issues fifteen, R100): the RBIC
accepts the next command, and a command's error can only be one of its own checks (R122, R125). -/
def Obligations.CompletesWhenPrimitivesSucceed : Prop :=
  ∀ (i : Instr) (s : State), s.Accepts → (∀ k, k < 15 → (s.upcoming k).out = .ok) →
    ∃ t, exec i s = .next t ∧ t.Accepts ∧
      (isCommand i = true → t.statusCode = 0#3 ∨ t.statusCode = 3#3 ∨ t.statusCode = 4#3) ∧
      (isCommand i = false → t.status = s.status)

/-- R30: no command's behaviour depends on a previous command's outcome; and `TRACE` is not state the RBIC reads (R23). -/
def Obligations.StatusAndTraceNeverRead : Prop :=
  ∀ (i : Instr) (s t : State) (w : Word) (tr evs : List Event), isCommand i = true → exec i s = .next t →
    s.Accepts → t.busyBit = false → t.trace = s.trace ++ evs →
    exec i { s with status := w, trace := tr } = .next { t with trace := tr ++ evs }

/-- The step runs the instruction the presented words decode to; around it the step takes the words off the host's list (log 4), and an instruction that is not well formed (log 9) is run no differently. -/
def Obligations.StepRunsDecodedInstruction : Prop :=
  ∀ (s : State) (p : Packet) (rest : List HostInput) (i : Instr), s.busy ≠ .starting → s.inputs = .present p :: rest →
    decode p = .ok i → step s = exec i { s with inputs := rest }

/-- An instruction placed by its table word is what the next step runs (log 11, log 15). -/
def Obligations.PlacedInstructionRuns : Prop :=
  ∀ (s : State) (nbits w : Nat) (i : Instr), decodeTableWord nbits w = some i →
    s.accepting.Accepts ∧ step (s.withFetchWord nbits w) = exec i s.accepting

/-- A step never changes the configuration, and `TRACE` only grows unless reset is asserted (R17, R58, R139). -/
def Obligations.TraceOnlyGrows : Prop :=
  ∀ s t : State, step s = .next t →
    t.cfg = s.cfg ∧ ((∃ evs, t.trace = s.trace ++ evs) ∨ (t.busy = .starting ∧ t.trace = []))

/-! ### Reset (70_reset_and_hazards.md) -/

/-- R47, the column "at reset assertion", with the default configuration of R10. -/
def Obligations.ResetValues : Prop :=
  State.reset.status = 0#32 ∧ State.reset.result0 = 0#32 ∧ State.reset.result1 = 0#32 ∧ State.reset.ready = false ∧
  State.reset.busyBit = true ∧ (∀ l, State.reset.lines.get l = .unknown) ∧
  State.reset.shadow = [⟨0x10, false, 0⟩, ⟨0x13, false, 0⟩, ⟨0x6D, false, 0⟩, ⟨0x70, false, 0⟩] ∧ State.reset.trace = []

/-- R140, R141: the power-on sequence, in any order of the four lines: with every `PinSet` Ok; and fail-fast, the lines before the
failing one set, that one U, the later ones not attempted. -/
def Obligations.PowerOnSequence : Prop :=
  ∀ s : State, s.busy = .starting → s.cfg.Valid →
    let ok := fun l : Line => Event.pinSet l (l == .csN || l == .enN) .ok
    (s.gives (s.cfg.resetPinOrder.map ok) = true → step s =
      .next { s.afterEvents (s.cfg.resetPinOrder.map ok) with
        status := 0#32, ready := true, busy := .idle, lines := ⟨.high, .high, .low, .low⟩, shadow := s.shadow }) ∧
    (∀ (before after : List Line) (l : Line), s.cfg.resetPinOrder = before ++ l :: after →
      let evs := before.map ok ++ [.pinSet l (l == .csN || l == .enN) .fail]
      s.gives evs = true →
        step s = .next { s.afterEvents evs with status := 0x2#32, ready := false, busy := .idle, shadow := s.shadow } ∧
        (∀ k ∈ before, (s.afterEvents evs).lines.get k = if k = .csN ∨ k = .enN then .high else .low) ∧
        (s.afterEvents evs).lines.get l = .unknown ∧
        (∀ k ∈ after, (s.afterEvents evs).lines.get k = s.lines.get k))

/-- R47, its three columns: what reset assertion leaves, and what the power-on sequence leaves when it ends. -/
def Obligations.ResetTable : Prop :=
  (∀ (s : State) (rest : List HostInput), s.busy ≠ .starting → s.inputs = .assertReset :: rest →
    ∃ t, step s = .next t ∧ t.status = 0#32 ∧ t.result0 = 0#32 ∧ t.result1 = 0#32 ∧ t.ready = false ∧ t.busyBit = true ∧
      (∀ l, t.lines.get l = .unknown) ∧ t.shadow.map ShadowCell.addr = t.cfg.trackedSet ∧
      (∀ c ∈ t.shadow, c.v = false ∧ c.d = 0#32) ∧ t.trace = []) ∧
  (∀ s t : State, s.Sound → s.busy = .starting → step s = .next t → t.busyBit = false →
    t.result0 = 0#32 ∧ t.result1 = 0#32 ∧ (∀ c ∈ t.shadow, c.v = false ∧ c.d = 0#32) ∧
    let ok := fun l : Line => Event.pinSet l (l == .csN || l == .enN) .ok
    ((t.ready = true ∧ t.status = 0#32 ∧ t.lines = ⟨.high, .high, .low, .low⟩ ∧ t.trace = s.cfg.resetPinOrder.map ok) ∨
      ∃ (before after : List Line) (l : Line), s.cfg.resetPinOrder = before ++ l :: after ∧
        t.ready = false ∧ t.status = 0x2#32 ∧
        (∀ k ∈ before, t.lines.get k = if k = .csN ∨ k = .enN then .high else .low) ∧
        t.lines.get l = .unknown ∧ (∀ k ∈ after, t.lines.get k = .unknown) ∧
        t.trace = before.map ok ++ [.pinSet l (l == .csN || l == .enN) .fail]))

/-- R139, R150: reset ends whatever is in progress, a hang too, and gives the column "at reset assertion" of R47. -/
def Obligations.ResetAbandonsCommand : Prop :=
  ∀ (s : State) (rest : List HostInput), s.busy ≠ .starting → s.inputs = .assertReset :: rest →
    step s = .next { s with
      inputs := rest, status := 0#32, result0 := 0#32, result1 := 0#32, ready := false, busy := .starting,
      lines := ⟨.unknown, .unknown, .unknown, .unknown⟩, shadow := s.cfg.trackedSet.map (fun a => ⟨a, false, 0#32⟩),
      trace := [] }

/-- R18, R150: from a state held in a primitive that never returns, a step leads out only by reset, and with nothing more from the
host there is no step. The fault's name is the model's (log 6). -/
def Obligations.OnlyResetEndsHang : Prop :=
  ∀ s : State, s.busy = .running →
    (∀ t, step s = .next t → t.busy = .starting ∨ t = { s with inputs := s.inputs.tail }) ∧
    (s.inputs = [] → step s = .fault .stuckInPrimitive)

/-- The invariants hold at reset. -/
def Obligations.InvariantsAtReset : Prop :=
  State.reset.Sound ∧ State.reset.LinesFollowTrace ∧ State.reset.ShadowFollowsTrace ∧ State.reset.TraceFramed

/-- Every step keeps the registers what the spec lets them be (R11, R27, R28, R29, R31, R36, R47). -/
def Obligations.StepKeepsSound : Prop :=
  ∀ s t : State, s.Sound → step s = .next t → t.Sound

/-- Every step keeps `LINE` what the `PinSet` events of `TRACE` make it (R33, R34). -/
def Obligations.StepKeepsLinesFollowTrace : Prop :=
  ∀ s t : State, s.LinesFollowTrace → step s = .next t → t.LinesFollowTrace

/-- R59: every step keeps `SHADOW` what the most recent successful write transactions of `TRACE` make it. -/
def Obligations.StepKeepsShadowFollowsTrace : Prop :=
  ∀ s t : State, s.ShadowFollowsTrace → step s = .next t → t.ShadowFollowsTrace

/-- R53, R58, R89: every step keeps `TRACE` framed. That `TRACE` ends in the primitive that never returned, exactly while the
RBIC is held in it, is the model's choice (log 6, DEDUCED: the spec does not say that a primitive with no outcome stands there). -/
def Obligations.StepKeepsTraceFramed : Prop :=
  ∀ s t : State, s.TraceFramed → step s = .next t → t.TraceFramed
end

