-- ==== Sys2Proof/Laws/State.lean ====
section
/-! SUPPORT. The small lemmas of State: one per field per update, so that no later proof unfolds a record update. -/

namespace Sys2Proof.Machine

@[simp] theorem Lines.get_set (ls : Lines) (l k : Line) (v : Level) :
    (ls.set l v).get k = if k = l then v else ls.get k := by
  cases l <;> cases k <;> rfl

@[simp] theorem Lines.set_set (ls : Lines) (l : Line) (u v : Level) : (ls.set l u).set l v = ls.set l v := by
  cases l <;> rfl

@[simp] theorem Lines.set_get (ls : Lines) (l : Line) : ls.set l (ls.get l) = ls := by
  cases l <;> rfl

theorem Lines.ext_get (a b : Lines) (h : ∀ l, a.get l = b.get l) : a = b := by
  obtain ⟨a1, a2, a3, a4⟩ := a
  obtain ⟨b1, b2, b3, b4⟩ := b
  have h1 := h .csN
  have h2 := h .enN
  have h3 := h .dir
  have h4 := h .step
  simp only [Lines.get] at h1 h2 h3 h4
  subst h1 h2 h3 h4
  rfl

@[simp] theorem State.popDraw_cfg (s : State) : s.popDraw.cfg = s.cfg := by
  unfold State.popDraw; split <;> simp_all
@[simp] theorem State.popDraw_status (s : State) : s.popDraw.status = s.status := by
  unfold State.popDraw; split <;> simp_all
@[simp] theorem State.popDraw_result0 (s : State) : s.popDraw.result0 = s.result0 := by
  unfold State.popDraw; split <;> simp_all
@[simp] theorem State.popDraw_result1 (s : State) : s.popDraw.result1 = s.result1 := by
  unfold State.popDraw; split <;> simp_all
@[simp] theorem State.popDraw_ready (s : State) : s.popDraw.ready = s.ready := by
  unfold State.popDraw; split <;> simp_all
@[simp] theorem State.popDraw_busy (s : State) : s.popDraw.busy = s.busy := by
  unfold State.popDraw; split <;> simp_all
@[simp] theorem State.popDraw_lines (s : State) : s.popDraw.lines = s.lines := by
  unfold State.popDraw; split <;> simp_all
@[simp] theorem State.popDraw_shadow (s : State) : s.popDraw.shadow = s.shadow := by
  unfold State.popDraw; split <;> simp_all
@[simp] theorem State.popDraw_trace (s : State) : s.popDraw.trace = s.trace := by
  unfold State.popDraw; split <;> simp_all
@[simp] theorem State.popDraw_env (s : State) : s.popDraw.env = s.env.tail := by
  unfold State.popDraw; split <;> simp_all
@[simp] theorem State.popDraw_inputs (s : State) : s.popDraw.inputs = s.inputs := by
  unfold State.popDraw; split <;> simp_all

@[simp] theorem State.record_cfg (s : State) (e : Event) : (s.record e).cfg = s.cfg := by
  simp [State.record]
@[simp] theorem State.record_status (s : State) (e : Event) : (s.record e).status = s.status := by
  simp [State.record]
@[simp] theorem State.record_result0 (s : State) (e : Event) : (s.record e).result0 = s.result0 := by
  simp [State.record]
@[simp] theorem State.record_result1 (s : State) (e : Event) : (s.record e).result1 = s.result1 := by
  simp [State.record]
@[simp] theorem State.record_ready (s : State) (e : Event) : (s.record e).ready = s.ready := by
  simp [State.record]
@[simp] theorem State.record_busy (s : State) (e : Event) : (s.record e).busy = s.busy := by
  simp [State.record]
@[simp] theorem State.record_lines (s : State) (e : Event) : (s.record e).lines = s.lines := by
  simp [State.record]
@[simp] theorem State.record_shadow (s : State) (e : Event) : (s.record e).shadow = s.shadow := by
  simp [State.record]
@[simp] theorem State.record_trace (s : State) (e : Event) : (s.record e).trace = s.trace ++ [e] := by
  simp [State.record]
@[simp] theorem State.record_env (s : State) (e : Event) : (s.record e).env = s.popDraw.env := by
  simp [State.record]
@[simp] theorem State.record_drawCount (s : State) (e : Event) : (s.record e).drawCount = s.popDraw.drawCount := by
  simp [State.record]
@[simp] theorem State.record_inputs (s : State) (e : Event) : (s.record e).inputs = s.inputs := by
  simp [State.record]

@[simp] theorem State.pinSet_cfg (s : State) (l : Line) (lvl : Bool) : (s.pinSet l lvl).cfg = s.cfg := by
  simp [State.pinSet]
@[simp] theorem State.pinSet_status (s : State) (l : Line) (lvl : Bool) : (s.pinSet l lvl).status = s.status := by
  simp [State.pinSet]
@[simp] theorem State.pinSet_result0 (s : State) (l : Line) (lvl : Bool) : (s.pinSet l lvl).result0 = s.result0 := by
  simp [State.pinSet]
@[simp] theorem State.pinSet_result1 (s : State) (l : Line) (lvl : Bool) : (s.pinSet l lvl).result1 = s.result1 := by
  simp [State.pinSet]
@[simp] theorem State.pinSet_ready (s : State) (l : Line) (lvl : Bool) : (s.pinSet l lvl).ready = s.ready := by
  simp [State.pinSet]
@[simp] theorem State.pinSet_busy (s : State) (l : Line) (lvl : Bool) : (s.pinSet l lvl).busy = s.busy := by
  simp [State.pinSet]
@[simp] theorem State.pinSet_lines (s : State) (l : Line) (lvl : Bool) : (s.pinSet l lvl).lines = s.lines.set l (levelAfter s.nextOut lvl (s.lines.get l)) := by
  simp [State.pinSet]
@[simp] theorem State.pinSet_shadow (s : State) (l : Line) (lvl : Bool) : (s.pinSet l lvl).shadow = s.shadow := by
  simp [State.pinSet]
@[simp] theorem State.pinSet_trace (s : State) (l : Line) (lvl : Bool) : (s.pinSet l lvl).trace = s.trace ++ [.pinSet l lvl s.nextOut] := by
  simp [State.pinSet]
@[simp] theorem State.pinSet_env (s : State) (l : Line) (lvl : Bool) : (s.pinSet l lvl).env = s.popDraw.env := by
  simp [State.pinSet]
@[simp] theorem State.pinSet_drawCount (s : State) (l : Line) (lvl : Bool) : (s.pinSet l lvl).drawCount = s.popDraw.drawCount := by
  simp [State.pinSet]
@[simp] theorem State.pinSet_inputs (s : State) (l : Line) (lvl : Bool) : (s.pinSet l lvl).inputs = s.inputs := by
  simp [State.pinSet]

@[simp] theorem State.busXfer_cfg (s : State) (f : Frame) : (s.busXfer f).cfg = s.cfg := by
  simp [State.busXfer]
@[simp] theorem State.busXfer_status (s : State) (f : Frame) : (s.busXfer f).status = s.status := by
  simp [State.busXfer]
@[simp] theorem State.busXfer_result0 (s : State) (f : Frame) : (s.busXfer f).result0 = s.result0 := by
  simp [State.busXfer]
@[simp] theorem State.busXfer_result1 (s : State) (f : Frame) : (s.busXfer f).result1 = s.result1 := by
  simp [State.busXfer]
@[simp] theorem State.busXfer_ready (s : State) (f : Frame) : (s.busXfer f).ready = s.ready := by
  simp [State.busXfer]
@[simp] theorem State.busXfer_busy (s : State) (f : Frame) : (s.busXfer f).busy = s.busy := by
  simp [State.busXfer]
@[simp] theorem State.busXfer_lines (s : State) (f : Frame) : (s.busXfer f).lines = s.lines := by
  simp [State.busXfer]
@[simp] theorem State.busXfer_shadow (s : State) (f : Frame) : (s.busXfer f).shadow = s.shadow := by
  simp [State.busXfer]
@[simp] theorem State.busXfer_trace (s : State) (f : Frame) : (s.busXfer f).trace = s.trace ++ [.busXfer f (xferOutcome (s.upcoming 0))] := by
  simp [State.busXfer]
@[simp] theorem State.busXfer_env (s : State) (f : Frame) : (s.busXfer f).env = s.popDraw.env := by
  simp [State.busXfer]
@[simp] theorem State.busXfer_drawCount (s : State) (f : Frame) : (s.busXfer f).drawCount = s.popDraw.drawCount := by
  simp [State.busXfer]
@[simp] theorem State.busXfer_inputs (s : State) (f : Frame) : (s.busXfer f).inputs = s.inputs := by
  simp [State.busXfer]

@[simp] theorem State.busWrite_cfg (s : State) (f : Frame) : (s.busWrite f).cfg = s.cfg := by
  simp [State.busWrite]
@[simp] theorem State.busWrite_status (s : State) (f : Frame) : (s.busWrite f).status = s.status := by
  simp [State.busWrite]
@[simp] theorem State.busWrite_result0 (s : State) (f : Frame) : (s.busWrite f).result0 = s.result0 := by
  simp [State.busWrite]
@[simp] theorem State.busWrite_result1 (s : State) (f : Frame) : (s.busWrite f).result1 = s.result1 := by
  simp [State.busWrite]
@[simp] theorem State.busWrite_ready (s : State) (f : Frame) : (s.busWrite f).ready = s.ready := by
  simp [State.busWrite]
@[simp] theorem State.busWrite_busy (s : State) (f : Frame) : (s.busWrite f).busy = s.busy := by
  simp [State.busWrite]
@[simp] theorem State.busWrite_lines (s : State) (f : Frame) : (s.busWrite f).lines = s.lines := by
  simp [State.busWrite]
@[simp] theorem State.busWrite_shadow (s : State) (f : Frame) : (s.busWrite f).shadow = s.shadow := by
  simp [State.busWrite]
@[simp] theorem State.busWrite_trace (s : State) (f : Frame) : (s.busWrite f).trace = s.trace ++ [.busWrite f s.nextOut] := by
  simp [State.busWrite]
@[simp] theorem State.busWrite_env (s : State) (f : Frame) : (s.busWrite f).env = s.popDraw.env := by
  simp [State.busWrite]
@[simp] theorem State.busWrite_drawCount (s : State) (f : Frame) : (s.busWrite f).drawCount = s.popDraw.drawCount := by
  simp [State.busWrite]
@[simp] theorem State.busWrite_inputs (s : State) (f : Frame) : (s.busWrite f).inputs = s.inputs := by
  simp [State.busWrite]

@[simp] theorem State.delay_cfg (s : State) (n : Nat) : (s.delay n).cfg = s.cfg := by
  simp [State.delay]
@[simp] theorem State.delay_status (s : State) (n : Nat) : (s.delay n).status = s.status := by
  simp [State.delay]
@[simp] theorem State.delay_result0 (s : State) (n : Nat) : (s.delay n).result0 = s.result0 := by
  simp [State.delay]
@[simp] theorem State.delay_result1 (s : State) (n : Nat) : (s.delay n).result1 = s.result1 := by
  simp [State.delay]
@[simp] theorem State.delay_ready (s : State) (n : Nat) : (s.delay n).ready = s.ready := by
  simp [State.delay]
@[simp] theorem State.delay_busy (s : State) (n : Nat) : (s.delay n).busy = s.busy := by
  simp [State.delay]
@[simp] theorem State.delay_lines (s : State) (n : Nat) : (s.delay n).lines = s.lines := by
  simp [State.delay]
@[simp] theorem State.delay_shadow (s : State) (n : Nat) : (s.delay n).shadow = s.shadow := by
  simp [State.delay]
@[simp] theorem State.delay_trace (s : State) (n : Nat) : (s.delay n).trace = s.trace ++ [.delay n (delayOutcome s.nextOut)] := by
  simp [State.delay]
@[simp] theorem State.delay_env (s : State) (n : Nat) : (s.delay n).env = s.popDraw.env := by
  simp [State.delay]
@[simp] theorem State.delay_drawCount (s : State) (n : Nat) : (s.delay n).drawCount = s.popDraw.drawCount := by
  simp [State.delay]
@[simp] theorem State.delay_inputs (s : State) (n : Nat) : (s.delay n).inputs = s.inputs := by
  simp [State.delay]

@[simp] theorem State.setResult0_cfg (s : State) (v : Word) : (s.setResult0 v).cfg = s.cfg := rfl
@[simp] theorem State.setResult0_status (s : State) (v : Word) : (s.setResult0 v).status = s.status := rfl
@[simp] theorem State.setResult0_result0 (s : State) (v : Word) : (s.setResult0 v).result0 = v := rfl
@[simp] theorem State.setResult0_result1 (s : State) (v : Word) : (s.setResult0 v).result1 = s.result1 := rfl
@[simp] theorem State.setResult0_ready (s : State) (v : Word) : (s.setResult0 v).ready = s.ready := rfl
@[simp] theorem State.setResult0_busy (s : State) (v : Word) : (s.setResult0 v).busy = s.busy := rfl
@[simp] theorem State.setResult0_lines (s : State) (v : Word) : (s.setResult0 v).lines = s.lines := rfl
@[simp] theorem State.setResult0_shadow (s : State) (v : Word) : (s.setResult0 v).shadow = s.shadow := rfl
@[simp] theorem State.setResult0_trace (s : State) (v : Word) : (s.setResult0 v).trace = s.trace := rfl
@[simp] theorem State.setResult0_env (s : State) (v : Word) : (s.setResult0 v).env = s.env := rfl
@[simp] theorem State.setResult0_drawCount (s : State) (v : Word) : (s.setResult0 v).drawCount = s.drawCount := rfl
@[simp] theorem State.setResult0_inputs (s : State) (v : Word) : (s.setResult0 v).inputs = s.inputs := rfl

@[simp] theorem State.setResult1_cfg (s : State) (v : Word) : (s.setResult1 v).cfg = s.cfg := rfl
@[simp] theorem State.setResult1_status (s : State) (v : Word) : (s.setResult1 v).status = s.status := rfl
@[simp] theorem State.setResult1_result0 (s : State) (v : Word) : (s.setResult1 v).result0 = s.result0 := rfl
@[simp] theorem State.setResult1_result1 (s : State) (v : Word) : (s.setResult1 v).result1 = v := rfl
@[simp] theorem State.setResult1_ready (s : State) (v : Word) : (s.setResult1 v).ready = s.ready := rfl
@[simp] theorem State.setResult1_busy (s : State) (v : Word) : (s.setResult1 v).busy = s.busy := rfl
@[simp] theorem State.setResult1_lines (s : State) (v : Word) : (s.setResult1 v).lines = s.lines := rfl
@[simp] theorem State.setResult1_shadow (s : State) (v : Word) : (s.setResult1 v).shadow = s.shadow := rfl
@[simp] theorem State.setResult1_trace (s : State) (v : Word) : (s.setResult1 v).trace = s.trace := rfl
@[simp] theorem State.setResult1_env (s : State) (v : Word) : (s.setResult1 v).env = s.env := rfl
@[simp] theorem State.setResult1_drawCount (s : State) (v : Word) : (s.setResult1 v).drawCount = s.drawCount := rfl
@[simp] theorem State.setResult1_inputs (s : State) (v : Word) : (s.setResult1 v).inputs = s.inputs := rfl

@[simp] theorem State.raise_cfg (s : State) (e : ErrCode) (csf : Bool) : (s.raise e csf).cfg = s.cfg := rfl
@[simp] theorem State.raise_status (s : State) (e : ErrCode) (csf : Bool) : (s.raise e csf).status = statusWord e csf := rfl
@[simp] theorem State.raise_result0 (s : State) (e : ErrCode) (csf : Bool) : (s.raise e csf).result0 = s.result0 := rfl
@[simp] theorem State.raise_result1 (s : State) (e : ErrCode) (csf : Bool) : (s.raise e csf).result1 = s.result1 := rfl
@[simp] theorem State.raise_ready (s : State) (e : ErrCode) (csf : Bool) : (s.raise e csf).ready = s.ready := rfl
@[simp] theorem State.raise_busy (s : State) (e : ErrCode) (csf : Bool) : (s.raise e csf).busy = .idle := rfl
@[simp] theorem State.raise_lines (s : State) (e : ErrCode) (csf : Bool) : (s.raise e csf).lines = s.lines := rfl
@[simp] theorem State.raise_shadow (s : State) (e : ErrCode) (csf : Bool) : (s.raise e csf).shadow = s.shadow := rfl
@[simp] theorem State.raise_trace (s : State) (e : ErrCode) (csf : Bool) : (s.raise e csf).trace = s.trace := rfl
@[simp] theorem State.raise_env (s : State) (e : ErrCode) (csf : Bool) : (s.raise e csf).env = s.env := rfl
@[simp] theorem State.raise_drawCount (s : State) (e : ErrCode) (csf : Bool) : (s.raise e csf).drawCount = s.drawCount := rfl
@[simp] theorem State.raise_inputs (s : State) (e : ErrCode) (csf : Bool) : (s.raise e csf).inputs = s.inputs := rfl

@[simp] theorem State.complete_cfg (s : State) : s.complete.cfg = s.cfg := rfl
@[simp] theorem State.complete_status (s : State) : s.complete.status = statusOk := rfl
@[simp] theorem State.complete_result0 (s : State) : s.complete.result0 = s.result0 := rfl
@[simp] theorem State.complete_result1 (s : State) : s.complete.result1 = s.result1 := rfl
@[simp] theorem State.complete_ready (s : State) : s.complete.ready = s.ready := rfl
@[simp] theorem State.complete_busy (s : State) : s.complete.busy = .idle := rfl
@[simp] theorem State.complete_lines (s : State) : s.complete.lines = s.lines := rfl
@[simp] theorem State.complete_shadow (s : State) : s.complete.shadow = s.shadow := rfl
@[simp] theorem State.complete_trace (s : State) : s.complete.trace = s.trace := rfl
@[simp] theorem State.complete_env (s : State) : s.complete.env = s.env := rfl
@[simp] theorem State.complete_drawCount (s : State) : s.complete.drawCount = s.drawCount := rfl
@[simp] theorem State.complete_inputs (s : State) : s.complete.inputs = s.inputs := rfl

@[simp] theorem State.cachePut_cfg (s : State) (a : Addr) (v : Word) : (s.cachePut a v).cfg = s.cfg := by
  unfold State.cachePut; split <;> simp_all
@[simp] theorem State.cachePut_status (s : State) (a : Addr) (v : Word) : (s.cachePut a v).status = s.status := by
  unfold State.cachePut; split <;> simp_all
@[simp] theorem State.cachePut_result0 (s : State) (a : Addr) (v : Word) : (s.cachePut a v).result0 = s.result0 := by
  unfold State.cachePut; split <;> simp_all
@[simp] theorem State.cachePut_result1 (s : State) (a : Addr) (v : Word) : (s.cachePut a v).result1 = s.result1 := by
  unfold State.cachePut; split <;> simp_all
@[simp] theorem State.cachePut_ready (s : State) (a : Addr) (v : Word) : (s.cachePut a v).ready = s.ready := by
  unfold State.cachePut; split <;> simp_all
@[simp] theorem State.cachePut_busy (s : State) (a : Addr) (v : Word) : (s.cachePut a v).busy = s.busy := by
  unfold State.cachePut; split <;> simp_all
@[simp] theorem State.cachePut_lines (s : State) (a : Addr) (v : Word) : (s.cachePut a v).lines = s.lines := by
  unfold State.cachePut; split <;> simp_all
@[simp] theorem State.cachePut_shadow (s : State) (a : Addr) (v : Word) : (s.cachePut a v).shadow = if s.tracked a then putCell s.shadow a v else s.shadow := by
  unfold State.cachePut; split <;> simp_all
@[simp] theorem State.cachePut_trace (s : State) (a : Addr) (v : Word) : (s.cachePut a v).trace = s.trace := by
  unfold State.cachePut; split <;> simp_all
@[simp] theorem State.cachePut_env (s : State) (a : Addr) (v : Word) : (s.cachePut a v).env = s.env := by
  unfold State.cachePut; split <;> simp_all
@[simp] theorem State.cachePut_drawCount (s : State) (a : Addr) (v : Word) : (s.cachePut a v).drawCount = s.drawCount := by
  unfold State.cachePut; split <;> simp_all
@[simp] theorem State.cachePut_inputs (s : State) (a : Addr) (v : Word) : (s.cachePut a v).inputs = s.inputs := by
  unfold State.cachePut; split <;> simp_all

@[simp] theorem State.assertReset_cfg (s : State) : s.assertReset.cfg = s.cfg := rfl
@[simp] theorem State.assertReset_status (s : State) : s.assertReset.status = 0#32 := rfl
@[simp] theorem State.assertReset_result0 (s : State) : s.assertReset.result0 = 0#32 := rfl
@[simp] theorem State.assertReset_result1 (s : State) : s.assertReset.result1 = 0#32 := rfl
@[simp] theorem State.assertReset_ready (s : State) : s.assertReset.ready = false := rfl
@[simp] theorem State.assertReset_busy (s : State) : s.assertReset.busy = .starting := rfl
@[simp] theorem State.assertReset_lines (s : State) : s.assertReset.lines = Lines.allUnknown := rfl
@[simp] theorem State.assertReset_shadow (s : State) : s.assertReset.shadow = emptyShadow s.cfg := rfl
@[simp] theorem State.assertReset_trace (s : State) : s.assertReset.trace = [] := rfl
@[simp] theorem State.assertReset_env (s : State) : s.assertReset.env = s.env := rfl
@[simp] theorem State.assertReset_drawCount (s : State) : s.assertReset.drawCount = s.drawCount := rfl
@[simp] theorem State.assertReset_inputs (s : State) : s.assertReset.inputs = s.inputs := rfl

theorem State.reset_assertReset : State.reset.assertReset = State.reset := rfl

/-! ### The cells of the shadow -/

@[simp] theorem findCell_putCell_self (cells : List ShadowCell) (a : Addr) (v : Word) :
    findCell (putCell cells a v) a = some ⟨a, true, v⟩ := by
  induction cells with
  | nil => simp [putCell, findCell]
  | cons c cs ih =>
    by_cases h : c.addr = a
    · simp [putCell, findCell, h]
    · simpa [putCell, findCell, h] using ih

theorem findCell_putCell_ne (cells : List ShadowCell) {a b : Addr} (v : Word) (h : b ≠ a) :
    findCell (putCell cells b v) a = findCell cells a := by
  induction cells with
  | nil => simp [putCell, findCell, h]
  | cons c cs ih =>
    by_cases hc : c.addr = b
    · simp [putCell, findCell, hc, h]
    · by_cases ha : c.addr = a
      · simp [putCell, findCell, ha, Ne.symm h]
      · simpa [putCell, findCell, hc, ha] using ih

end Sys2Proof.Machine
end

