-- ==== Sys2Proof/Laws/Ops.lean ====
section
/-! SUPPORT. What the shared operations do, said once: draws, events, the transaction, RegRead, RegWrite and the modify of
CHOPCONF. A later proof cites these and unfolds none of them. -/

namespace Sys2Proof.Machine

/-! ### Draws -/

theorem State.upcoming_congr {s t : State} (he : s.env = t.env) (hc : s.drawCount = t.drawCount) (k : Nat) :
    s.upcoming k = t.upcoming k := by
  simp [State.upcoming, he, hc]

theorem State.upcoming_popDraw (s : State) (k : Nat) : s.popDraw.upcoming k = s.upcoming (k + 1) := by
  obtain ⟨cfg, st, r0, r1, rd, b, ls, sh, tr, env, n, ins⟩ := s
  cases env with
  | nil =>
    simp [State.popDraw, State.upcoming]
    congr 1
    omega
  | cons d ds => simp [State.popDraw, State.upcoming]

theorem State.popDraw_env_congr {s t : State} (he : s.env = t.env) : s.popDraw.env = t.popDraw.env := by
  simp [he]

theorem State.popDraw_drawCount_congr {s t : State} (he : s.env = t.env) (hc : s.drawCount = t.drawCount) :
    s.popDraw.drawCount = t.popDraw.drawCount := by
  unfold State.popDraw
  cases h : t.env with
  | nil => simp [he, h, hc]
  | cons d ds => simp [he, h, hc]

theorem State.gives_congr {s t : State} (he : s.env = t.env) (hc : s.drawCount = t.drawCount) (evs : List Event) :
    s.gives evs = t.gives evs := by
  induction evs generalizing s t with
  | nil => rfl
  | cons e es ih =>
    simp only [State.gives, State.upcoming_congr he hc]
    rw [ih (State.popDraw_env_congr he) (State.popDraw_drawCount_congr he hc)]

theorem State.dropDraws_env_congr {s t : State} (he : s.env = t.env) (n : Nat) :
    (s.dropDraws n).env = (t.dropDraws n).env := by
  induction n generalizing s t with
  | zero => exact he
  | succ n ih => exact ih (State.popDraw_env_congr he)

theorem State.dropDraws_drawCount_congr {s t : State} (he : s.env = t.env) (hc : s.drawCount = t.drawCount) (n : Nat) :
    (s.dropDraws n).drawCount = (t.dropDraws n).drawCount := by
  induction n generalizing s t with
  | zero => exact hc
  | succ n ih => exact ih (State.popDraw_env_congr he) (State.popDraw_drawCount_congr he hc)

theorem State.dropDraws_add (s : State) (m n : Nat) : s.dropDraws (m + n) = (s.dropDraws m).dropDraws n := by
  induction m generalizing s with
  | zero => simp [State.dropDraws]
  | succ m ih => simp [Nat.succ_add, State.dropDraws, ih]

/-- Using up answers changes the environment's list and count alone. -/
theorem State.popDraw_eq (s : State) :
    s.popDraw = { s with env := s.popDraw.env, drawCount := s.popDraw.drawCount } := by
  unfold State.popDraw
  split <;> rfl

theorem State.dropDraws_eq (s : State) (n : Nat) :
    s.dropDraws n = { s with env := (s.dropDraws n).env, drawCount := (s.dropDraws n).drawCount } := by
  induction n generalizing s with
  | zero => rfl
  | succ n ih =>
    simp only [State.dropDraws]
    rw [ih s.popDraw]
    simp

theorem State.gives_append (s : State) (a b : List Event) :
    s.gives (a ++ b) = (s.gives a && (s.dropDraws a.length).gives b) := by
  induction a generalizing s with
  | nil => simp [State.gives, State.dropDraws]
  | cons e es ih => simp [State.gives, State.dropDraws, ih, Bool.and_assoc]

/-! ### Events issued, the shadow aside -/

/-- The state after the events, the shadow untouched: what the primitives alone do. -/
def State.issue (s : State) (evs : List Event) : State :=
  { s.dropDraws evs.length with trace := s.trace ++ evs, lines := linesAfter evs s.lines }

theorem State.issue_eq (s : State) (evs : List Event) :
    s.issue evs = { s with
      env := (s.dropDraws evs.length).env, drawCount := (s.dropDraws evs.length).drawCount,
      trace := s.trace ++ evs, lines := linesAfter evs s.lines } := by
  unfold State.issue
  rw [State.dropDraws_eq]

theorem State.afterEvents_eq (s : State) (evs : List Event) :
    s.afterEvents evs = { s with
      env := (s.dropDraws evs.length).env, drawCount := (s.dropDraws evs.length).drawCount,
      trace := s.trace ++ evs, lines := linesAfter evs s.lines, shadow := shadowAfter s.cfg evs s.shadow } := by
  unfold State.afterEvents
  rw [State.dropDraws_eq]

@[simp] theorem State.issue_nil (s : State) : s.issue [] = s := by
  simp [State.issue, State.dropDraws, linesAfter]

theorem State.issue_gives (s : State) (a b : List Event) : (s.issue a).gives b = (s.dropDraws a.length).gives b :=
  State.gives_congr (by rfl) (by rfl) b

theorem State.afterEvents_gives (s : State) (a b : List Event) :
    (s.afterEvents a).gives b = (s.dropDraws a.length).gives b :=
  State.gives_congr (by rfl) (by rfl) b

theorem State.issue_append (s : State) (a b : List Event) : s.issue (a ++ b) = (s.issue a).issue b := by
  rw [State.issue_eq s (a ++ b), State.issue_eq (s.issue a) b, State.issue_eq s a]
  have he : (s.dropDraws (a ++ b).length).env = ((s.dropDraws a.length).dropDraws b.length).env := by
    rw [List.length_append, State.dropDraws_add]
  have hc : (s.dropDraws (a ++ b).length).drawCount = ((s.dropDraws a.length).dropDraws b.length).drawCount := by
    rw [List.length_append, State.dropDraws_add]
  simp only [he, hc, linesAfter, List.foldl_append, List.append_assoc, State.mk.injEq, true_and, and_true]
  exact ⟨State.dropDraws_env_congr (by rfl) _, State.dropDraws_drawCount_congr (by rfl) (by rfl) _⟩

theorem levelAfter_ok (lvl : Bool) (old : Level) : levelAfter .ok lvl old = if lvl then .high else .low := by
  cases lvl <;> rfl

theorem State.pinSet_eq_issue (s : State) (l : Line) (lvl : Bool) :
    s.pinSet l lvl = s.issue [.pinSet l lvl s.nextOut] := by
  simp only [State.pinSet, State.record, State.issue, State.dropDraws, List.length_singleton, linesAfter, List.foldl]
  cases s.nextOut <;> cases lvl <;> simp [lineStep, levelAfter, Level.ofBit]

theorem State.busXfer_eq_issue (s : State) (f : Frame) :
    s.busXfer f = s.issue [.busXfer f (xferOutcome (s.upcoming 0))] := by
  simp [State.busXfer, State.record, State.issue, State.dropDraws, linesAfter, lineStep, State.popDraw]
  split <;> rfl

theorem State.busWrite_eq_issue (s : State) (f : Frame) :
    s.busWrite f = s.issue [.busWrite f s.nextOut] := by
  simp [State.busWrite, State.record, State.issue, State.dropDraws, linesAfter, lineStep, State.popDraw]
  split <;> rfl

theorem State.delay_eq_issue (s : State) (n : Nat) :
    s.delay n = s.issue [.delay n (delayOutcome s.nextOut)] := by
  simp [State.delay, State.record, State.issue, State.dropDraws, linesAfter, lineStep, State.popDraw]
  split <;> rfl

/-! ### Events and the shadow -/

/-- No write of the events waits for its release at their end. -/
def NoneWaiting (c : Config) (evs : List Event) : Prop :=
  ∀ cells, (evs.foldl (shadowStep c) (none, cells)).1 = none

theorem NoneWaiting.foldl {c : Config} {evs : List Event} (h : NoneWaiting c evs) (cells : List ShadowCell) :
    evs.foldl (shadowStep c) (none, cells) = (none, shadowAfter c evs cells) :=
  Prod.ext (h cells) rfl

theorem NoneWaiting.nil (c : Config) : NoneWaiting c [] := fun _ => rfl

theorem NoneWaiting.append {c : Config} {a b : List Event} (ha : NoneWaiting c a) (hb : NoneWaiting c b) :
    NoneWaiting c (a ++ b) := by
  intro cells
  rw [List.foldl_append, ha.foldl]
  exact hb _

theorem shadowAfter_append {c : Config} {a : List Event} (ha : NoneWaiting c a) (b : List Event) (cells : List ShadowCell) :
    shadowAfter c (a ++ b) cells = shadowAfter c b (shadowAfter c a cells) := by
  simp only [shadowAfter, List.foldl_append]
  rw [ha.foldl]

theorem State.afterEvents_issue (s : State) (evs : List Event) :
    s.afterEvents evs = { s.issue evs with shadow := shadowAfter s.cfg evs s.shadow } := rfl

@[simp] theorem State.afterEvents_nil (s : State) : s.afterEvents [] = s := by
  simp [State.afterEvents, State.dropDraws, linesAfter, shadowAfter]

theorem State.afterEvents_append (s : State) (a b : List Event) (ha : NoneWaiting s.cfg a) :
    s.afterEvents (a ++ b) = (s.afterEvents a).afterEvents b := by
  rw [State.afterEvents_eq s (a ++ b), State.afterEvents_eq (s.afterEvents a) b, State.afterEvents_eq s a]
  have he : (s.dropDraws (a ++ b).length).env = ((s.dropDraws a.length).dropDraws b.length).env := by
    rw [List.length_append, State.dropDraws_add]
  have hc : (s.dropDraws (a ++ b).length).drawCount = ((s.dropDraws a.length).dropDraws b.length).drawCount := by
    rw [List.length_append, State.dropDraws_add]
  simp only [he, hc, linesAfter, List.foldl_append, List.append_assoc, State.mk.injEq, true_and, and_true]
  exact ⟨shadowAfter_append ha _ _, State.dropDraws_env_congr (by rfl) _, State.dropDraws_drawCount_congr (by rfl) (by rfl) _⟩

@[simp] theorem State.afterEvents_cfg (s : State) (evs : List Event) : (s.afterEvents evs).cfg = s.cfg := by
  rw [State.afterEvents_eq]
@[simp] theorem State.afterEvents_status (s : State) (evs : List Event) : (s.afterEvents evs).status = s.status := by
  rw [State.afterEvents_eq]
@[simp] theorem State.afterEvents_result0 (s : State) (evs : List Event) : (s.afterEvents evs).result0 = s.result0 := by
  rw [State.afterEvents_eq]
@[simp] theorem State.afterEvents_result1 (s : State) (evs : List Event) : (s.afterEvents evs).result1 = s.result1 := by
  rw [State.afterEvents_eq]
@[simp] theorem State.afterEvents_ready (s : State) (evs : List Event) : (s.afterEvents evs).ready = s.ready := by
  rw [State.afterEvents_eq]
@[simp] theorem State.afterEvents_busy (s : State) (evs : List Event) : (s.afterEvents evs).busy = s.busy := by
  rw [State.afterEvents_eq]
@[simp] theorem State.afterEvents_inputs (s : State) (evs : List Event) : (s.afterEvents evs).inputs = s.inputs := by
  rw [State.afterEvents_eq]
@[simp] theorem State.afterEvents_trace (s : State) (evs : List Event) : (s.afterEvents evs).trace = s.trace ++ evs := rfl
@[simp] theorem State.afterEvents_lines (s : State) (evs : List Event) :
    (s.afterEvents evs).lines = linesAfter evs s.lines := rfl
@[simp] theorem State.afterEvents_shadow (s : State) (evs : List Event) :
    (s.afterEvents evs).shadow = shadowAfter s.cfg evs s.shadow := rfl
@[simp] theorem State.issue_cfg (s : State) (evs : List Event) : (s.issue evs).cfg = s.cfg := by
  rw [State.issue_eq]
@[simp] theorem State.issue_shadow (s : State) (evs : List Event) : (s.issue evs).shadow = s.shadow := by
  rw [State.issue_eq]

/-- Events that hold no successful write leave the shadow alone. -/
theorem State.issue_eq_afterEvents {s : State} {evs : List Event} (h : shadowAfter s.cfg evs s.shadow = s.shadow) :
    s.issue evs = s.afterEvents evs := by
  rw [State.afterEvents_eq, State.issue_eq, h]

end Sys2Proof.Machine
end

