-- ==== Sys2Proof/Laws/Transactions.lean ====
section
/-! SUPPORT. The transaction (R89, R90), RegRead (R92), RegWrite (R93) and the primitives of the line commands: each is one of
the rows of R90, or a hang, and the events of the row give the state after it. -/

namespace Sys2Proof.Machine

theorem State.gives_one (s : State) (e : Event) : s.gives [e] = e.answeredBy (s.upcoming 0) := by
  simp [State.gives]

theorem State.gives_two (s : State) (e f : Event) :
    s.gives [e, f] = (e.answeredBy (s.upcoming 0) && f.answeredBy (s.upcoming 1)) := by
  simp [State.gives, State.upcoming_popDraw]

theorem State.gives_three (s : State) (e f g : Event) :
    s.gives [e, f, g] =
      (e.answeredBy (s.upcoming 0) && (f.answeredBy (s.upcoming 1) && g.answeredBy (s.upcoming 2))) := by
  simp [State.gives, State.upcoming_popDraw]

/-! ### The rows of R90 -/

/-- The error code of a failed transaction (R90). -/
def TxnFailure.code : TxnFailure → ErrCode
  | .assert => .pinError
  | .transfer => .busError
  | .release => .pinError
  | .transferAndRelease => .busError

/-- The `CSF` of a failed transaction (R90). -/
def TxnFailure.csf : TxnFailure → Bool
  | .assert => false
  | .transfer => false
  | .release => true
  | .transferAndRelease => true

@[simp] theorem TxnFailure.statusWord_eq (e : TxnFailure) : statusWord e.code e.csf = e.status := by
  cases e <;> decide

/-- A read transaction is one of: the success, a failure, a hang. -/
theorem State.gives_read_cases (s : State) (f : Frame) :
    (∃ rx, s.gives (readTxn f rx) = true) ∨ (∃ (e : TxnFailure) (rx : Frame), s.gives (e.readEvents f rx) = true) ∨
      (∃ (h : TxnHang) (rx : Frame), s.gives (h.readEvents f rx) = true) := by
  cases h0 : (s.upcoming 0).out with
  | noReturn => exact .inr (.inr ⟨.assert, s.upcoming 0 |>.rx, by simp [TxnHang.readEvents, State.gives_one, Event.answeredBy, h0]⟩)
  | fail => exact .inr (.inl ⟨.assert, s.upcoming 0 |>.rx, by simp [TxnFailure.readEvents, State.gives_one, Event.answeredBy, h0]⟩)
  | ok =>
    cases h1 : (s.upcoming 1).out with
    | noReturn =>
      exact .inr (.inr ⟨.transfer, s.upcoming 0 |>.rx, by simp [TxnHang.readEvents, State.gives_two, Event.answeredBy, h0, h1]⟩)
    | fail =>
      cases h2 : (s.upcoming 2).out with
      | ok => exact .inr (.inl ⟨.transfer, s.upcoming 0 |>.rx, by
          simp [TxnFailure.readEvents, State.gives_three, Event.answeredBy, h0, h1, h2]⟩)
      | fail => exact .inr (.inl ⟨.transferAndRelease, s.upcoming 0 |>.rx, by
          simp [TxnFailure.readEvents, State.gives_three, Event.answeredBy, h0, h1, h2]⟩)
      | noReturn => exact .inr (.inr ⟨.releaseAfterFail, s.upcoming 0 |>.rx, by
          simp [TxnHang.readEvents, State.gives_three, Event.answeredBy, h0, h1, h2]⟩)
    | ok =>
      cases h2 : (s.upcoming 2).out with
      | ok => exact .inl ⟨(s.upcoming 1).rx, by simp [readTxn, State.gives_three, Event.answeredBy, h0, h1, h2]⟩
      | fail => exact .inr (.inl ⟨.release, (s.upcoming 1).rx, by
          simp [TxnFailure.readEvents, State.gives_three, Event.answeredBy, h0, h1, h2]⟩)
      | noReturn => exact .inr (.inr ⟨.release, (s.upcoming 1).rx, by
          simp [TxnHang.readEvents, State.gives_three, Event.answeredBy, h0, h1, h2]⟩)

/-- A write transaction is one of: the success, a failure, a hang. -/
theorem State.gives_write_cases (s : State) (f : Frame) :
    s.gives (writeTxn f) = true ∨ (∃ e : TxnFailure, s.gives (e.writeEvents f) = true) ∨
      (∃ h : TxnHang, s.gives (h.writeEvents f) = true) := by
  cases h0 : (s.upcoming 0).out with
  | noReturn => exact .inr (.inr ⟨.assert, by simp [TxnHang.writeEvents, State.gives_one, Event.answeredBy, h0]⟩)
  | fail => exact .inr (.inl ⟨.assert, by simp [TxnFailure.writeEvents, State.gives_one, Event.answeredBy, h0]⟩)
  | ok =>
    cases h1 : (s.upcoming 1).out with
    | noReturn => exact .inr (.inr ⟨.transfer, by simp [TxnHang.writeEvents, State.gives_two, Event.answeredBy, h0, h1]⟩)
    | fail =>
      cases h2 : (s.upcoming 2).out with
      | ok => exact .inr (.inl ⟨.transfer, by
          simp [TxnFailure.writeEvents, State.gives_three, Event.answeredBy, h0, h1, h2]⟩)
      | fail => exact .inr (.inl ⟨.transferAndRelease, by
          simp [TxnFailure.writeEvents, State.gives_three, Event.answeredBy, h0, h1, h2]⟩)
      | noReturn => exact .inr (.inr ⟨.releaseAfterFail, by
          simp [TxnHang.writeEvents, State.gives_three, Event.answeredBy, h0, h1, h2]⟩)
    | ok =>
      cases h2 : (s.upcoming 2).out with
      | ok => exact .inl (by simp [writeTxn, State.gives_three, Event.answeredBy, h0, h1, h2])
      | fail => exact .inr (.inl ⟨.release, by
          simp [TxnFailure.writeEvents, State.gives_three, Event.answeredBy, h0, h1, h2]⟩)
      | noReturn => exact .inr (.inr ⟨.release, by
          simp [TxnHang.writeEvents, State.gives_three, Event.answeredBy, h0, h1, h2]⟩)

/-! ### Txn -/

/-- The event a transfer leaves, from its answer. -/
def TxnKind.event (kind : TxnKind) (f : Frame) (d : Draw) : Event :=
  match kind with
  | .read => .busXfer f (xferOutcome d)
  | .write => .busWrite f d.out

theorem State.transfer_eq_issue (s : State) (kind : TxnKind) (f : Frame) :
    s.transfer kind f = s.issue [kind.event f (s.upcoming 0)] := by
  cases kind
  · exact State.busXfer_eq_issue s f
  · exact State.busWrite_eq_issue s f

theorem State.upcoming_dropDraws (s : State) (n k : Nat) : (s.dropDraws n).upcoming k = s.upcoming (n + k) := by
  induction n generalizing s with
  | zero => simp [State.dropDraws]
  | succ n ih =>
    rw [State.dropDraws, ih, State.upcoming_popDraw]
    congr 1
    omega

theorem State.upcoming_issue (s : State) (evs : List Event) (k : Nat) :
    (s.issue evs).upcoming k = s.upcoming (evs.length + k) := by
  rw [← State.upcoming_dropDraws]
  exact State.upcoming_congr (by rfl) (by rfl) k

/-- `Txn` by the outcomes of its three primitives (R89). -/
theorem txn_eq (kind : TxnKind) (f : Frame) (s : State) :
    txn kind f s = match (s.upcoming 0).out with
      | .noReturn => .hung (s.issue [.pinSet .csN false .noReturn])
      | .fail => .raised .pinError false (s.issue [.pinSet .csN false .fail])
      | .ok => match (s.upcoming 1).out with
        | .noReturn => .hung (s.issue [.pinSet .csN false .ok, kind.event f (s.upcoming 1)])
        | .ok => txnEnd .ok (s.upcoming 2).out (s.upcoming 1).rx
            (s.issue [.pinSet .csN false .ok, kind.event f (s.upcoming 1), .pinSet .csN true (s.upcoming 2).out])
        | .fail => txnEnd .fail (s.upcoming 2).out (s.upcoming 1).rx
            (s.issue [.pinSet .csN false .ok, kind.event f (s.upcoming 1), .pinSet .csN true (s.upcoming 2).out]) := by
  unfold txn
  simp only [State.nextOut, State.pinSet_eq_issue, State.transfer_eq_issue, State.upcoming_issue, ← State.issue_append,
    List.length_cons, List.length_nil, List.cons_append, List.nil_append]
  cases (s.upcoming 0).out
  · cases (s.upcoming 1).out <;> rfl
  · rfl
  · rfl

theorem txn_read_ok {s : State} {f rx : Frame} (h : s.gives (readTxn f rx) = true) :
    txn .read f s = .done rx (s.issue (readTxn f rx)) := by
  simp only [readTxn, State.gives_three, Event.answeredBy, Bool.and_eq_true, beq_iff_eq] at h
  obtain ⟨h0, ⟨h1, hr⟩, h2⟩ := h
  rw [txn_eq]
  simp [h0, h1, h2, hr, txnEnd, readTxn, xferOutcome, TxnKind.event]

theorem txn_read_fail {s : State} {f rx : Frame} {e : TxnFailure} (h : s.gives (e.readEvents f rx) = true) :
    txn .read f s = .raised e.code e.csf (s.issue (e.readEvents f rx)) := by
  rw [txn_eq]
  cases e <;>
    simp only [TxnFailure.readEvents, State.gives_one, State.gives_three, Event.answeredBy, Bool.and_eq_true, beq_iff_eq] at h <;>
    simp [h, txnEnd, xferOutcome, TxnKind.event, TxnFailure.code, TxnFailure.csf, TxnFailure.readEvents]

theorem txn_read_hang {s : State} {f rx : Frame} {g : TxnHang} (h : s.gives (g.readEvents f rx) = true) :
    txn .read f s = .hung (s.issue (g.readEvents f rx)) := by
  rw [txn_eq]
  cases g <;>
    simp only [TxnHang.readEvents, State.gives_one, State.gives_two, State.gives_three, Event.answeredBy, Bool.and_eq_true,
      beq_iff_eq] at h <;>
    simp [h, txnEnd, xferOutcome, TxnKind.event, TxnHang.readEvents]

theorem txn_write_ok {s : State} {f : Frame} (h : s.gives (writeTxn f) = true) :
    txn .write f s = .done (s.upcoming 1).rx (s.issue (writeTxn f)) := by
  simp only [writeTxn, State.gives_three, Event.answeredBy, Bool.and_eq_true, beq_iff_eq] at h
  obtain ⟨h0, h1, h2⟩ := h
  rw [txn_eq]
  simp [h0, h1, h2, txnEnd, writeTxn, TxnKind.event]

theorem txn_write_fail {s : State} {f : Frame} {e : TxnFailure} (h : s.gives (e.writeEvents f) = true) :
    txn .write f s = .raised e.code e.csf (s.issue (e.writeEvents f)) := by
  rw [txn_eq]
  cases e <;>
    simp only [TxnFailure.writeEvents, State.gives_one, State.gives_three, Event.answeredBy, Bool.and_eq_true,
      beq_iff_eq] at h <;>
    simp [h, txnEnd, TxnKind.event, TxnFailure.code, TxnFailure.csf, TxnFailure.writeEvents]

theorem txn_write_hang {s : State} {f : Frame} {g : TxnHang} (h : s.gives (g.writeEvents f) = true) :
    txn .write f s = .hung (s.issue (g.writeEvents f)) := by
  rw [txn_eq]
  cases g <;>
    simp only [TxnHang.writeEvents, State.gives_one, State.gives_two, State.gives_three, Event.answeredBy, Bool.and_eq_true,
      beq_iff_eq] at h <;>
    simp [h, txnEnd, TxnKind.event, TxnHang.writeEvents]

/-! ### What the events of a transaction do to the shadow -/

theorem noneWaiting_readTxn (c : Config) (f rx : Frame) : NoneWaiting c (readTxn f rx) := fun _ => rfl
theorem noneWaiting_writeTxn (c : Config) (f : Frame) : NoneWaiting c (writeTxn f) := fun _ => rfl
theorem noneWaiting_readFail (c : Config) (f rx : Frame) (e : TxnFailure) : NoneWaiting c (e.readEvents f rx) := by
  cases e <;> exact fun _ => rfl
theorem noneWaiting_writeFail (c : Config) (f : Frame) (e : TxnFailure) : NoneWaiting c (e.writeEvents f) := by
  cases e <;> exact fun _ => rfl
theorem noneWaiting_readHang (c : Config) (f rx : Frame) (g : TxnHang) : NoneWaiting c (g.readEvents f rx) := by
  cases g <;> exact fun _ => rfl
theorem noneWaiting_writeHang (c : Config) (f : Frame) (g : TxnHang) : NoneWaiting c (g.writeEvents f) := by
  cases g <;> exact fun _ => rfl

@[simp] theorem shadowAfter_nil (c : Config) (cells : List ShadowCell) : shadowAfter c [] cells = cells := rfl
@[simp] theorem shadowAfter_readTxn (c : Config) (f rx : Frame) (cells : List ShadowCell) :
    shadowAfter c (readTxn f rx) cells = cells := rfl
@[simp] theorem shadowAfter_readFail (c : Config) (f rx : Frame) (e : TxnFailure) (cells : List ShadowCell) :
    shadowAfter c (e.readEvents f rx) cells = cells := by
  cases e <;> rfl
@[simp] theorem shadowAfter_readHang (c : Config) (f rx : Frame) (g : TxnHang) (cells : List ShadowCell) :
    shadowAfter c (g.readEvents f rx) cells = cells := by
  cases g <;> rfl
@[simp] theorem shadowAfter_writeFail (c : Config) (f : Frame) (e : TxnFailure) (cells : List ShadowCell) :
    shadowAfter c (e.writeEvents f) cells = cells := by
  cases e <;> rfl
@[simp] theorem shadowAfter_writeHang (c : Config) (f : Frame) (g : TxnHang) (cells : List ShadowCell) :
    shadowAfter c (g.writeEvents f) cells = cells := by
  cases g <;> rfl
theorem shadowAfter_writeTxn (c : Config) (f : Frame) (cells : List ShadowCell) :
    shadowAfter c (writeTxn f) cells =
      if c.trackedSet.contains (frameAddr f) then putCell cells (frameAddr f) (frameValue f) else cells := rfl

/-! ### Frames -/

theorem readRequest_eq (p : Byte) (a : Addr) : readRequest p a = readFrame p a := rfl

theorem writeRequest_eq (a : Addr) (v : Word) : writeRequest a v = writeFrame a v := rfl

theorem responseValue_eq (rx : Frame) : responseValue rx = rxValue rx := rfl

@[simp] theorem frameAddr_writeFrame (a : Addr) (v : Word) : frameAddr (writeFrame a v) = a := by
  simp only [frameAddr, writeFrame]
  apply BitVec.eq_of_toNat_eq
  have ha := a.isLt
  simp only [BitVec.toNat_setWidth, BitVec.toNat_append]
  rw [Nat.shiftLeft_eq, Nat.mul_comm, ← Nat.two_pow_add_eq_or_of_lt ha]
  omega

@[simp] theorem frameValue_writeFrame (a : Addr) (v : Word) : frameValue (writeFrame a v) = v := by
  simp only [frameValue, writeFrame]
  apply BitVec.eq_of_getLsbD_eq
  intro i hi
  simp only [BitVec.getLsbD_append, BitVec.getLsbD_extractLsb']
  by_cases h1 : i < 8
  · simp [h1]
  · by_cases h2 : i < 16
    · simp [h1, show i - 8 < 8 by omega, show 8 + (i - 8) = i by omega]
    · by_cases h3 : i < 24
      · simp [h1, show ¬ i - 8 < 8 by omega, show i - 8 - 8 < 8 by omega, show 16 + (i - 8 - 8) = i by omega]
      · simp [h1, show ¬ i - 8 < 8 by omega, show ¬ i - 8 - 8 < 8 by omega, show i - 8 - 8 - 8 < 8 by omega,
          show 24 + (i - 8 - 8 - 8) = i by omega]

/-! ### RegRead and RegWrite -/

theorem regRead_ok {s : State} {a : Addr} {rx : Frame} (h : s.gives (readTxn (readFrame s.cfg.placeholder a) rx) = true) :
    regRead a s = .done (rxValue rx) (s.afterEvents (readTxn (readFrame s.cfg.placeholder a) rx)) := by
  rw [regRead, readRequest_eq, txn_read_ok h, State.issue_eq_afterEvents (by simp)]
  rfl

theorem regRead_fail {s : State} {a : Addr} {rx : Frame} {e : TxnFailure}
    (h : s.gives (e.readEvents (readFrame s.cfg.placeholder a) rx) = true) :
    regRead a s = .raised e.code e.csf (s.afterEvents (e.readEvents (readFrame s.cfg.placeholder a) rx)) := by
  rw [regRead, readRequest_eq, txn_read_fail h, State.issue_eq_afterEvents (by simp)]
  rfl

theorem regRead_hang {s : State} {a : Addr} {rx : Frame} {g : TxnHang}
    (h : s.gives (g.readEvents (readFrame s.cfg.placeholder a) rx) = true) :
    regRead a s = .hung (s.afterEvents (g.readEvents (readFrame s.cfg.placeholder a) rx)) := by
  rw [regRead, readRequest_eq, txn_read_hang h, State.issue_eq_afterEvents (by simp)]
  rfl

theorem regWrite_ok {s : State} {a : Addr} {v : Word} (h : s.gives (writeTxn (writeFrame a v)) = true) :
    regWrite a v s = .done () (s.afterEvents (writeTxn (writeFrame a v))) := by
  rw [regWrite, writeRequest_eq, txn_write_ok h]
  simp only [Run.andThen]
  congr 1
  rw [State.afterEvents_issue, shadowAfter_writeTxn]
  simp only [frameAddr_writeFrame, frameValue_writeFrame, State.cachePut, State.tracked, State.issue_cfg,
    State.issue_shadow]
  split
  · rfl
  · rw [State.issue_eq]

theorem regWrite_fail {s : State} {a : Addr} {v : Word} {e : TxnFailure}
    (h : s.gives (e.writeEvents (writeFrame a v)) = true) :
    regWrite a v s = .raised e.code e.csf (s.afterEvents (e.writeEvents (writeFrame a v))) := by
  rw [regWrite, writeRequest_eq, txn_write_fail h, State.issue_eq_afterEvents (by simp)]
  rfl

theorem regWrite_hang {s : State} {a : Addr} {v : Word} {g : TxnHang}
    (h : s.gives (g.writeEvents (writeFrame a v)) = true) :
    regWrite a v s = .hung (s.afterEvents (g.writeEvents (writeFrame a v))) := by
  rw [regWrite, writeRequest_eq, txn_write_hang h, State.issue_eq_afterEvents (by simp)]
  rfl

/-! ### The primitives of the line commands -/

theorem linePin_eq (l : Line) (lvl : Bool) (s : State) :
    linePin l lvl s = match (s.upcoming 0).out with
      | .ok => .done () (s.issue [.pinSet l lvl .ok])
      | .fail => .raised .pinError false (s.issue [.pinSet l lvl .fail])
      | .noReturn => .hung (s.issue [.pinSet l lvl .noReturn]) := by
  unfold linePin
  rw [State.pinSet_eq_issue, State.nextOut]
  cases (s.upcoming 0).out <;> rfl

theorem lineDelay_eq (n : Nat) (s : State) :
    lineDelay n s = match (s.upcoming 0).out with
      | .noReturn => .hung (s.issue [.delay n .noReturn])
      | .ok => .done () (s.issue [.delay n .ok])
      | .fail => .done () (s.issue [.delay n .ok]) := by
  unfold lineDelay
  rw [State.delay_eq_issue, State.nextOut]
  cases (s.upcoming 0).out <;> rfl

end Sys2Proof.Machine
end

