-- ==== Sys2Proof/Laws/Commands.lean ====
section
/-! SUPPORT. How a command ends, said once for every instruction: it completes after events that all succeeded, it is rejected
before any event, it stops at a failing event, or it is held by an event that never returned. -/

namespace Sys2Proof.Machine

/-- Two counts added. -/
def Counts.plus (a b : Counts) : Counts :=
  ⟨a.reads + b.reads, a.writes + b.writes, a.pins + b.pins, a.delays + b.delays⟩

theorem countsOf_append (a b : List Event) : countsOf (a ++ b) = (countsOf a).plus (countsOf b) := by
  simp [countsOf, countKind, Counts.plus]

/-- Events that all succeeded, that the environment's next answers are, and that end between transactions. -/
structure Succeeds (Q : Event → Prop) (s : State) (evs : List Event) : Prop where
  gives : s.gives evs = true
  noneWaiting : NoneWaiting s.cfg evs
  framed : evs.foldl frameStep .between = .between
  succeeded : ∀ e ∈ evs, e.succeeded = true
  allowed : ∀ e ∈ evs, Q e

/-- How an error stands in the events: the failing one, and at most a release attempted after a failed transfer (R89, R127). -/
inductive FailsAs : Word → ErrCode → Bool → List Event → Prop where
  | pin (l : Line) (lvl : Bool) : FailsAs 0x2#32 .pinError false [.pinSet l lvl .fail]
  | release : FailsAs 0xA#32 .pinError true [.pinSet .csN true .fail]
  | xfer (f : Frame) : FailsAs 0x1#32 .busError false [.busXfer f .fail, .pinSet .csN true .ok]
  | xferRelease (f : Frame) : FailsAs 0x9#32 .busError true [.busXfer f .fail, .pinSet .csN true .fail]
  | write (f : Frame) : FailsAs 0x1#32 .busError false [.busWrite f .fail, .pinSet .csN true .ok]
  | writeRelease (f : Frame) : FailsAs 0x9#32 .busError true [.busWrite f .fail, .pinSet .csN true .fail]

/-- Events that end in an error. -/
structure Stops (Q : Event → Prop) (s : State) (st : Word) (c : ErrCode) (csf : Bool) (before tail : List Event) : Prop where
  gives : s.gives (before ++ tail) = true
  noneWaiting : NoneWaiting s.cfg (before ++ tail)
  framed : (before ++ tail).foldl frameStep .between = .between
  succeeded : ∀ e ∈ before, e.succeeded = true
  fails : FailsAs st c csf tail
  allowed : ∀ e ∈ before ++ tail, Q e

/-- Events that end in a primitive that never returned. -/
structure Hangs (Q : Event → Prop) (s : State) (before : List Event) (e : Event) : Prop where
  gives : s.gives (before ++ [e]) = true
  noneWaiting : NoneWaiting s.cfg (before ++ [e])
  framed : (before ++ [e]).foldl frameStep .between = .stuck
  returned : ∀ x ∈ before, x.returned = true
  hangs : e.returned = false
  allowed : ∀ x ∈ before ++ [e], Q x

/-- A piece of pseudocode run from `s` ends in one of the three ways, and the events give its state. -/
def Run.Explained {α : Type} (Q : Event → Prop) (K : Counts) (s : State) : Run α → Prop
  | .done _ t => ∃ evs, Succeeds Q s evs ∧ countsOf evs = K ∧ t = s.afterEvents evs
  | .raised c csf t => ∃ st before tail, Stops Q s st c csf before tail ∧ t = s.afterEvents (before ++ tail)
  | .hung t => ∃ before e, Hangs Q s before e ∧ t = s.afterEvents (before ++ [e])

theorem Event.returned_of_succeeded {e : Event} (h : e.succeeded = true) : e.returned = true := by
  cases e with
  | busXfer f o => cases o <;> simp_all [Event.succeeded, Event.returned]
  | pinSet l b o => cases o <;> simp_all [Event.succeeded, Event.returned]
  | busWrite f o => cases o <;> simp_all [Event.succeeded, Event.returned]
  | delay n o => cases o <;> simp_all [Event.succeeded, Event.returned]

theorem Succeeds.append {Q : Event → Prop} {s : State} {a b : List Event} (ha : Succeeds Q s a)
    (hb : Succeeds Q (s.afterEvents a) b) : Succeeds Q s (a ++ b) where
  gives := by
    have := hb.gives
    rw [State.afterEvents_gives] at this
    simp [State.gives_append, ha.gives, this]
  noneWaiting := ha.noneWaiting.append (by simpa using hb.noneWaiting)
  framed := by rw [List.foldl_append, ha.framed, hb.framed]
  succeeded := by
    intro e he
    rcases List.mem_append.1 he with h | h
    · exact ha.succeeded e h
    · exact hb.succeeded e h
  allowed := by
    intro e he
    rcases List.mem_append.1 he with h | h
    · exact ha.allowed e h
    · exact hb.allowed e h

theorem Stops.append {Q : Event → Prop} {s : State} {st : Word} {c : ErrCode} {csf : Bool} {a before tail : List Event}
    (ha : Succeeds Q s a) (hb : Stops Q (s.afterEvents a) st c csf before tail) :
    Stops Q s st c csf (a ++ before) tail where
  gives := by
    have := hb.gives
    rw [State.afterEvents_gives] at this
    rw [List.append_assoc]
    rw [State.gives_append, ha.gives, this]
    rfl
  noneWaiting := by
    rw [List.append_assoc]
    exact ha.noneWaiting.append (by simpa using hb.noneWaiting)
  framed := by rw [List.append_assoc, List.foldl_append, ha.framed, hb.framed]
  succeeded := by
    intro e he
    rcases List.mem_append.1 he with h | h
    · exact ha.succeeded e h
    · exact hb.succeeded e h
  fails := hb.fails
  allowed := by
    intro e he
    rw [List.append_assoc] at he
    rcases List.mem_append.1 he with h | h
    · exact ha.allowed e h
    · exact hb.allowed e h

theorem Hangs.append {Q : Event → Prop} {s : State} {a before : List Event} {e : Event}
    (ha : Succeeds Q s a) (hb : Hangs Q (s.afterEvents a) before e) : Hangs Q s (a ++ before) e where
  gives := by
    have := hb.gives
    rw [State.afterEvents_gives] at this
    rw [List.append_assoc]
    rw [State.gives_append, ha.gives, this]
    rfl
  noneWaiting := by
    rw [List.append_assoc]
    exact ha.noneWaiting.append (by simpa using hb.noneWaiting)
  framed := by rw [List.append_assoc, List.foldl_append, ha.framed, hb.framed]
  returned := by
    intro x hx
    rcases List.mem_append.1 hx with h | h
    · exact Event.returned_of_succeeded (ha.succeeded x h)
    · exact hb.returned x h
  hangs := hb.hangs
  allowed := by
    intro x hx
    rw [List.append_assoc] at hx
    rcases List.mem_append.1 hx with h | h
    · exact ha.allowed x h
    · exact hb.allowed x h

theorem Succeeds.nil (Q : Event → Prop) (s : State) : Succeeds Q s [] where
  gives := rfl
  noneWaiting := NoneWaiting.nil _
  framed := rfl
  succeeded := by simp
  allowed := by simp

theorem Run.Explained.done {α : Type} (Q : Event → Prop) (a : α) (s : State) :
    (Run.done a s).Explained Q ⟨0, 0, 0, 0⟩ s :=
  ⟨[], Succeeds.nil Q s, rfl, by simp⟩

/-- Sequence (R20). -/
theorem Run.Explained.andThen {α β : Type} {Q : Event → Prop} {K L : Counts} {s : State} {r : Run α}
    {f : α → State → Run β} (hr : r.Explained Q K s) (hf : ∀ a t, r = .done a t → (f a t).Explained Q L t) :
    (r.andThen f).Explained Q (K.plus L) s := by
  cases r with
  | raised c csf t => exact hr
  | hung t => exact hr
  | done a t =>
    obtain ⟨evs, he, hk, rfl⟩ := hr
    have h := hf a _ rfl
    simp only [Run.andThen]
    cases hft : f a (s.afterEvents evs) with
    | done b u =>
      rw [hft] at h
      obtain ⟨evs2, he2, hk2, rfl⟩ := h
      exact ⟨evs ++ evs2, he.append he2, by rw [countsOf_append, hk, hk2], (s.afterEvents_append _ _ he.noneWaiting).symm⟩
    | raised c csf u =>
      rw [hft] at h
      obtain ⟨st, before, tail, hs, rfl⟩ := h
      exact ⟨st, evs ++ before, tail, hs.append he, by
        rw [List.append_assoc, State.afterEvents_append _ _ _ he.noneWaiting]⟩
    | hung u =>
      rw [hft] at h
      obtain ⟨before, e, hs, rfl⟩ := h
      exact ⟨evs ++ before, e, hs.append he, by
        rw [List.append_assoc, State.afterEvents_append _ _ _ he.noneWaiting]⟩

/-! ### The shared operations -/

/-- What a read transaction may issue. -/
def OkRead (e : Event) : Prop := (∃ b o, e = .pinSet .csN b o) ∨ ∃ f o, e = .busXfer f o

/-- What a write transaction to `a` may issue. -/
def OkWrite (a : Addr) (e : Event) : Prop :=
  (∃ b o, e = .pinSet .csN b o) ∨ ∃ f o, e = .busWrite f o ∧ frameAddr f = a

theorem readTxn_succeeds {Q : Event → Prop} (hQ : ∀ e, OkRead e → Q e) {s : State} {f rx : Frame}
    (h : s.gives (readTxn f rx) = true) : Succeeds Q s (readTxn f rx) where
  gives := h
  noneWaiting := noneWaiting_readTxn _ _ _
  framed := rfl
  succeeded := by simp [readTxn, Event.succeeded]
  allowed := by
    intro e he
    apply hQ
    simp only [readTxn, List.mem_cons, List.not_mem_nil, or_false] at he
    rcases he with rfl | rfl | rfl <;> simp [OkRead]

theorem readFail_stops {Q : Event → Prop} (hQ : ∀ e, OkRead e → Q e) {s : State} {f rx : Frame} {e : TxnFailure}
    (h : s.gives (e.readEvents f rx) = true) :
    ∃ before tail, Stops Q s e.status e.code e.csf before tail ∧ e.readEvents f rx = before ++ tail := by
  cases e with
  | assert => exact ⟨[], _, ⟨h, fun _ => rfl, rfl, by simp, .pin _ _, by
      intro x hx; apply hQ; simp at hx; subst hx; simp [OkRead]⟩, rfl⟩
  | transfer => exact ⟨[.pinSet .csN false .ok], _, ⟨h, fun _ => rfl, rfl, by simp [Event.succeeded], .xfer f, by
      intro x hx; apply hQ; simp at hx; rcases hx with rfl | rfl | rfl <;> simp [OkRead]⟩, rfl⟩
  | release => exact ⟨[.pinSet .csN false .ok, .busXfer f (.ok rx)], _,
      ⟨h, fun _ => rfl, rfl, by simp [Event.succeeded], .release, by
      intro x hx; apply hQ; simp at hx; rcases hx with rfl | rfl | rfl <;> simp [OkRead]⟩, rfl⟩
  | transferAndRelease => exact ⟨[.pinSet .csN false .ok], _, ⟨h, fun _ => rfl, rfl, by simp [Event.succeeded],
      .xferRelease f, by
      intro x hx; apply hQ; simp at hx; rcases hx with rfl | rfl | rfl <;> simp [OkRead]⟩, rfl⟩

theorem readHang_hangs {Q : Event → Prop} (hQ : ∀ e, OkRead e → Q e) {s : State} {f rx : Frame} {g : TxnHang}
    (h : s.gives (g.readEvents f rx) = true) :
    ∃ before e, Hangs Q s before e ∧ g.readEvents f rx = before ++ [e] := by
  cases g with
  | assert => exact ⟨[], _, ⟨h, fun _ => rfl, rfl, by simp, rfl, by
      intro x hx; apply hQ; simp at hx; subst hx; simp [OkRead]⟩, rfl⟩
  | transfer => exact ⟨[.pinSet .csN false .ok], _, ⟨h, fun _ => rfl, rfl, by simp [Event.returned], rfl, by
      intro x hx; apply hQ; simp at hx; rcases hx with rfl | rfl <;> simp [OkRead]⟩, rfl⟩
  | release => exact ⟨[.pinSet .csN false .ok, .busXfer f (.ok rx)], _,
      ⟨h, fun _ => rfl, rfl, by simp [Event.returned], rfl, by
      intro x hx; apply hQ; simp at hx; rcases hx with rfl | rfl | rfl <;> simp [OkRead]⟩, rfl⟩
  | releaseAfterFail => exact ⟨[.pinSet .csN false .ok, .busXfer f .fail], _,
      ⟨h, fun _ => rfl, rfl, by simp [Event.returned], rfl, by
      intro x hx; apply hQ; simp at hx; rcases hx with rfl | rfl | rfl <;> simp [OkRead]⟩, rfl⟩

theorem writeTxn_succeeds {Q : Event → Prop} {s : State} {f : Frame} (hQ : ∀ e, OkWrite (frameAddr f) e → Q e)
    (h : s.gives (writeTxn f) = true) : Succeeds Q s (writeTxn f) where
  gives := h
  noneWaiting := noneWaiting_writeTxn _ _
  framed := rfl
  succeeded := by simp [writeTxn, Event.succeeded]
  allowed := by
    intro e he
    apply hQ
    simp only [writeTxn, List.mem_cons, List.not_mem_nil, or_false] at he
    rcases he with rfl | rfl | rfl <;> simp [OkWrite]

theorem writeFail_stops {Q : Event → Prop} {s : State} {f : Frame} {e : TxnFailure}
    (hQ : ∀ e, OkWrite (frameAddr f) e → Q e) (h : s.gives (e.writeEvents f) = true) :
    ∃ before tail, Stops Q s e.status e.code e.csf before tail ∧ e.writeEvents f = before ++ tail := by
  cases e with
  | assert => exact ⟨[], _, ⟨h, fun _ => rfl, rfl, by simp, .pin _ _, by
      intro x hx; apply hQ; simp at hx; subst hx; simp [OkWrite]⟩, rfl⟩
  | transfer => exact ⟨[.pinSet .csN false .ok], _, ⟨h, fun _ => rfl, rfl, by simp [Event.succeeded], .write f, by
      intro x hx; apply hQ; simp at hx; rcases hx with rfl | rfl | rfl <;> simp [OkWrite]⟩, rfl⟩
  | release => exact ⟨[.pinSet .csN false .ok, .busWrite f .ok], _,
      ⟨h, fun _ => rfl, rfl, by simp [Event.succeeded], .release, by
      intro x hx; apply hQ; simp at hx; rcases hx with rfl | rfl | rfl <;> simp [OkWrite]⟩, rfl⟩
  | transferAndRelease => exact ⟨[.pinSet .csN false .ok], _, ⟨h, fun _ => rfl, rfl, by simp [Event.succeeded],
      .writeRelease f, by
      intro x hx; apply hQ; simp at hx; rcases hx with rfl | rfl | rfl <;> simp [OkWrite]⟩, rfl⟩

theorem writeHang_hangs {Q : Event → Prop} {s : State} {f : Frame} {g : TxnHang}
    (hQ : ∀ e, OkWrite (frameAddr f) e → Q e) (h : s.gives (g.writeEvents f) = true) :
    ∃ before e, Hangs Q s before e ∧ g.writeEvents f = before ++ [e] := by
  cases g with
  | assert => exact ⟨[], _, ⟨h, fun _ => rfl, rfl, by simp, rfl, by
      intro x hx; apply hQ; simp at hx; subst hx; simp [OkWrite]⟩, rfl⟩
  | transfer => exact ⟨[.pinSet .csN false .ok], _, ⟨h, fun _ => rfl, rfl, by simp [Event.returned], rfl, by
      intro x hx; apply hQ; simp at hx; rcases hx with rfl | rfl <;> simp [OkWrite]⟩, rfl⟩
  | release => exact ⟨[.pinSet .csN false .ok, .busWrite f .ok], _,
      ⟨h, fun _ => rfl, rfl, by simp [Event.returned], rfl, by
      intro x hx; apply hQ; simp at hx; rcases hx with rfl | rfl | rfl <;> simp [OkWrite]⟩, rfl⟩
  | releaseAfterFail => exact ⟨[.pinSet .csN false .ok, .busWrite f .fail], _,
      ⟨h, fun _ => rfl, rfl, by simp [Event.returned], rfl, by
      intro x hx; apply hQ; simp at hx; rcases hx with rfl | rfl | rfl <;> simp [OkWrite]⟩, rfl⟩

/-- A bare read transaction, whatever its request carries. -/
theorem explained_txnRead {Q : Event → Prop} (hQ : ∀ e, OkRead e → Q e) (f : Frame) (s : State) :
    (txn .read f s).Explained Q ⟨1, 0, 2, 0⟩ s := by
  rcases s.gives_read_cases f with ⟨rx, h⟩ | ⟨e, rx, h⟩ | ⟨g, rx, h⟩
  · rw [txn_read_ok h, State.issue_eq_afterEvents (by simp)]
    exact ⟨_, readTxn_succeeds hQ h, rfl, rfl⟩
  · rw [txn_read_fail h, State.issue_eq_afterEvents (by simp)]
    obtain ⟨b, t, hs, he⟩ := readFail_stops hQ h
    exact ⟨_, b, t, hs, by rw [he]⟩
  · rw [txn_read_hang h, State.issue_eq_afterEvents (by simp)]
    obtain ⟨b, e, hs, he⟩ := readHang_hangs hQ h
    exact ⟨b, e, hs, by rw [he]⟩

/-- RegRead (R92). -/
theorem explained_regRead {Q : Event → Prop} (hQ : ∀ e, OkRead e → Q e) (a : Addr) (s : State) :
    (regRead a s).Explained Q ⟨1, 0, 2, 0⟩ s := by
  rcases s.gives_read_cases (readFrame s.cfg.placeholder a) with ⟨rx, h⟩ | ⟨e, rx, h⟩ | ⟨g, rx, h⟩
  · rw [regRead_ok h]
    exact ⟨_, readTxn_succeeds hQ h, rfl, rfl⟩
  · rw [regRead_fail h]
    obtain ⟨b, t, hs, he⟩ := readFail_stops hQ h
    exact ⟨_, b, t, hs, by rw [he]⟩
  · rw [regRead_hang h]
    obtain ⟨b, e, hs, he⟩ := readHang_hangs hQ h
    exact ⟨b, e, hs, by rw [he]⟩

/-- RegWrite (R93). -/
theorem explained_regWrite {Q : Event → Prop} (a : Addr) (v : Word) (hQ : ∀ e, OkWrite a e → Q e) (s : State) :
    (regWrite a v s).Explained Q ⟨0, 1, 2, 0⟩ s := by
  have hQ' : ∀ e, OkWrite (frameAddr (writeFrame a v)) e → Q e := by simpa using hQ
  rcases s.gives_write_cases (writeFrame a v) with h | ⟨e, h⟩ | ⟨g, h⟩
  · rw [regWrite_ok h]
    exact ⟨_, writeTxn_succeeds hQ' h, rfl, rfl⟩
  · rw [regWrite_fail h]
    obtain ⟨b, t, hs, he⟩ := writeFail_stops hQ' h
    exact ⟨_, b, t, hs, by rw [he]⟩
  · rw [regWrite_hang h]
    obtain ⟨b, e, hs, he⟩ := writeHang_hangs hQ' h
    exact ⟨b, e, hs, by rw [he]⟩

/-- The modify of CHOPCONF (R109, R111, R112). -/
theorem explained_modifyChopconf {Q : Event → Prop} (hR : ∀ e, OkRead e → Q e) (hW : ∀ e, OkWrite regChopconf e → Q e)
    (f : FieldDesc) (x : Word) (s : State) : (modifyChopconf f x s).Explained Q ⟨1, 1, 4, 0⟩ s :=
  (explained_regRead hR regChopconf s).andThen (L := ⟨0, 1, 2, 0⟩) fun cur t _ =>
    (explained_regWrite regChopconf (setField cur f.off f.wid x) hW t).andThen (L := ⟨0, 0, 0, 0⟩) fun _ u _ => .done Q _ u

/-- A `PinSet` of a line other than chip-select (R116 to R119). -/
theorem explained_linePin {Q : Event → Prop} {l : Line} (hl : l ≠ .csN) (lvl : Bool) (hQ : ∀ o, Q (.pinSet l lvl o)) (s : State) :
    (linePin l lvl s).Explained Q ⟨0, 0, 1, 0⟩ s := by
  have nw : ∀ o, NoneWaiting s.cfg [.pinSet l lvl o] := by
    intro o cells
    cases l <;> first | exact absurd rfl hl | rfl
  have fr : ∀ o, [Event.pinSet l lvl o].foldl frameStep .between = if o = .noReturn then .stuck else .between := by
    intro o
    cases l <;> first | exact absurd rfl hl | (cases o <;> rfl)
  have sh : ∀ o, shadowAfter s.cfg [.pinSet l lvl o] s.shadow = s.shadow := by
    intro o
    cases l <;> first | exact absurd rfl hl | rfl
  rw [linePin_eq]
  cases h : (s.upcoming 0).out with
  | ok =>
    rw [State.issue_eq_afterEvents (sh .ok)]
    exact ⟨_, ⟨by simp [State.gives_one, Event.answeredBy, h], nw _, fr .ok, by simp [Event.succeeded], by simp [hQ]⟩, rfl, rfl⟩
  | fail =>
    rw [State.issue_eq_afterEvents (sh .fail)]
    exact ⟨_, [], _, ⟨by simp [State.gives_one, Event.answeredBy, h], nw _, fr .fail, by simp, .pin l lvl, by simp [hQ]⟩, rfl⟩
  | noReturn =>
    rw [State.issue_eq_afterEvents (sh .noReturn)]
    exact ⟨[], _, ⟨by simp [State.gives_one, Event.answeredBy, h], nw _, fr .noReturn, by simp, rfl, by simp [hQ]⟩, rfl⟩

/-- A `Delay` (R119): it never fails (R15). -/
theorem explained_lineDelay {Q : Event → Prop} (n : Nat) (hQ : ∀ o, Q (.delay n o)) (s : State) :
    (lineDelay n s).Explained Q ⟨0, 0, 0, 1⟩ s := by
  have sh : ∀ o, shadowAfter s.cfg [.delay n o] s.shadow = s.shadow := fun _ => rfl
  rw [lineDelay_eq]
  cases h : (s.upcoming 0).out with
  | ok =>
    rw [State.issue_eq_afterEvents (sh .ok)]
    exact ⟨_, ⟨by simp [State.gives_one, Event.answeredBy, h], fun _ => rfl, rfl, by simp [Event.succeeded], by simp [hQ]⟩, rfl, rfl⟩
  | fail =>
    rw [State.issue_eq_afterEvents (sh .ok)]
    exact ⟨_, ⟨by simp [State.gives_one, Event.answeredBy, h], fun _ => rfl, rfl, by simp [Event.succeeded], by simp [hQ]⟩, rfl, rfl⟩
  | noReturn =>
    rw [State.issue_eq_afterEvents (sh .noReturn)]
    exact ⟨[], _, ⟨by simp [State.gives_one, Event.answeredBy, h], fun _ => rfl, rfl, by simp, rfl, by simp [hQ]⟩, rfl⟩

/-! ### Framed events and the shadow -/

@[simp] theorem frameStep_broken (evs : List Event) : evs.foldl frameStep .broken = .broken := by
  induction evs with
  | nil => rfl
  | cons e evs ih => exact ih

/-- Nothing follows a primitive that never returned. -/
theorem frameStep_stuck {evs : List Event} (h : evs.foldl frameStep .stuck ≠ .broken) : evs = [] := by
  cases evs with
  | nil => rfl
  | cons e evs => exact absurd (frameStep_broken evs) h

/-- No successful write transaction to `a` is among the events. -/
def NoWriteTo (a : Addr) (evs : List Event) : Prop := ∀ f, writeTxn f <:+: evs → frameAddr f ≠ a

theorem NoWriteTo.tail {a : Addr} {e : Event} {evs : List Event} (h : NoWriteTo a (e :: evs)) : NoWriteTo a evs :=
  fun f hf => h f (hf.trans (List.suffix_cons e evs).isInfix)

/-- Framed events that hold no successful write transaction to `a` leave its entry (R105), read from each place in a transaction:
between two, after an assertion, and after a transfer, where a write may wait for its release. -/
theorem findCell_shadow_framed_at {c : Config} {a : Addr} (evs : List Event) (cells : List ShadowCell) :
    (evs.foldl frameStep .between ≠ .broken → NoWriteTo a evs →
      findCell (evs.foldl (shadowStep c) (none, cells)).2 a = findCell cells a) ∧
    (evs.foldl frameStep .asserted ≠ .broken → NoWriteTo a (.pinSet .csN false .ok :: evs) →
      findCell (evs.foldl (shadowStep c) (none, cells)).2 a = findCell cells a) ∧
    (∀ o, evs.foldl frameStep .transferred ≠ .broken → NoWriteTo a evs →
      (∀ f, o = some f → NoWriteTo a (.pinSet .csN false .ok :: .busWrite f .ok :: evs)) →
      findCell (evs.foldl (shadowStep c) (o, cells)).2 a = findCell cells a) := by
  induction evs generalizing cells with
  | nil => exact ⟨fun _ _ => rfl, fun _ _ => rfl, fun _ _ _ _ => rfl⟩
  | cons e evs ih =>
    simp only [List.foldl_cons]
    refine ⟨fun hm ht => ?_, fun hm ht => ?_, fun o hm ht hw => ?_⟩
    · cases e with
      | pinSet l lvl r =>
        have hs : shadowStep c (none, cells) (.pinSet l lvl r) = (none, cells) := by
          cases l <;> cases lvl <;> cases r <;> rfl
        rw [hs]
        cases l <;> cases lvl <;> cases r <;>
          first
          | exact (ih cells).1 hm ht.tail
          | exact (ih cells).2.1 hm ht
          | rw [frameStep_stuck hm]; rfl
      | delay n r =>
        have hs : shadowStep c (none, cells) (.delay n r) = (none, cells) := rfl
        rw [hs]
        cases r <;>
          first
          | exact (ih cells).1 hm ht.tail
          | rw [frameStep_stuck hm]; rfl
      | busXfer f r => exact absurd (frameStep_broken evs) hm
      | busWrite f r => exact absurd (frameStep_broken evs) hm
    · cases e with
      | pinSet l lvl r => exact absurd (frameStep_broken evs) hm
      | delay n r => exact absurd (frameStep_broken evs) hm
      | busXfer f r =>
        have hs : shadowStep c (none, cells) (.busXfer f r) = (none, cells) := rfl
        rw [hs]
        cases r with
        | noReturn => rw [frameStep_stuck hm]; rfl
        | ok rx => exact (ih cells).2.2 none hm ht.tail.tail (by simp)
        | fail => exact (ih cells).2.2 none hm ht.tail.tail (by simp)
      | busWrite f r =>
        cases r with
        | noReturn => rw [frameStep_stuck hm]; rfl
        | fail => exact (ih cells).2.2 none hm ht.tail.tail (by simp)
        | ok => exact (ih cells).2.2 (some f) hm ht.tail.tail (by intro g hg; cases hg; exact ht)
    · cases e with
      | delay n r => exact absurd (frameStep_broken evs) hm
      | busXfer f r => exact absurd (frameStep_broken evs) hm
      | busWrite f r => exact absurd (frameStep_broken evs) hm
      | pinSet l lvl r =>
        cases l <;> cases lvl <;> cases r <;> try exact absurd (frameStep_broken evs) hm
        · cases o with
          | none => exact (ih cells).1 hm ht.tail
          | some f =>
            have hf : frameAddr f ≠ a := hw f rfl f ⟨[], evs, rfl⟩
            rw [show shadowStep c (some f, cells) (.pinSet .csN true .ok) = (none, _) from rfl, (ih _).1 hm ht.tail]
            split
            · exact findCell_putCell_ne cells _ hf
            · rfl
        · cases o <;> exact (ih cells).1 hm ht.tail
        · rw [frameStep_stuck hm]
          cases o <;> rfl

/-- Framed events that hold no successful write transaction to `a` leave its entry (R105). -/
theorem findCell_shadowAfter_framed {c : Config} {a : Addr} {evs : List Event} (cells : List ShadowCell)
    (hm : evs.foldl frameStep .between ≠ .broken) (h : NoWriteTo a evs) :
    findCell (shadowAfter c evs cells) a = findCell cells a :=
  (findCell_shadow_framed_at evs cells).1 hm h

end Sys2Proof.Machine
end

