-- ==== Sys2Proof/Laws/Exec.lean ====
section
/-! SUPPORT. What every instruction does, said once: not accepted, answered with NOT_INITIALIZED, or one of the four endings of
Laws/Commands.lean with the events, the lines, the written addresses and the primitive counts its rule allows. -/

namespace Sys2Proof.Machine

/-- The events an instruction may issue: it drives its lines, reads only if it drives chip-select, writes its addresses. -/
def Allowed (i : Instr) (e : Event) : Prop :=
  match e with
  | .pinSet l _ _ => l ∈ mayDrive i
  | .busXfer _ _ => Line.csN ∈ mayDrive i
  | .busWrite f _ => Line.csN ∈ mayDrive i ∧ frameAddr f ∈ mayWrite i
  | .delay _ _ => Line.step ∈ mayDrive i

/-- How an accepted instruction ends. -/
inductive Ending (i : Instr) (s t : State) : Prop where
  | completed (evs : List Event) (x y : Word) (h : Succeeds (Allowed i) s evs)
      (counts : countsOf evs = primitiveCounts s.cfg i)
      (keep0 : writesResult0 i = false → x = s.result0) (keep1 : writesResult1 i = false → y = s.result1)
      (bit1 : y = s.result1 ∨ y = 0#32 ∨ y = 1#32)
      (eq : t = { s.afterEvents evs with
        status := if isCommand i then 0#32 else s.status, result0 := x, result1 := y })
  | rejected (c : ErrCode) (code : c.code ∈ mayEndWith i) (which : c = .invalidArgument ∨ c = .notInitialized)
      (eq : t = { s with status := statusWord c false })
  | stopped (st : Word) (c : ErrCode) (csf : Bool) (before tail : List Event)
      (h : Stops (Allowed i) s st c csf before tail)
      (eq : t = { s.afterEvents (before ++ tail) with status := st })
  | held (before : List Event) (e : Event) (h : Hangs (Allowed i) s before e)
      (eq : t = { s.afterEvents (before ++ [e]) with busy := .running })

theorem FailsAs.statusWord_eq {st : Word} {c : ErrCode} {csf : Bool} {tail : List Event} (h : FailsAs st c csf tail) :
    statusWord c csf = st := by
  cases h <;> decide

/-- A command that is not accepted, or not ready (R31, R149). -/
theorem command_busy {α : Type} (body : State → Run α) {s : State} (h : s.busy ≠ .idle) : command body s = s := by
  unfold command
  cases hb : s.busy <;> simp_all

theorem command_notReady {α : Type} (body : State → Run α) {s : State} (h : s.busy = .idle) (hr : s.ready = false) :
    command body s = { s with status := 0x4#32 } := by
  simp only [command, h, hr, State.raise]
  have : statusWord .notInitialized false = 0x4#32 := by decide
  rw [this, ← h]
  rfl

theorem command_accepts {α : Type} (body : State → Run α) {s : State} (h : s.Accepts) :
    command body s = (body { s with busy := .running }).finish := by
  simp [command, h.1, h.2]

theorem frameTxn_busy {α : Type} (body : State → Run α) {s : State} (h : s.busy ≠ .idle) : frameTxn body s = s := by
  unfold frameTxn
  cases hb : s.busy <;> simp_all

theorem frameTxn_notReady {α : Type} (body : State → Run α) {s : State} (h : s.busy = .idle) (hr : s.ready = false) :
    frameTxn body s = { s with status := 0x4#32 } := by
  simp only [frameTxn, h, hr, State.raise]
  have : statusWord .notInitialized false = 0x4#32 := by decide
  rw [this, ← h]
  rfl

theorem frameTxn_accepts {α : Type} (body : State → Run α) {s : State} (h : s.Accepts) :
    frameTxn body s = (body { s with busy := .running }).finishFrame := by
  simp [frameTxn, h.1, h.2]

/-! ### From the state with `BUSY = 1` to the state before -/

theorem State.afterEvents_running (s : State) (evs : List Event) :
    State.afterEvents { s with busy := .running } evs = { s.afterEvents evs with busy := .running } := by
  rw [State.afterEvents_eq, State.afterEvents_eq s]
  simp only [State.mk.injEq, true_and, and_true]
  exact ⟨State.dropDraws_env_congr (by rfl) _, State.dropDraws_drawCount_congr (by rfl) (by rfl) _⟩

theorem Succeeds.ofRunning {Q : Event → Prop} {s : State} {evs : List Event}
    (h : Succeeds Q { s with busy := .running } evs) : Succeeds Q s evs :=
  ⟨(State.gives_congr (by rfl) (by rfl) evs).symm.trans h.gives, h.noneWaiting, h.framed, h.succeeded, h.allowed⟩

theorem Stops.ofRunning {Q : Event → Prop} {s : State} {st : Word} {c : ErrCode} {csf : Bool} {before tail : List Event}
    (h : Stops Q { s with busy := .running } st c csf before tail) : Stops Q s st c csf before tail :=
  ⟨(State.gives_congr (by rfl) (by rfl) _).symm.trans h.gives, h.noneWaiting, h.framed, h.succeeded, h.fails, h.allowed⟩

theorem Hangs.ofRunning {Q : Event → Prop} {s : State} {before : List Event} {e : Event}
    (h : Hangs Q { s with busy := .running } before e) : Hangs Q s before e :=
  ⟨(State.gives_congr (by rfl) (by rfl) _).symm.trans h.gives, h.noneWaiting, h.framed, h.returned, h.hangs, h.allowed⟩

/-- A body that is explained pseudocode followed by result writes ends as its instruction may. -/
theorem ending_of_explained {α : Type} {i : Instr} {s : State} (hs : s.Accepts) {piece : State → Run α}
    {w : α → State → State} (hi : isCommand i = true)
    (hp : (piece { s with busy := .running }).Explained (Allowed i) (primitiveCounts s.cfg i) { s with busy := .running })
    (hw : ∀ a t, ∃ x y, w a t = { t with result0 := x, result1 := y } ∧ (writesResult0 i = false → x = t.result0) ∧
      (writesResult1 i = false → y = t.result1) ∧ (y = t.result1 ∨ y = 0#32 ∨ y = 1#32)) :
    Ending i s ((piece { s with busy := .running }).andThen fun a t => Run.done () (w a t)).finish := by
  cases hr : piece { s with busy := .running } with
  | done a t =>
    rw [hr] at hp
    obtain ⟨evs, he, hk, rfl⟩ := hp
    obtain ⟨x, y, hx, h0, h1, h2⟩ := hw a (State.afterEvents { s with busy := .running } evs)
    refine .completed evs x y he.ofRunning hk ?_ ?_ ?_ ?_
    · simpa using h0
    · simpa using h1
    · simpa using h2
    · simp only [Run.andThen, Run.finish, State.complete, hi, statusOk, if_true]
      rw [hx, State.afterEvents_running]
      have hb : Activity.idle = (s.afterEvents evs).busy := by simp [hs.1]
      rw [hb]
  | raised c csf t =>
    rw [hr] at hp
    obtain ⟨st, before, tail, h, rfl⟩ := hp
    refine .stopped st c csf before tail h.ofRunning ?_
    simp only [Run.andThen, Run.finish, State.raise, State.afterEvents_running, h.fails.statusWord_eq]
    have hb : Activity.idle = (s.afterEvents (before ++ tail)).busy := by simp [hs.1]
    rw [hb]
  | hung t =>
    rw [hr] at hp
    obtain ⟨before, e, h, rfl⟩ := hp
    refine .held before e h.ofRunning ?_
    simp only [Run.andThen, Run.finish, State.afterEvents_running]

/-- The same with no result write. -/
theorem ending_of_explained_unit {i : Instr} {s : State} (hs : s.Accepts) {piece : State → Run Unit}
    (hi : isCommand i = true)
    (hp : (piece { s with busy := .running }).Explained (Allowed i) (primitiveCounts s.cfg i) { s with busy := .running }) :
    Ending i s (piece { s with busy := .running }).finish := by
  have h := ending_of_explained (piece := piece) (w := fun _ t => t) hs hi hp
    (fun _ t => ⟨t.result0, t.result1, rfl, fun _ => rfl, fun _ => rfl, .inl rfl⟩)
  have e : ((piece { s with busy := .running }).andThen fun _ t => Run.done () t).finish =
      (piece { s with busy := .running }).finish := by
    cases piece { s with busy := .running } <;> rfl
  rwa [e] at h

/-- A wire row is explained pseudocode with no command around it (log 8). -/
theorem ending_of_frame {α : Type} {i : Instr} {s : State} (hs : s.Accepts) {piece : State → Run α} (hi : isCommand i = false)
    (hp : (piece { s with busy := .running }).Explained (Allowed i) (primitiveCounts s.cfg i) { s with busy := .running }) :
    Ending i s (piece { s with busy := .running }).finishFrame := by
  cases hr : piece { s with busy := .running } with
  | done a t =>
    rw [hr] at hp
    obtain ⟨evs, he, hk, rfl⟩ := hp
    refine .completed evs s.result0 s.result1 he.ofRunning hk (fun _ => rfl) (fun _ => rfl) (.inl rfl) ?_
    simp only [Run.finishFrame, State.afterEvents_running, hi]
    have hb : Activity.idle = (s.afterEvents evs).busy := by simp [hs.1]
    rw [hb]
    simp
  | raised c csf t =>
    rw [hr] at hp
    obtain ⟨st, before, tail, h, rfl⟩ := hp
    refine .stopped st c csf before tail h.ofRunning ?_
    simp only [Run.finishFrame, State.raise, State.afterEvents_running, h.fails.statusWord_eq]
    have hb : Activity.idle = (s.afterEvents (before ++ tail)).busy := by simp [hs.1]
    rw [hb]
  | hung t =>
    rw [hr] at hp
    obtain ⟨before, e, h, rfl⟩ := hp
    refine .held before e h.ofRunning ?_
    simp only [Run.finishFrame, State.afterEvents_running]

/-- A rejection (R125). -/
theorem ending_of_rejected {i : Instr} {s : State} (hs : s.Accepts) {c : ErrCode} (code : c.code ∈ mayEndWith i)
    (which : c = .invalidArgument ∨ c = .notInitialized) :
    Ending i s (Run.raised (α := Unit) c false { s with busy := .running }).finish := by
  refine .rejected c code which ?_
  simp only [Run.finish, State.raise]
  rw [← hs.1]

theorem allowed_read {i : Instr} (h : Line.csN ∈ mayDrive i) : ∀ e, OkRead e → Allowed i e := by
  rintro e (⟨b, o, rfl⟩ | ⟨f, o, rfl⟩) <;> exact h

theorem allowed_write {i : Instr} {a : Addr} (h : Line.csN ∈ mayDrive i) (ha : a ∈ mayWrite i) :
    ∀ e, OkWrite a e → Allowed i e := by
  rintro e (⟨b, o, rfl⟩ | ⟨f, o, rfl, rfl⟩)
  · exact h
  · exact ⟨h, ha⟩

theorem setResult0_keeps {i : Instr} (h : writesResult0 i = true) (v : Word) (t : State) :
    ∃ x y, t.setResult0 v = { t with result0 := x, result1 := y } ∧ (writesResult0 i = false → x = t.result0) ∧
      (writesResult1 i = false → y = t.result1) ∧ (y = t.result1 ∨ y = 0#32 ∨ y = 1#32) :=
  ⟨v, t.result1, rfl, by simp [h], fun _ => rfl, .inl rfl⟩

/-- The body of MODIFY_FIELD, its rejections and its two sources of the current value (R97). -/
theorem ending_modifyField {s : State} (hs : s.Accepts) (a : Addr) (off : BitVec 5) (wid : BitVec 6) (x : Word) :
    Ending (.modifyField a off wid x) s
      (modifyFieldBody a off.toNat wid.toNat x { s with busy := .running }).finish := by
  have hw := allowed_write (i := .modifyField a off wid x) (a := a) (by simp [mayDrive]) (by simp [mayWrite])
  have hr := allowed_read (i := .modifyField a off wid x) (by simp [mayDrive])
  unfold modifyFieldBody
  split
  · unfold currentForModify
    split
    next htr =>
      cases hc : State.cacheGet { s with busy := .running } a with
      | none => exact ending_of_rejected hs (by simp [mayEndWith, ErrCode.code]) (.inr rfl)
      | some d =>
        simp only [Run.andThen]
        exact ending_of_explained (piece := regWrite a (setField d off.toNat wid.toNat x)) hs rfl
          (by
            have : primitiveCounts s.cfg (.modifyField a off wid x) = ⟨0, 1, 2, 0⟩ := by
              simp only [primitiveCounts]
              exact if_pos htr
            rw [this]
            exact explained_regWrite a _ hw _)
          (fun _ t => setResult0_keeps rfl _ t)
    next htr =>
      have h1 : primitiveCounts s.cfg (.modifyField a off wid x) = ⟨1, 1, 4, 0⟩ := by
        simp only [primitiveCounts]
        exact if_neg htr
      have h := ending_of_explained (i := .modifyField a off wid x)
        (piece := fun s => (regRead a s).andThen fun cur s =>
          (regWrite a (setField cur off.toNat wid.toNat x) s).andThen fun _ s =>
            .done (setField cur off.toNat wid.toNat x) s)
        (w := fun v t => t.setResult0 v) hs rfl
        (by
          rw [h1]
          exact (explained_regRead hr a _).andThen (L := ⟨0, 1, 2, 0⟩) fun cur t _ =>
            (explained_regWrite a _ hw t).andThen (L := ⟨0, 0, 0, 0⟩) fun _ u _ => .done _ _ u)
        (fun v t => setResult0_keeps rfl v t)
      have e : ∀ r : Run Word, ((r.andThen fun cur s =>
          (regWrite a (setField cur off.toNat wid.toNat x) s).andThen fun _ s =>
            Run.done (setField cur off.toNat wid.toNat x) s).andThen fun v t => Run.done () (t.setResult0 v)) =
          r.andThen fun cur s => (regWrite a (setField cur off.toNat wid.toNat x) s).andThen fun _ s =>
            Run.done () (s.setResult0 (setField cur off.toNat wid.toNat x)) := by
        intro r
        cases r with
        | done v t =>
          simp only [Run.andThen]
          cases regWrite a (setField v off.toNat wid.toNat x) t <;> rfl
        | raised c csf t => rfl
        | hung t => rfl
      simp only [e] at h
      exact h
  · exact ending_of_rejected hs (by simp [mayEndWith, ErrCode.code]) (.inl rfl)

/-- Every instruction that is accepted (R31, R32) ends in one of the four ways. -/
theorem exec_ending (i : Instr) {s : State} (hs : s.Accepts) : ∃ t, exec i s = .next t ∧ Ending i s t := by
  cases i with
  | readReg a =>
    refine ⟨_, rfl, ?_⟩
    rw [command_accepts _ hs]
    exact ending_of_explained hs rfl (explained_regRead (allowed_read (by simp [mayDrive])) a _)
      (fun v t => setResult0_keeps rfl v t)
  | writeReg a v =>
    refine ⟨_, rfl, ?_⟩
    rw [command_accepts _ hs]
    exact ending_of_explained hs rfl
      (explained_regWrite a v (allowed_write (by simp [mayDrive]) (by simp [mayWrite])) _)
      (fun _ t => setResult0_keeps rfl v t)
  | modifyField a off wid x =>
    refine ⟨_, rfl, ?_⟩
    rw [command_accepts _ hs]
    exact ending_modifyField hs a off wid x
  | cacheGet a =>
    refine ⟨_, rfl, ?_⟩
    rw [command_accepts _ hs]
    unfold cacheGetBody
    split
    next d _ =>
      exact ending_of_explained (piece := Run.done ()) (w := fun _ t => (t.setResult0 d).setResult1 1#32) hs rfl (.done _ _ _)
        (fun _ t => ⟨d, 1#32, rfl, by simp [writesResult0], by simp [writesResult1], by simp⟩)
    next _ =>
      exact ending_of_explained (piece := Run.done ()) (w := fun _ t => (t.setResult0 0#32).setResult1 0#32) hs rfl (.done _ _ _)
        (fun _ t => ⟨0#32, 0#32, rfl, by simp [writesResult0], by simp [writesResult1], by simp⟩)
  | fieldGet off wid v =>
    refine ⟨_, rfl, ?_⟩
    rw [command_accepts _ hs]
    unfold fieldGetBody
    split
    · exact ending_of_explained (piece := Run.done ()) (w := fun _ t => t.setResult0 (getField v off.toNat wid.toNat)) hs rfl
        (.done _ _ _) (fun _ t => setResult0_keeps rfl _ t)
    · exact ending_of_rejected hs (by simp [mayEndWith, ErrCode.code]) (.inl rfl)
  | fieldSet off wid v x =>
    refine ⟨_, rfl, ?_⟩
    rw [command_accepts _ hs]
    unfold fieldSetBody
    split
    · exact ending_of_explained (piece := Run.done ()) (w := fun _ t => t.setResult0 (setField v off.toNat wid.toNat x)) hs
        rfl (.done _ _ _) (fun _ t => setResult0_keeps rfl _ t)
    · exact ending_of_rejected hs (by simp [mayEndWith, ErrCode.code]) (.inl rfl)
  | init =>
    refine ⟨_, rfl, ?_⟩
    rw [command_accepts _ hs]
    exact ending_of_explained_unit (piece := initBody) hs rfl
      ((explained_regWrite _ _ (allowed_write (by simp [mayDrive]) (by simp [mayWrite, regIholdIrun])) _).andThen
        (L := ⟨2, 2, 8, 0⟩) fun _ t _ =>
        (explained_modifyChopconf (allowed_read (by simp [mayDrive]))
          (allowed_write (by simp [mayDrive]) (by simp [mayWrite, regChopconf])) _ _ t).andThen (L := ⟨1, 1, 4, 0⟩) fun _ t _ =>
          (explained_modifyChopconf (allowed_read (by simp [mayDrive]))
            (allowed_write (by simp [mayDrive]) (by simp [mayWrite, regChopconf])) _ _ t).andThen
            (L := ⟨0, 0, 0, 0⟩) fun _ t _ => .done _ _ t)
  | resetCfg =>
    refine ⟨_, rfl, ?_⟩
    rw [command_accepts _ hs]
    exact ending_of_explained_unit (piece := resetCfgBody) hs rfl
      ((explained_regWrite _ _ (allowed_write (by simp [mayDrive]) (by simp [mayWrite, regIholdIrun])) _).andThen
        (L := ⟨1, 1, 4, 0⟩) fun _ t _ =>
        (explained_modifyChopconf (allowed_read (by simp [mayDrive]))
          (allowed_write (by simp [mayDrive]) (by simp [mayWrite, regChopconf])) _ _ t).andThen
          (L := ⟨0, 0, 0, 0⟩) fun _ t _ => .done _ _ t)
  | setCurrent run hold delay =>
    refine ⟨_, rfl, ?_⟩
    rw [command_accepts _ hs]
    unfold setCurrentBody
    split
    · exact ending_of_explained hs rfl
        (explained_regWrite _ _ (allowed_write (by simp [mayDrive]) (by simp [mayWrite, regIholdIrun])) _)
        (fun _ t => setResult0_keeps rfl _ t)
    · exact ending_of_rejected hs (by simp [mayEndWith, ErrCode.code]) (.inl rfl)
  | setMicrosteps code =>
    refine ⟨_, rfl, ?_⟩
    rw [command_accepts _ hs]
    unfold setMicrostepsBody
    split
    · exact ending_of_explained (piece := modifyChopconf s.cfg.mresField code) hs rfl
        (explained_modifyChopconf (allowed_read (by simp [mayDrive]))
          (allowed_write (by simp [mayDrive]) (by simp [mayWrite, regChopconf])) _ _ _)
        (fun v t => setResult0_keeps rfl v t)
    · exact ending_of_rejected hs (by simp [mayEndWith, ErrCode.code]) (.inl rfl)
  | getDriverStatus =>
    refine ⟨_, rfl, ?_⟩
    rw [command_accepts _ hs]
    have h := ending_of_explained (i := .getDriverStatus)
      (piece := fun s => (regRead regGstat s).andThen fun g s =>
        (regRead regDrvStatus s).andThen fun d s => Run.done (driverStatus g d) s)
      (w := fun v t => t.setResult0 v) hs rfl
      ((explained_regRead (allowed_read (by simp [mayDrive])) _ _).andThen (L := ⟨1, 0, 2, 0⟩) fun _ t _ =>
        (explained_regRead (allowed_read (by simp [mayDrive])) _ t).andThen (L := ⟨0, 0, 0, 0⟩) fun _ u _ => .done _ _ u)
      (fun v t => setResult0_keeps rfl v t)
    have e : ∀ r : Run Word, ((r.andThen fun g s =>
        (regRead regDrvStatus s).andThen fun d s => Run.done (driverStatus g d) s).andThen
          fun v t => Run.done () (t.setResult0 v)) =
        r.andThen fun g s => (regRead regDrvStatus s).andThen fun d s => Run.done () (s.setResult0 (driverStatus g d)) := by
      intro r
      cases r with
      | done v t =>
        simp only [Run.andThen]
        cases regRead regDrvStatus t <;> rfl
      | raised c csf t => rfl
      | hung t => rfl
    simp only [e] at h
    exact h
  | enableDriver =>
    refine ⟨_, rfl, ?_⟩
    rw [command_accepts _ hs]
    exact ending_of_explained_unit (piece := linePin .enN false) hs rfl
      (explained_linePin (by decide) _ (fun _ => by simp [Allowed, mayDrive]) _)
  | disableDriver =>
    refine ⟨_, rfl, ?_⟩
    rw [command_accepts _ hs]
    exact ending_of_explained_unit (piece := linePin .enN true) hs rfl
      (explained_linePin (by decide) _ (fun _ => by simp [Allowed, mayDrive]) _)
  | setDirection d =>
    refine ⟨_, rfl, ?_⟩
    rw [command_accepts _ hs]
    unfold setDirectionBody
    split
    next lvl _ =>
      exact ending_of_explained_unit (piece := linePin .dir lvl) hs rfl
        (explained_linePin (by decide) _ (fun _ => by simp [Allowed, mayDrive]) _)
    next _ => exact ending_of_rejected hs (by simp [mayEndWith, ErrCode.code]) (.inl rfl)
  | step =>
    refine ⟨_, rfl, ?_⟩
    rw [command_accepts _ hs]
    exact ending_of_explained_unit (piece := stepBody) hs rfl
      ((explained_linePin (by decide) _ (fun _ => by simp [Allowed, mayDrive]) _).andThen (L := ⟨0, 0, 1, 1⟩) fun _ t _ =>
        (explained_lineDelay _ (fun _ => by simp [Allowed, mayDrive]) t).andThen (L := ⟨0, 0, 1, 0⟩) fun _ u _ =>
          explained_linePin (by decide) _ (fun _ => by simp [Allowed, mayDrive]) u)
  | wireRead a p =>
    refine ⟨_, rfl, ?_⟩
    rw [frameTxn_accepts _ hs]
    exact ending_of_frame hs rfl (explained_txnRead (allowed_read (by simp [mayDrive])) _ _)
  | wireWrite a v =>
    refine ⟨_, rfl, ?_⟩
    rw [frameTxn_accepts _ hs]
    exact ending_of_frame hs rfl
      (explained_regWrite a v (allowed_write (by simp [mayDrive]) (by simp [mayWrite])) _)

/-- An instruction presented while `BUSY = 1` has no effect (R149). -/
theorem exec_busy (i : Instr) {s : State} (h : s.busy ≠ .idle) : exec i s = .next s := by
  cases i <;>
    simp only [exec, execReadReg, execWriteReg, execModifyField, execCacheGet, execFieldGet, execFieldSet, execInit, execResetCfg,
      execSetCurrent, execSetMicrosteps, execGetDriverStatus, execEnableDriver, execDisableDriver, execSetDirection, execStep,
      execWireRead, execWireWrite, command_busy _ h, frameTxn_busy _ h]

/-- An instruction run while `READY = 0` is answered with NOT_INITIALIZED (R31). -/
theorem exec_notReady (i : Instr) {s : State} (h : s.busy = .idle) (hr : s.ready = false) :
    exec i s = .next { s with status := 0x4#32 } := by
  cases i <;>
    simp only [exec, execReadReg, execWriteReg, execModifyField, execCacheGet, execFieldGet, execFieldSet, execInit, execResetCfg,
      execSetCurrent, execSetMicrosteps, execGetDriverStatus, execEnableDriver, execDisableDriver, execSetDirection, execStep,
      execWireRead, execWireWrite, command_notReady _ h hr, frameTxn_notReady _ h hr]

/-- What exec can answer, said once: the state itself, NOT_INITIALIZED, or an ending. -/
theorem exec_cases {i : Instr} {s t : State} (h : exec i s = .next t) :
    (s.busy ≠ .idle ∧ t = s) ∨ (s.busy = .idle ∧ s.ready = false ∧ t = { s with status := 0x4#32 }) ∨
      (s.Accepts ∧ Ending i s t) := by
  by_cases hb : s.busy = .idle
  · rcases Bool.eq_false_or_eq_true s.ready with hr | hr
    · obtain ⟨u, hu, he⟩ := exec_ending i (s := s) ⟨hb, hr⟩
      rw [hu] at h
      injection h with h
      subst h
      exact .inr (.inr ⟨⟨hb, hr⟩, he⟩)
    · rw [exec_notReady i hb hr] at h
      exact .inr (.inl ⟨hb, hr, by injection h with h; exact h.symm⟩)
  · rw [exec_busy i hb] at h
    exact .inl ⟨hb, by injection h with h; exact h.symm⟩

end Sys2Proof.Machine
end

