-- ==== Sys2Proof/Laws/PerInstr.lean ====
section
/-! SUPPORT. The statement made once per instruction: the words the encoder gives a well-formed instruction carry its row of
spec/opcode_table.json, the row's match under the row's mask. The rows' numbers are written out here from the table, apart from
the encoder's. -/

namespace Sys2Proof.Laws.OpcodeRow

/-- A row of the table. -/
structure Row where
  width : Nat
  mask : Nat
  matchBits : Nat

/-- The row of an instruction, from spec/opcode_table.json. -/
def row : Instr → Row
  | .readReg _ => ⟨32, 0xFF80FFFF, 0x01000000⟩
  | .writeReg _ _ => ⟨32, 0xFF80FFFF, 0x02000000⟩
  | .modifyField _ _ _ _ => ⟨32, 0xFF80C0E0, 0x03000000⟩
  | .cacheGet _ => ⟨32, 0xFF80FFFF, 0x04000000⟩
  | .fieldGet _ _ _ => ⟨32, 0xFFFFC0E0, 0x10000000⟩
  | .fieldSet _ _ _ _ => ⟨32, 0xFFFFC0E0, 0x11000000⟩
  | .init => ⟨32, 0xFFFFFFFF, 0x20000000⟩
  | .resetCfg => ⟨32, 0xFFFFFFFF, 0x21000000⟩
  | .setCurrent _ _ _ => ⟨32, 0xFFFFFFFF, 0x22000000⟩
  | .setMicrosteps _ => ⟨32, 0xFFFFFFFF, 0x23000000⟩
  | .getDriverStatus => ⟨32, 0xFFFFFFFF, 0x24000000⟩
  | .enableDriver => ⟨32, 0xFFFFFFFF, 0x30000000⟩
  | .disableDriver => ⟨32, 0xFFFFFFFF, 0x31000000⟩
  | .setDirection _ => ⟨32, 0xFFFFFFFF, 0x32000000⟩
  | .step => ⟨32, 0xFFFFFFFF, 0x33000000⟩
  | .wireRead _ _ => ⟨40, 0x80FFFFFFFF, 0x0000000000⟩
  | .wireWrite _ _ => ⟨40, 0x8000000000, 0x8000000000⟩

/-- The words carry the row: a command's header is the row's 32 bits, a frame its 40. -/
def Carries (r : Row) : Packet → Prop
  | .command c => r.width = 32 ∧ c.H &&& BitVec.ofNat 32 r.mask = BitVec.ofNat 32 r.matchBits
  | .frame w => r.width = 40 ∧ w &&& BitVec.ofNat 40 r.mask = BitVec.ofNat 40 r.matchBits

/-- The instruction's words carry its row of the opcode table. -/
def Statement (i : Instr) : Prop := WellFormed i → Carries (row i) (encode i)

/-- A header with every field, under the mask of the shape ADDR, WID, OFF (R70). -/
theorem header_field (o : Opcode) (addr : Addr) (wid : BitVec 6) (off : BitVec 5) :
    header o addr wid off &&& 0xFF80C0E0#32 = o.matchWord := by
  apply BitVec.eq_of_getLsbD_eq
  intro i hi
  unfold header Opcode.matchWord
  generalize o.byte = b
  rw [BitVec.getLsbD_and, BitVec.getLsbD_append, BitVec.getLsbD_append, BitVec.getLsbD_append, BitVec.getLsbD_append,
    BitVec.getLsbD_append, BitVec.getLsbD_append, BitVec.getLsbD_append]
  interval_cases i <;> simp

/-- A header with ADDR alone, under its shape's mask (R70). -/
theorem header_addr (o : Opcode) (addr : Addr) :
    header o addr 0 0 &&& 0xFF80FFFF#32 = o.matchWord := by
  apply BitVec.eq_of_getLsbD_eq
  intro i hi
  unfold header Opcode.matchWord
  generalize o.byte = b
  rw [BitVec.getLsbD_and, BitVec.getLsbD_append, BitVec.getLsbD_append, BitVec.getLsbD_append, BitVec.getLsbD_append,
    BitVec.getLsbD_append, BitVec.getLsbD_append, BitVec.getLsbD_append]
  interval_cases i <;> simp

/-- A header with WID and OFF, under their shape's mask (R70). -/
theorem header_codec (o : Opcode) (wid : BitVec 6) (off : BitVec 5) :
    header o 0 wid off &&& 0xFFFFC0E0#32 = o.matchWord := by
  apply BitVec.eq_of_getLsbD_eq
  intro i hi
  unfold header Opcode.matchWord
  generalize o.byte = b
  rw [BitVec.getLsbD_and, BitVec.getLsbD_append, BitVec.getLsbD_append, BitVec.getLsbD_append, BitVec.getLsbD_append,
    BitVec.getLsbD_append, BitVec.getLsbD_append, BitVec.getLsbD_append]
  interval_cases i <;> simp

theorem readReg (addr : Addr) : Statement (.readReg addr) := by
  refine fun _ => ⟨rfl, ?_⟩
  simp only [row]
  exact (header_addr .readReg addr).trans (by decide)

theorem writeReg (addr : Addr) (value : Word) : Statement (.writeReg addr value) := by
  refine fun _ => ⟨rfl, ?_⟩
  simp only [row]
  exact (header_addr .writeReg addr).trans (by decide)

theorem modifyField (addr : Addr) (off : BitVec 5) (wid : BitVec 6) (x : Word) : Statement (.modifyField addr off wid x) := by
  refine fun _ => ⟨rfl, ?_⟩
  simp only [row]
  exact (header_field .modifyField addr wid off).trans (by decide)

theorem cacheGet (addr : Addr) : Statement (.cacheGet addr) := by
  refine fun _ => ⟨rfl, ?_⟩
  simp only [row]
  exact (header_addr .cacheGet addr).trans (by decide)

theorem fieldGet (off : BitVec 5) (wid : BitVec 6) (value : Word) : Statement (.fieldGet off wid value) := by
  refine fun _ => ⟨rfl, ?_⟩
  simp only [row]
  exact (header_codec .fieldGet wid off).trans (by decide)

theorem fieldSet (off : BitVec 5) (wid : BitVec 6) (value : Word) (x : Word) : Statement (.fieldSet off wid value x) := by
  refine fun _ => ⟨rfl, ?_⟩
  simp only [row]
  exact (header_codec .fieldSet wid off).trans (by decide)

theorem init : Statement (.init) :=
  fun _ => ⟨rfl, by decide⟩

theorem resetCfg : Statement (.resetCfg) :=
  fun _ => ⟨rfl, by decide⟩

theorem setCurrent (run : Word) (hold : Word) (delay : Word) : Statement (.setCurrent run hold delay) := by
  refine fun _ => ⟨rfl, ?_⟩
  change header .setCurrent 0 0 0 &&& 0xFFFFFFFF#32 = 0x22000000#32
  decide

theorem setMicrosteps (code : Word) : Statement (.setMicrosteps code) := by
  refine fun _ => ⟨rfl, ?_⟩
  change header .setMicrosteps 0 0 0 &&& 0xFFFFFFFF#32 = 0x23000000#32
  decide

theorem getDriverStatus : Statement (.getDriverStatus) :=
  fun _ => ⟨rfl, by decide⟩

theorem enableDriver : Statement (.enableDriver) :=
  fun _ => ⟨rfl, by decide⟩

theorem disableDriver : Statement (.disableDriver) :=
  fun _ => ⟨rfl, by decide⟩

theorem setDirection (direction : Word) : Statement (.setDirection direction) := by
  refine fun _ => ⟨rfl, ?_⟩
  change header .setDirection 0 0 0 &&& 0xFFFFFFFF#32 = 0x32000000#32
  decide

theorem step : Statement (.step) :=
  fun _ => ⟨rfl, by decide⟩

theorem wireRead (addr : Addr) (placeholders : Word) : Statement (.wireRead addr placeholders) := by
  intro h
  have hp : placeholders = 0#32 := by
    have e : placeholderWord = 0#32 := by decide
    simpa [WellFormed, Instr.wellFormed, e] using h
  refine ⟨rfl, ?_⟩
  subst hp
  apply BitVec.eq_of_getLsbD_eq
  intro i hi
  rw [BitVec.getLsbD_and, BitVec.getLsbD_append, BitVec.getLsbD_append]
  interval_cases i <;> simp [row]

theorem wireWrite (addr : Addr) (value : Word) : Statement (.wireWrite addr value) := by
  intro _
  refine ⟨rfl, ?_⟩
  apply BitVec.eq_of_getLsbD_eq
  intro i hi
  rw [BitVec.getLsbD_and, BitVec.getLsbD_append, BitVec.getLsbD_append]
  interval_cases i <;> simp [row]

end Sys2Proof.Laws.OpcodeRow
end

