-- ==== Sys2Proof/Laws/Step.lean ====
section
/-! SUPPORT. What a step can do, said once; and the power-on sequence (R140). -/

namespace Sys2Proof.Machine

/-- What an illegal header does (R71), said once. -/
theorem illegalCommand_accepts {s : State} (h : s.Accepts) : illegalCommand s = { s with status := 0x5#32 } := by
  rw [illegalCommand, command_accepts _ h]
  simp only [Run.finish, State.raise]
  have : statusWord .illegalCommand false = 0x5#32 := by decide
  rw [this, ← h.1]

theorem illegalCommand_cases (s : State) :
    (s.busy ≠ .idle ∧ illegalCommand s = s) ∨
      (s.busy = .idle ∧ s.ready = false ∧ illegalCommand s = { s with status := 0x4#32 }) ∨
      (s.Accepts ∧ illegalCommand s = { s with status := 0x5#32 }) := by
  by_cases hb : s.busy = .idle
  · rcases Bool.eq_false_or_eq_true s.ready with hr | hr
    · exact .inr (.inr ⟨⟨hb, hr⟩, illegalCommand_accepts ⟨hb, hr⟩⟩)
    · exact .inr (.inl ⟨hb, hr, command_notReady _ hb hr⟩)
  · exact .inl ⟨hb, command_busy _ hb⟩

/-- A step with something presented runs what the words decode to. -/
theorem step_present {s : State} {p : Packet} {rest : List HostInput} (hb : s.busy ≠ .starting)
    (hi : s.inputs = .present p :: rest) : step s = runPacket p { s with inputs := rest } := by
  unfold step advance
  cases h : s.busy with
  | starting => exact absurd h hb
  | idle => simp only [hi, hostAct]
  | running => simp only [hi, hostAct]

theorem step_reset {s : State} {rest : List HostInput} (hb : s.busy ≠ .starting) (hi : s.inputs = .assertReset :: rest) :
    step s = .next (State.assertReset { s with inputs := rest }) := by
  unfold step advance
  cases h : s.busy with
  | starting => exact absurd h hb
  | idle => simp only [hi, hostAct]
  | running => simp only [hi, hostAct]

theorem step_starting {s : State} (hb : s.busy = .starting) : step s = .next (powerOn s) := by
  unfold step advance
  simp only [hb]

/-- Everything a step can answer as a next state. -/
theorem step_cases {s t : State} (h : step s = .next t) :
    (s.busy = .starting ∧ t = powerOn s) ∨ (s.busy = .idle ∧ s.inputs = [] ∧ t = s) ∨
      (s.busy ≠ .starting ∧ ∃ rest, s.inputs = .assertReset :: rest ∧ t = State.assertReset { s with inputs := rest }) ∨
      (s.busy ≠ .starting ∧ ∃ p rest i, s.inputs = .present p :: rest ∧ decode p = .ok i ∧
        exec i { s with inputs := rest } = .next t) ∨
      (s.busy ≠ .starting ∧ ∃ p rest e, s.inputs = .present p :: rest ∧ decode p = .error e ∧
        t = illegalCommand { s with inputs := rest }) := by
  by_cases hb : s.busy = .starting
  · rw [step_starting hb] at h
    injection h with h
    exact .inl ⟨hb, h.symm⟩
  · cases hi : s.inputs with
    | nil =>
      unfold step advance at h
      cases h2 : s.busy with
      | starting => exact absurd h2 hb
      | idle =>
        simp only [h2, hi] at h
        injection h with h
        exact .inr (.inl ⟨rfl, rfl, h.symm⟩)
      | running => simp [h2, hi] at h
    | cons a rest =>
      cases a with
      | assertReset =>
        rw [step_reset hb hi] at h
        injection h with h
        exact .inr (.inr (.inl ⟨hb, rest, rfl, h.symm⟩))
      | present p =>
        rw [step_present hb hi, runPacket] at h
        cases hd : decode p with
        | ok i =>
          rw [hd] at h
          exact .inr (.inr (.inr (.inl ⟨hb, p, rest, i, rfl, hd, h⟩)))
        | error e =>
          rw [hd] at h
          injection h with h
          exact .inr (.inr (.inr (.inr ⟨hb, p, rest, e, rfl, hd, h.symm⟩)))

/-! ### The power-on sequence -/

/-- The event of one line of the sequence that returned Ok (R140). -/
def powerOnEvent (l : Line) : Event := .pinSet l (l == .csN || l == .enN) .ok

theorem powerOnLevel_eq (l : Line) : powerOnLevel l = (l == .csN || l == .enN) := by
  cases l <;> rfl

theorem powerOnLines_ok (ls : List Line) {s : State} (h : s.gives (ls.map powerOnEvent) = true) :
    powerOnLines ls s =
      { s.issue (ls.map powerOnEvent) with status := 0#32, ready := true, busy := .idle } := by
  induction ls generalizing s with
  | nil => simp [powerOnLines, statusOk]
  | cons l ls ih =>
    simp only [List.map_cons, State.gives, Bool.and_eq_true] at h
    obtain ⟨h0, h1⟩ := h
    have h0' : s.nextOut = .ok := by simpa [powerOnEvent, Event.answeredBy, State.nextOut] using h0
    have hp : s.pinSet l (powerOnLevel l) = s.issue [powerOnEvent l] := by
      rw [State.pinSet_eq_issue, h0', powerOnLevel_eq]
      rfl
    rw [powerOnLines, h0']
    simp only
    rw [hp, ih, ← State.issue_append]
    · rfl
    · rw [State.issue_gives]
      exact h1

theorem powerOnLines_fail (before after : List Line) (l : Line) {s : State}
    (h : s.gives (before.map powerOnEvent ++ [.pinSet l (l == .csN || l == .enN) .fail]) = true) :
    powerOnLines (before ++ l :: after) s =
      { s.issue (before.map powerOnEvent ++ [.pinSet l (l == .csN || l == .enN) .fail]) with
        status := 0x2#32, ready := false, busy := .idle } := by
  induction before generalizing s with
  | nil =>
    simp only [List.map_nil, List.nil_append, State.gives_one, Event.answeredBy, beq_iff_eq] at h
    have h0 : s.nextOut = .fail := h
    have hw : statusWord .pinError false = 0x2#32 := by decide
    simp only [List.nil_append, powerOnLines, h0, List.map_nil, hw]
    rw [State.pinSet_eq_issue, h0, powerOnLevel_eq]
  | cons k ks ih =>
    simp only [List.map_cons, List.cons_append, State.gives, Bool.and_eq_true] at h
    obtain ⟨h0, h1⟩ := h
    have h0' : s.nextOut = .ok := by simpa [powerOnEvent, Event.answeredBy, State.nextOut] using h0
    have hp : s.pinSet k (powerOnLevel k) = s.issue [powerOnEvent k] := by
      rw [State.pinSet_eq_issue, h0', powerOnLevel_eq]
      rfl
    rw [List.cons_append, powerOnLines, h0']
    simp only
    rw [hp, ih, ← State.issue_append]
    · rfl
    · rw [State.issue_gives]
      exact h1

/-- The power-on sequence is one of: every line set, a line that fails, a line whose primitive never returns. -/
theorem powerOnLines_cases (ls : List Line) (s : State) :
    (s.gives (ls.map powerOnEvent) = true ∧ powerOnLines ls s =
      { s.issue (ls.map powerOnEvent) with status := 0#32, ready := true, busy := .idle }) ∨
    (∃ (before after : List Line) (l : Line), ls = before ++ l :: after ∧
      s.gives (before.map powerOnEvent ++ [.pinSet l (l == .csN || l == .enN) .fail]) = true ∧ powerOnLines ls s =
      { s.issue (before.map powerOnEvent ++ [.pinSet l (l == .csN || l == .enN) .fail]) with
        status := 0x2#32, ready := false, busy := .idle }) ∨
    (∃ (before after : List Line) (l : Line), ls = before ++ l :: after ∧
      s.gives (before.map powerOnEvent ++ [.pinSet l (l == .csN || l == .enN) .noReturn]) = true ∧
      powerOnLines ls s = s.issue (before.map powerOnEvent ++ [.pinSet l (l == .csN || l == .enN) .noReturn])) := by
  induction ls generalizing s with
  | nil => exact .inl ⟨rfl, by simp [powerOnLines, statusOk]⟩
  | cons l ls ih =>
    cases h0 : s.nextOut with
    | fail =>
      refine .inr (.inl ⟨[], ls, l, rfl, ?_, ?_⟩)
      · simpa [State.gives_one, Event.answeredBy, State.nextOut] using h0
      · have hw : statusWord .pinError false = 0x2#32 := by decide
        simp only [powerOnLines, h0, List.map_nil, hw, List.nil_append]
        rw [State.pinSet_eq_issue, h0, powerOnLevel_eq]
    | noReturn =>
      refine .inr (.inr ⟨[], ls, l, rfl, ?_, ?_⟩)
      · simpa [State.gives_one, Event.answeredBy, State.nextOut] using h0
      · simp only [powerOnLines, h0, List.map_nil, List.nil_append]
        rw [State.pinSet_eq_issue, h0, powerOnLevel_eq]
    | ok =>
      have hp : s.pinSet l (powerOnLevel l) = s.issue [powerOnEvent l] := by
        rw [State.pinSet_eq_issue, h0, powerOnLevel_eq]
        rfl
      have hg : ∀ evs, s.gives (powerOnEvent l :: evs) = (s.issue [powerOnEvent l]).gives evs := by
        intro evs
        have : (s.upcoming 0).out = .ok := h0
        simp [State.gives, State.issue_gives, State.dropDraws, powerOnEvent, Event.answeredBy, this]
      have hl : powerOnLines (l :: ls) s = powerOnLines ls (s.issue [powerOnEvent l]) := by
        rw [powerOnLines, h0]
        simp only
        rw [hp]
      rw [hl]
      rcases ih (s.issue [powerOnEvent l]) with ⟨h1, h2⟩ | ⟨b, r, k, h0, h1, h2⟩ | ⟨b, r, k, h0, h1, h2⟩
      · refine .inl ⟨by rw [List.map_cons, hg]; exact h1, ?_⟩
        rw [h2, ← State.issue_append]
        rfl
      · refine .inr (.inl ⟨l :: b, r, k, by rw [h0]; rfl, by rw [List.map_cons, List.cons_append, hg]; exact h1, ?_⟩)
        rw [h2, ← State.issue_append]
        rfl
      · refine .inr (.inr ⟨l :: b, r, k, by rw [h0]; rfl, by rw [List.map_cons, List.cons_append, hg]; exact h1, ?_⟩)
        rw [h2, ← State.issue_append]
        rfl

end Sys2Proof.Machine
end

