-- ==== Sys2Proof/Tests/Slice0.lean ====
section
/-! SUPPORT. The model's own tests. Expected values come from spec/30_encoding.md (R69, R77, R80) and spec/95_test_vectors.md,
whose row is named in each comment; then one witness for each obligation that has hypotheses. -/

namespace Sys2Proof.Tests

open Sys2Proof.Machine

/-! ### Helpers -/

/-- The answer a `PinSet`, `BusWrite` or `Delay` gets. -/
def ok : Draw := ⟨.ok, ⟨0, 0, 0, 0, 0⟩⟩
def failed : Draw := ⟨.fail, ⟨0, 0, 0, 0, 0⟩⟩
def never : Draw := ⟨.noReturn, ⟨0, 0, 0, 0, 0⟩⟩

/-- A `BusXfer` answered with these five bytes. -/
def answer (rx : Frame) : Draw := ⟨.ok, rx⟩

/-- A read transaction that succeeds with this response, and a write transaction that succeeds. -/
def reads (rx : Frame) : List Draw := [ok, answer rx, ok]
def writes : List Draw := [ok, ok, ok]

/-- The state after a successful power-on (spec/95_test_vectors.md, notation), with an empty trace and these answers to come. -/
def fresh (env : List Draw) : State :=
  { State.reset with ready := true, busy := .idle, lines := ⟨.high, .high, .low, .low⟩, env := env }

/-- The same with S[0x10] = (1, v). -/
def with10 (v : Word) (env : List Draw) : State :=
  { fresh env with shadow := [⟨0x10, true, v⟩, ⟨0x13, false, 0⟩, ⟨0x6D, false, 0⟩, ⟨0x70, false, 0⟩] }

/-- What the next state shows, if there is one. -/
def see {α : Type} (o : Host.Outcome State Fault Refusal) (f : State → α) : Option α :=
  match o with
  | .next t => some (f t)
  | .fault _ => none
  | .refused _ => none

/-- The answers that these events are. -/
def answers (evs : List Event) : List Draw :=
  evs.map fun e =>
    match e with
    | .pinSet _ _ o => ⟨o, ⟨0, 0, 0, 0, 0⟩⟩
    | .busXfer _ (.ok rx) => answer rx
    | .busXfer _ .fail => failed
    | .busXfer _ .noReturn => never
    | .busWrite _ o => ⟨o, ⟨0, 0, 0, 0, 0⟩⟩
    | .delay _ o => ⟨o, ⟨0, 0, 0, 0, 0⟩⟩

/-! ### Decoding: words written out from the encodings of R69, R77 and the worked rows of R80 -/

/-- 0000_0001 0 110_1111 00 000000 000 00000 (R80). -/
theorem test_decode_readReg : decodeTableWord 32 0b00000001011011110000000000000000 = some (.readReg 0x6F) := by decide
/-- 0000_0010 0 001_0000 and zeros, then operand word A (R80). -/
theorem test_decode_writeReg :
    decode (.command ⟨0b00000010000100000000000000000000, 0x00041008, 0, 0⟩) = .ok (.writeReg 0x10 0x00041008) := by decide
/-- 0000_0011 0 001_0000 00 000101 000 01000 (R80). -/
theorem test_decode_modifyField :
    decode (.command ⟨0b00000011000100000000010100001000, 0x1F, 0, 0⟩) = .ok (.modifyField 0x10 8 5 31) := by decide
/-- Every field at its largest value: ADDR 127, WID 63, OFF 31 (R65). -/
theorem test_decode_modifyField_full :
    decode (.command ⟨0b00000011011111110011111100011111, 1, 0, 0⟩) = .ok (.modifyField 0x7F 31 63 1) := by decide
theorem test_decode_cacheGet : decodeTableWord 32 0b00000100000100000000000000000000 = some (.cacheGet 0x10) := by decide
theorem test_decode_fieldGet :
    decode (.command ⟨0b00010000000000000000010100001000, 0x00041008, 0, 0⟩) = .ok (.fieldGet 8 5 0x00041008) := by decide
theorem test_decode_fieldSet :
    decode (.command ⟨0b00010001000000000000010100001000, 0xFFFFFFFF, 2, 0⟩) = .ok (.fieldSet 8 5 0xFFFFFFFF 2) := by decide
theorem test_decode_init : decodeTableWord 32 0b00100000000000000000000000000000 = some .init := by decide
theorem test_decode_resetCfg : decodeTableWord 32 0b00100001000000000000000000000000 = some .resetCfg := by decide
theorem test_decode_setCurrent :
    decode (.command ⟨0b00100010000000000000000000000000, 16, 8, 4⟩) = .ok (.setCurrent 16 8 4) := by decide
theorem test_decode_setMicrosteps :
    decode (.command ⟨0b00100011000000000000000000000000, 8, 0, 0⟩) = .ok (.setMicrosteps 8) := by decide
theorem test_decode_getDriverStatus : decodeTableWord 32 0b00100100000000000000000000000000 = some .getDriverStatus := by decide
theorem test_decode_enableDriver : decodeTableWord 32 0b00110000000000000000000000000000 = some .enableDriver := by decide
theorem test_decode_disableDriver : decodeTableWord 32 0b00110001000000000000000000000000 = some .disableDriver := by decide
theorem test_decode_setDirection :
    decode (.command ⟨0b00110010000000000000000000000000, 1, 0, 0⟩) = .ok (.setDirection 1) := by decide
theorem test_decode_step : decodeTableWord 32 0b00110011000000000000000000000000 = some .step := by decide
/-- L2.3, the row of READ_REG 0x6F: W = 0x6F00000000. -/
theorem test_decode_wireRead : decodeTableWord 40 0x6F00000000 = some (.wireRead 0x6F 0) := by decide
/-- L2.3, the row of WRITE_REG 0x6C, 0x12345678: W = 0xEC12345678. -/
theorem test_decode_wireWrite : decodeTableWord 40 0xEC12345678 = some (.wireWrite 0x6C 0x12345678) := by decide
/-- R77: bit 39 clear is a read request, whatever the placeholder bytes are. -/
theorem test_decode_wireRead_anyPlaceholders : decode (.frame 0x10FFFFFFFF) = .ok (.wireRead 0x10 0xFFFFFFFF) := by decide

/-! Illegal headers (L2.1), each refused by name. -/

theorem test_illegal_opc00 : decode (.command ⟨0x00000000, 0, 0, 0⟩) = .error .unassignedOpcode := by decide
theorem test_illegal_opc05 : decode (.command ⟨0x05000000, 0, 0, 0⟩) = .error .unassignedOpcode := by decide
theorem test_illegal_opcFF : decode (.command ⟨0xFF000000, 0, 0, 0⟩) = .error .unassignedOpcode := by decide
theorem test_illegal_bit23 : decode (.command ⟨0x01800000, 0, 0, 0⟩) = .error .reservedBits := by decide
theorem test_illegal_wid : decode (.command ⟨0x01100100, 0, 0, 0⟩) = .error .unusedField := by decide
theorem test_illegal_addr : decode (.command ⟨0x10010508, 0x00041008, 0, 0⟩) = .error .unusedField := by decide
theorem test_illegal_bit7 : decode (.command ⟨0x10000588, 0x00041008, 0, 0⟩) = .error .reservedBits := by decide
theorem test_illegal_bit14 : decode (.command ⟨0x03104508, 0, 0, 0⟩) = .error .reservedBits := by decide
theorem test_illegal_low : decode (.command ⟨0x20000001, 0, 0, 0⟩) = .error .unusedField := by decide

/-! WellFormed: the one check refuses a read request without its placeholder bytes (R75). -/

theorem test_wellFormed_refuses : ¬ WellFormed (.wireRead 0x10 0xFF) := by decide
theorem test_wellFormed_accepts : WellFormed (.wireRead 0x10 0) := by decide

/-! ### One instruction at a time -/

/-- L2.3: `READ_REG 0x6F` with response [A5 12 34 56 78]; rx[0] is discarded. -/
theorem test_readReg :
    see (exec (.readReg 0x6F) (fresh (reads ⟨0xA5, 0x12, 0x34, 0x56, 0x78⟩))) (fun t => (t.status, t.result0, t.trace)) =
      some (0x0, 0x12345678, [.pinSet .csN false .ok,
        .busXfer ⟨0x6F, 0, 0, 0, 0⟩ (.ok ⟨0xA5, 0x12, 0x34, 0x56, 0x78⟩), .pinSet .csN true .ok]) := by decide
/-- L2.4: a tracked register is read from the bus, not from the shadow. -/
theorem test_readReg_tracked :
    see (exec (.readReg 0x10) (with10 0x00041008 (reads ⟨0, 0xDE, 0xAD, 0xBE, 0xEF⟩)))
      (fun t => (t.result0, findCell t.shadow 0x10)) = some (0xDEADBEEF, some ⟨0x10, true, 0x00041008⟩) := by decide
/-- L2.3, transaction outcomes, row 1. -/
theorem test_writeReg :
    see (exec (.writeReg 0x10 0x1234) (with10 0x00041008 writes)) (fun t => (t.status, t.result0, findCell t.shadow 0x10)) =
      some (0x0, 0x1234, some ⟨0x10, true, 0x1234⟩) := by decide
/-- L2.3, transaction outcomes, last row: transfer and release fail. -/
theorem test_writeReg_fails :
    see (exec (.writeReg 0x10 0x1234) (with10 0x00041008 [ok, failed, failed]))
      (fun t => (t.status, t.lines.csN, findCell t.shadow 0x10)) =
      some (0x9, .unknown, some ⟨0x10, true, 0x00041008⟩) := by decide
/-- The example of R97. -/
theorem test_modifyField_tracked :
    see (exec (.modifyField 0x10 8 5 31) (with10 0x00041008 writes)) (fun t => (t.result0, t.trace)) =
      some (0x00041F08, [.pinSet .csN false .ok, .busWrite ⟨0x90, 0x00, 0x04, 0x1F, 0x08⟩ .ok, .pinSet .csN true .ok]) := by
  decide
/-- L2.5: `MODIFY_FIELD 0x6C, 0, 4, 5` with response [00 08 00 00 03]. -/
theorem test_modifyField_untracked :
    see (exec (.modifyField 0x6C 0 4 5) (fresh (reads ⟨0, 8, 0, 0, 3⟩ ++ writes))) (fun t => (t.status, t.result0)) =
      some (0x0, 0x08000005) := by decide
/-- L2.4: a valid entry. -/
theorem test_cacheGet_hit :
    see (exec (.cacheGet 0x10) (with10 0x00041008 [])) (fun t => (t.result0, t.result1)) = some (0x00041008, 1) := by decide
/-- L2.4: an untracked address. -/
theorem test_cacheGet_untracked :
    see (exec (.cacheGet 0x6C) (with10 0x00041008 [])) (fun t => (t.status, t.result0, t.result1)) = some (0x0, 0, 0) := by
  decide
/-- L2.2: the whole register. -/
theorem test_fieldGet :
    see (exec (.fieldGet 0 32 0xDEADBEEF) (fresh [])) (fun t => (t.status, t.result0)) = some (0x0, 0xDEADBEEF) := by decide
/-- L2.2: off + wid = 33. -/
theorem test_fieldGet_illegal :
    see (exec (.fieldGet 28 5 0xDEADBEEF) (fresh [])) (fun t => (t.status, t.result0)) = some (0x3, 0) := by decide
/-- L2.2. -/
theorem test_fieldSet :
    see (exec (.fieldSet 4 8 0xAAAAAAAA 0x55) (fresh [])) (fun t => t.result0) = some 0xAAAAA55A := by decide
/-- L2.2: truncation. -/
theorem test_fieldSet_truncates :
    see (exec (.fieldSet 31 1 0 0xFFFFFFFF) (fresh [])) (fun t => t.result0) = some 0x80000000 := by decide
/-- P1: INIT's three writes after reads of 0x18410153 and 0x10410153. -/
theorem test_init :
    see (exec .init (fresh (writes ++ reads ⟨0, 0x18, 0x41, 0x01, 0x53⟩ ++ writes ++ reads ⟨0, 0x10, 0x41, 0x01, 0x53⟩ ++ writes)))
      (fun t => (t.status, t.trace.filter (fun e => e.kind == .write))) =
      some (0x0, [.busWrite ⟨0x90, 0x00, 0x04, 0x10, 0x08⟩ .ok, .busWrite ⟨0xEC, 0x10, 0x41, 0x01, 0x53⟩ .ok,
        .busWrite ⟨0xEC, 0x10, 0x41, 0x01, 0x55⟩ .ok]) := by decide
/-- P4: the first INIT, whose first read fails in its transfer. -/
theorem test_init_fails :
    see (exec .init (fresh (writes ++ [ok, failed, ok]))) (fun t => (t.status, findCell t.shadow 0x10, t.trace.length)) =
      some (0x1, some ⟨0x10, true, 0x00041008⟩, 6) := by decide
/-- L2.6: RESET_CFG writes MRES back unchanged. -/
theorem test_resetCfg :
    see (exec .resetCfg (fresh (writes ++ reads ⟨0, 8, 0, 0, 3⟩ ++ writes)))
      (fun t => (t.status, t.trace.filter (fun e => e.kind == .write))) =
      some (0x0, [.busWrite ⟨0x90, 0x00, 0x04, 0x10, 0x08⟩ .ok, .busWrite ⟨0xEC, 0x08, 0x00, 0x00, 0x05⟩ .ok]) := by decide
/-- L2.6: the first release fails. -/
theorem test_resetCfg_fails :
    see (exec .resetCfg (fresh [ok, ok, failed])) (fun t => (t.status, t.shadow == (fresh []).shadow, t.trace.length)) =
      some (0xA, true, 3) := by decide
/-- Table W4. -/
theorem test_setCurrent :
    see (exec (.setCurrent 31 31 7) (fresh writes)) (fun t => (t.result0, findCell t.shadow 0x10)) =
      some (0x00071F1F, some ⟨0x10, true, 0x00071F1F⟩) := by decide
/-- L2.6: no truncation before the check. -/
theorem test_setCurrent_rejects :
    see (exec (.setCurrent 256 0 0) (fresh [])) (fun t => (t.status, t.trace)) = some (0x3, []) := by decide
/-- L2.6: `SET_MICROSTEPS M16` over a read of all ones. -/
theorem test_setMicrosteps :
    see (exec (.setMicrosteps 4) (fresh (reads ⟨0, 0xFF, 0xFF, 0xFF, 0xFF⟩ ++ writes))) (fun t => (t.status, t.result0)) =
      some (0x0, 0xF4FFFFFF) := by decide
/-- L2.6: code 9 is no level. -/
theorem test_setMicrosteps_rejects :
    see (exec (.setMicrosteps 9) (fresh [])) (fun t => (t.status, t.trace)) = some (0x3, []) := by decide
/-- W8. -/
theorem test_getDriverStatus :
    see (exec .getDriverStatus (fresh (reads ⟨0, 0, 0, 0, 5⟩ ++ reads ⟨0, 0, 0, 0xC0, 0⟩))) (fun t => (t.status, t.result0)) =
      some (0x0, 0x1D) := by decide
/-- L2.7: all ones, bits 5 and 6 stay 0. -/
theorem test_getDriverStatus_ones :
    see (exec .getDriverStatus (fresh (reads ⟨0xFF, 0xFF, 0xFF, 0xFF, 0xFF⟩ ++ reads ⟨0xFF, 0xFF, 0xFF, 0xFF, 0xFF⟩)))
      (fun t => t.result0) = some 0x0000FF1F := by decide
/-- L2.8. -/
theorem test_enableDriver :
    see (exec .enableDriver (fresh [ok])) (fun t => (t.status, t.lines.enN)) = some (0x0, .low) := by decide
theorem test_enableDriver_fails :
    see (exec .enableDriver (fresh [failed])) (fun t => (t.status, t.lines.enN)) = some (0x2, .unknown) := by decide
theorem test_disableDriver :
    see (exec .disableDriver (fresh [ok])) (fun t => (t.lines.enN, t.trace)) = some (.high, [.pinSet .enN true .ok]) := by
  decide
theorem test_setDirection :
    see (exec (.setDirection 1) (fresh [ok])) (fun t => (t.status, t.lines.dir)) = some (0x0, .high) := by decide
theorem test_setDirection_rejects :
    see (exec (.setDirection 2) (fresh [])) (fun t => (t.status, t.lines.dir)) = some (0x3, .low) := by decide
/-- W7. -/
theorem test_step :
    see (exec .step (fresh [ok, ok, ok])) (fun t => t.trace) =
      some [.pinSet .step true .ok, .delay 1000 .ok, .pinSet .step false .ok] := by decide
theorem test_step_fails :
    see (exec .step (fresh [failed])) (fun t => (t.status, t.lines.step, t.trace)) =
      some (0x2, .unknown, [.pinSet .step true .fail]) := by decide
/-- R92 (log 8): the frame is on the bus as given. -/
theorem test_wireRead :
    see (exec (.wireRead 0x6C 0) (fresh (reads ⟨1, 2, 3, 4, 5⟩))) (fun t => t.trace) =
      some [.pinSet .csN false .ok, .busXfer ⟨0x6C, 0, 0, 0, 0⟩ (.ok ⟨1, 2, 3, 4, 5⟩), .pinSet .csN true .ok] := by decide
/-- W10 (log 8). -/
theorem test_wireWrite :
    see (exec (.wireWrite 0x6C 0x12345678) (fresh writes)) (fun t => t.trace) =
      some [.pinSet .csN false .ok, .busWrite ⟨0xEC, 0x12, 0x34, 0x56, 0x78⟩ .ok, .pinSet .csN true .ok] := by decide

/-! ### Steps -/

/-- L2.9: the power-on sequence whose enable line fails. -/
theorem test_powerOn_fails :
    see (step { State.reset with env := [ok, failed] }) (fun t => (t.status, t.ready, t.lines)) =
      some (0x2, false, ⟨.high, .unknown, .unknown, .unknown⟩) := by decide
/-- W6. -/
theorem test_powerOn :
    see (step { State.reset with env := [ok, ok, ok, ok] }) (fun t => (t.status, t.ready, t.trace)) =
      some (0x0, true, [.pinSet .csN true .ok, .pinSet .enN true .ok, .pinSet .dir false .ok, .pinSet .step false .ok]) := by
  decide
/-- L2.1: with `READY = 0` the check of `READY` comes first. -/
theorem test_notReady_first :
    see (step { fresh [] with ready := false, inputs := [.present (.command ⟨0, 0, 0, 0⟩)] }) (fun t => t.status) = some 0x4 := by
  decide
/-- L2.1: an unassigned opcode. -/
theorem test_illegal_status :
    see (step { fresh [] with inputs := [.present (.command ⟨0xFF000000, 0, 0, 0⟩)] }) (fun t => (t.status, t.trace)) =
      some (0x5, []) := by decide
/-- R18, R150: a hang, then reset. -/
theorem test_hang_then_reset :
    see (exec .enableDriver (fresh [never])) (fun t =>
      (t.busyBit, see (step { t with inputs := [.assertReset] }) (fun u => (u.busy, u.ready, u.trace)))) =
      some (true, some (.starting, false, [])) := by decide

/-- One word of every row of spec/opcode_table.json (its match), which decodes and which the first step after reset runs. -/
theorem test_every_row_runs :
    ∀ p ∈ [(32, 0x01000000), (32, 0x02000000), (32, 0x03000000), (32, 0x04000000), (32, 0x10000000), (32, 0x11000000),
        (32, 0x20000000), (32, 0x21000000), (32, 0x22000000), (32, 0x23000000), (32, 0x24000000), (32, 0x30000000),
        (32, 0x31000000), (32, 0x32000000), (32, 0x33000000), (40, 0x0000000000), (40, 0x8000000000)],
      (decodeTableWord p.1 p.2).isSome = true ∧ see (step (State.reset.withFetchWord p.1 p.2)) (fun _ => ()) = some () := by
  decide

/-! ### Witnesses: for each obligation with hypotheses, a state and operands that meet all of them together -/

/-- An accepting state whose next answers are these events. -/
abbrev Meets (s : State) (evs : List Event) : Prop := s.Accepts ∧ s.gives evs = true

/-- The state of a witness: the one after power-on, answered with these events. -/
def facing (evs : List Event) : State := fresh (answers evs)

/-- The same with S[0x10] = (1, 0x00041008). -/
def facing10 (evs : List Event) : State := with10 0x00041008 (answers evs)

/-- A state held in a primitive that never returns, after ENABLE_DRIVER. -/
def held (inputs : List HostInput) : State :=
  { fresh [] with busy := .running, trace := [.pinSet .enN false .noReturn], inputs := inputs }

/-- A response whose bytes differ. -/
def rx1 : Frame := ⟨0xA5, 0x18, 0x41, 0x01, 0x53⟩

/-- A read request and a write request. -/
def rd (a : Addr) : Frame := readFrame 0x00 a
def wr (a : Addr) (v : Word) : Frame := writeFrame a v

theorem witness_EncodeOfDecode :
    decode (.command ⟨0x037F3F1F, 1, 2, 3⟩) = .ok (.modifyField 0x7F 31 63 1) ∧ decode (.frame 0xFFFFFFFFFF) =
      .ok (.wireWrite 0x7F 0xFFFFFFFF) := by decide

/-- The `EncodedAs` clause of each command's statement: a header that meets its mask. -/
theorem witness_EncodedAs :
    (0x017F0000#32 &&& 0xFF80FFFF#32 = 0x01000000#32) ∧ (0x027F0000#32 &&& 0xFF80FFFF#32 = 0x02000000#32) ∧
    (0x037F3F1F#32 &&& 0xFF80C0E0#32 = 0x03000000#32) ∧ (0x047F0000#32 &&& 0xFF80FFFF#32 = 0x04000000#32) ∧
    (0x10003F1F#32 &&& 0xFFFFC0E0#32 = 0x10000000#32) ∧ (0x11003F1F#32 &&& 0xFFFFC0E0#32 = 0x11000000#32) ∧
    (0x20000000#32 &&& 0xFFFFFFFF#32 = 0x20000000#32) ∧ (0x21000000#32 &&& 0xFFFFFFFF#32 = 0x21000000#32) ∧
    (0x22000000#32 &&& 0xFFFFFFFF#32 = 0x22000000#32) ∧ (0x23000000#32 &&& 0xFFFFFFFF#32 = 0x23000000#32) ∧
    (0x24000000#32 &&& 0xFFFFFFFF#32 = 0x24000000#32) ∧ (0x30000000#32 &&& 0xFFFFFFFF#32 = 0x30000000#32) ∧
    (0x31000000#32 &&& 0xFFFFFFFF#32 = 0x31000000#32) ∧ (0x32000000#32 &&& 0xFFFFFFFF#32 = 0x32000000#32) ∧
    (0x33000000#32 &&& 0xFFFFFFFF#32 = 0x33000000#32) := by decide

theorem witness_IllegalCommandCompletes :
    let s := { fresh [] with inputs := [.present (.command ⟨0x01800000, 0, 0, 0⟩)] }
    s.Accepts ∧ s.inputs = [.present (.command ⟨0x01800000, 0, 0, 0⟩)] ∧ legalHeader 0x01800000 = false := by decide

/-- FieldGetResult, FieldSetResult and the rejection of ModifyFieldRejects: both clauses where they meet (R83). -/
theorem witness_LegalDesc :
    (fresh []).Accepts ∧ LegalDesc 0 32 ∧ LegalDesc 31 1 ∧ LegalDesc 28 4 ∧ ¬ LegalDesc 0 0 ∧ ¬ LegalDesc 0 33 ∧
      ¬ LegalDesc 28 5 ∧ ¬ LegalDesc 31 2 := by decide

theorem witness_CodecLaws :
    LegalDesc 8 5 ∧ (31#32).toNat < 2 ^ 5 ∧ LegalDesc 0 8 ∧ DisjointFields ⟨8, 5⟩ ⟨0, 8⟩ ∧ LegalDesc 13 19 ∧
      DisjointFields ⟨8, 5⟩ ⟨13, 19⟩ ∧ LegalDesc 0 32 := by decide

/-- The field set of IHOLD_IRUN (R82), and another order of it. -/
theorem witness_CodecLaws_fieldSet :
    let fs : List (FieldDesc × Word) := [(⟨0, 5⟩, 8), (⟨8, 5⟩, 16), (⟨16, 4⟩, 4)]
    (∀ f ∈ fs, LegalDesc f.1.off f.1.wid) ∧ fs.Pairwise (fun f g => DisjointFields f.1 g.1) ∧ fs.reverse.Perm fs := by decide

theorem witness_ReadRegOutcomes :
    Meets (facing (readTxn (rd 0x7F) rx1)) (readTxn (rd 0x7F) rx1) ∧
    ∀ e : TxnFailure, Meets (facing (e.readEvents (rd 0x10) rx1)) (e.readEvents (rd 0x10) rx1) := by
  refine ⟨by decide, ?_⟩
  intro e
  cases e <;> decide

theorem witness_WriteRegOutcomes :
    Meets (facing (writeTxn (wr 0x10 0x1234))) (writeTxn (wr 0x10 0x1234)) ∧
    ∀ e : TxnFailure, Meets (facing (e.writeEvents (wr 0x10 0x1234))) (e.writeEvents (wr 0x10 0x1234)) := by
  refine ⟨by decide, ?_⟩
  intro e
  cases e <;> decide

theorem witness_HungTransactionHolds :
    ∀ h : TxnHang, Meets (facing (h.readEvents (rd 0x10) rx1)) (h.readEvents (rd 0x10) rx1) ∧
      Meets (facing (h.writeEvents (wr 0x10 0x1234))) (h.writeEvents (wr 0x10 0x1234)) := by
  intro h
  cases h <;> decide

/-- The miss: 0x13 is tracked and not valid. -/
theorem witness_ModifyFieldRejects :
    (fresh []).Accepts ∧ (0x13#7 : Addr) ∈ (fresh []).cfg.trackedSet ∧ LegalDesc 0 20 ∧
      ∀ d, findCell (fresh []).shadow 0x13 ≠ some ⟨0x13, true, d⟩ := by
  refine ⟨by decide, by decide, by decide, ?_⟩
  intro d h
  have e : findCell (fresh []).shadow 0x13 = some ⟨0x13, false, 0⟩ := by decide
  rw [e] at h
  simp at h

/-- `MODIFY_FIELD 0x10, 8, 5, 31` writes 0x00041F08. -/
theorem witness_ModifyFieldFromShadow :
    let w := wr 0x10 0x00041F08
    LegalDesc 8 5 ∧ (0x10#7 : Addr) ∈ (facing10 []).cfg.trackedSet ∧
      findCell (facing10 []).shadow 0x10 = some ⟨0x10, true, 0x00041008⟩ ∧
      Meets (facing10 (writeTxn w)) (writeTxn w) ∧
      ∀ e : TxnFailure, Meets (facing10 (e.writeEvents w)) ([] ++ e.writeEvents w) := by
  refine ⟨by decide, by decide, by decide, by decide, ?_⟩
  intro e
  cases e <;> decide

/-- `MODIFY_FIELD 0x6C, 0, 4, 5` over 0x18410153 writes 0x18410155. -/
theorem witness_ModifyFieldFromBus :
    let t := readTxn (rd 0x6C) rx1
    let w := wr 0x6C 0x18410155
    LegalDesc 0 4 ∧ (0x6C#7 : Addr) ∉ (fresh []).cfg.trackedSet ∧ Meets (facing (t ++ writeTxn w)) (t ++ writeTxn w) ∧
      (∀ e : TxnFailure, Meets (facing (e.readEvents (rd 0x6C) rx1)) ([] ++ e.readEvents (rd 0x6C) rx1)) ∧
      ∀ e : TxnFailure, Meets (facing (t ++ e.writeEvents w)) (t ++ e.writeEvents w) := by
  refine ⟨by decide, by decide, by decide, ?_, ?_⟩
  · intro e
    cases e <;> decide
  · intro e
    cases e <;> decide

/-- A read request whose placeholder bytes are all different is a form too (log 9). -/
theorem witness_WireRowOutcomes :
    let f : Frame := ⟨0x6C, 1, 2, 3, 4⟩
    let w := wr 0x10 0x1234
    Meets (facing (readTxn f rx1)) (readTxn f rx1) ∧
      (∀ e : TxnFailure, Meets (facing (e.readEvents f rx1)) ([] ++ e.readEvents f rx1)) ∧
      Meets (facing (writeTxn w)) (writeTxn w) ∧
      ∀ e : TxnFailure, Meets (facing (e.writeEvents w)) ([] ++ e.writeEvents w) := by
  refine ⟨by decide, ?_, by decide, ?_⟩
  · intro e
    cases e <;> decide
  · intro e
    cases e <;> decide

/-- A hit, a miss of a tracked address, and an untracked address. -/
theorem witness_CacheGetResult :
    (facing10 []).Accepts ∧ (0x10#7 : Addr) ∈ (facing10 []).cfg.trackedSet ∧
      findCell (facing10 []).shadow 0x10 = some ⟨0x10, true, 0x00041008⟩ ∧ (0x6C#7 : Addr) ∉ (facing10 []).cfg.trackedSet ∧
      findCell (facing10 []).shadow 0x70 = some ⟨0x70, false, 0⟩ := by decide

/-- CacheHoldsLastWrite, first clause: a step that writes 0x10 after power-on. -/
theorem witness_CacheHoldsLastWrite :
    let w := wr 0x10 0x1234
    let s := { facing (writeTxn w) with inputs := [.present (.command ⟨0x02100000, 0x1234, 0, 0⟩)] }
    (0x10#7 : Addr) ∈ s.cfg.trackedSet ∧ see (step s) (fun t => t.trace) = some (s.trace ++ ([] ++ writeTxn w ++ [])) := by
  decide

/-- A write transaction among three events is the three. -/
theorem writeTxn_in_three {f : Frame} {x y z : Event} (h : writeTxn f <:+: [x, y, z]) : writeTxn f = [x, y, z] :=
  h.eq_of_length rfl

/-- The premise of its first clause about the later events, at the empty list. -/
theorem witness_CacheHoldsLastWrite_after : ∀ f, writeTxn f <:+: [] → frameAddr f ≠ 0x10 := by
  intro f h
  have := h.length_le
  simp [writeTxn] at this

/-- Its second clause: a write to another tracked register, 0x13, with 0x10 valid. -/
theorem witness_CacheHoldsLastWrite_other :
    let w := wr 0x13 0x1F4
    let s := { facing10 (writeTxn w) with inputs := [.present (.command ⟨0x02130000, 0x1F4, 0, 0⟩)] }
    see (step s) (fun t => (t.busy, t.trace)) = some (.idle, s.trace ++ writeTxn w) ∧
      (∀ f, writeTxn f <:+: writeTxn w → frameAddr f ≠ 0x10) ∧
      findCell s.shadow 0x10 = some ⟨0x10, true, 0x00041008⟩ := by
  refine ⟨by decide, ?_, by decide⟩
  intro f h
  have e := writeTxn_in_three h
  simp only [writeTxn, List.cons.injEq, Event.busWrite.injEq, and_true, true_and] at e
  subst e
  decide

/-- Its second clause: a write to 0x10 itself whose release fails (R105; L2.4 has the same of 0x13). -/
theorem witness_CacheHoldsLastWrite_release :
    let evs := TxnFailure.release.writeEvents (wr 0x10 0x1234)
    let s := { facing10 evs with inputs := [.present (.command ⟨0x02100000, 0x1234, 0, 0⟩)] }
    see (step s) (fun t => (t.busy, t.trace)) = some (.idle, s.trace ++ evs) ∧
      (∀ f, writeTxn f <:+: evs → frameAddr f ≠ 0x10) ∧
      findCell s.shadow 0x10 = some ⟨0x10, true, 0x00041008⟩ := by
  refine ⟨by decide, ?_, by decide⟩
  intro f h
  have e := writeTxn_in_three h
  simp [writeTxn] at e

/-- OnlySuccessfulWritesReachShadow, OnlyPinSetsChangeLines: a step with events, one failed write among them. -/
theorem witness_step_events :
    see (step { fresh [ok, ok, failed] with inputs := [.present (.command ⟨0x02100000, 0x1234, 0, 0⟩)] })
      (fun t => (t.busy, t.trace.length, t.lines.csN)) = some (.idle, 3, .unknown) := by decide

/-- Result1IsCacheGets: an accepting state with a valid entry (0x10) and an invalid one (0x13), and another instruction. -/
theorem witness_Result1IsCacheGets :
    (facing10 []).Accepts ∧ (0x10#7 : Addr) ∈ (facing10 []).cfg.trackedSet ∧
      findCell (facing10 []).shadow 0x10 = some ⟨0x10, true, 0x00041008⟩ ∧
      findCell (facing10 []).shadow 0x13 = some ⟨0x13, false, 0⟩ ∧
      see (exec .step (facing10 [])) (fun _ => ()) = some () := by decide

/-- Each limit from both sides (R108). -/
theorem witness_SetCurrentOutcomes :
    let w := wr 0x10 0x00071F1F
    (32#32).toNat > 31 ∧ (8#32).toNat > 7 ∧ (31#32).toNat ≤ 31 ∧ (7#32).toNat ≤ 7 ∧
      Meets (facing (writeTxn w)) (writeTxn w) ∧
      ∀ e : TxnFailure, Meets (facing (e.writeEvents w)) ([] ++ e.writeEvents w) := by
  refine ⟨by decide, by decide, by decide, by decide, by decide, ?_⟩
  intro e
  cases e <;> decide

/-- `SET_MICROSTEPS M256` over 0x18410153 (MRES already 8). -/
theorem witness_SetMicrostepsOutcomes :
    let t := readTxn (rd 0x6C) rx1
    let w := wr 0x6C 0x18410153
    (fresh []).cfg.Valid ∧ (9#32).toNat > 8 ∧ (8#32).toNat ≤ 8 ∧ Meets (facing (t ++ writeTxn w)) (t ++ writeTxn w) ∧
      (∀ e : TxnFailure, Meets (facing (e.readEvents (rd 0x6C) rx1)) ([] ++ e.readEvents (rd 0x6C) rx1)) ∧
      ∀ e : TxnFailure, Meets (facing (t ++ e.writeEvents w)) (t ++ e.writeEvents w) := by
  refine ⟨by decide, by decide, by decide, by decide, ?_, ?_⟩
  · intro e
    cases e <;> decide
  · intro e
    cases e <;> decide

/-- P1: reads of 0x18410153 and 0x10410153, writes of 0x10410153 and 0x10410155. -/
def initTxns : List (List Event) :=
  [writeTxn (wr 0x10 0x00041008), readTxn (rd 0x6C) rx1, writeTxn (wr 0x6C 0x10410153),
    readTxn (rd 0x6C) ⟨0, 0x10, 0x41, 0x01, 0x53⟩, writeTxn (wr 0x6C 0x10410155)]

/-- The events before INIT's transaction `k`, counted from 0. -/
def initBefore (k : Nat) : List Event := (initTxns.take k).flatten

theorem witness_InitOutcomes :
    (fresh []).cfg.Valid ∧ Meets (facing (initBefore 5)) (initBefore 5) ∧
      (∀ e : TxnFailure, Meets (facing (e.writeEvents (wr 0x10 0x00041008))) ([] ++ e.writeEvents (wr 0x10 0x00041008))) ∧
      (∀ e : TxnFailure, let evs := initBefore 1 ++ e.readEvents (rd 0x6C) rx1
        Meets (facing evs) evs) ∧
      (∀ e : TxnFailure, let evs := initBefore 2 ++ e.writeEvents (wr 0x6C 0x10410153)
        Meets (facing evs) evs) ∧
      (∀ e : TxnFailure, let evs := initBefore 3 ++ e.readEvents (rd 0x6C) rx1
        Meets (facing evs) evs) ∧
      (∀ e : TxnFailure, let evs := initBefore 4 ++ e.writeEvents (wr 0x6C 0x10410155)
        Meets (facing evs) evs) := by
  refine ⟨by decide, by decide, ?_, ?_, ?_, ?_, ?_⟩ <;>
    (intro e
     cases e <;> decide)

theorem witness_ResetCfgOutcomes :
    let t1 := writeTxn (wr 0x10 0x00041008)
    let t2 := t1 ++ readTxn (rd 0x6C) rx1
    let w := wr 0x6C 0x18410155
    (fresh []).cfg.Valid ∧ Meets (facing (t2 ++ writeTxn w)) (t2 ++ writeTxn w) ∧
      (∀ e : TxnFailure, let evs := [] ++ e.writeEvents (wr 0x10 0x00041008)
        Meets (facing evs) evs) ∧
      (∀ e : TxnFailure, let evs := t1 ++ e.readEvents (rd 0x6C) rx1
        Meets (facing evs) evs) ∧
      (∀ e : TxnFailure, let evs := t2 ++ e.writeEvents w
        Meets (facing evs) evs) := by
  refine ⟨by decide, by decide, ?_, ?_, ?_⟩ <;>
    (intro e
     cases e <;> decide)

theorem witness_GetDriverStatusOutcomes :
    let t1 := readTxn (rd 0x01) rx1
    let t2 := t1 ++ readTxn (rd 0x6F) ⟨0, 0, 0x1F, 0x80, 0⟩
    Meets (facing t2) t2 ∧
      (∀ e : TxnFailure, let evs := [] ++ e.readEvents (rd 0x01) rx1
        Meets (facing evs) evs) ∧
      (∀ e : TxnFailure, let evs := t1 ++ e.readEvents (rd 0x6F) rx1
        Meets (facing evs) evs) := by
  refine ⟨by decide, ?_, ?_⟩ <;>
    (intro e
     cases e <;> decide)

/-- EnableDisableOutcomes, both outcomes of both lines' levels. -/
theorem witness_EnableDisableOutcomes :
    ∀ evs ∈ [[Event.pinSet .enN false .ok], [.pinSet .enN false .fail], [.pinSet .enN true .ok], [.pinSet .enN true .fail]],
      Meets (facing evs) evs := by decide

/-- Both directions, and the first operand that is none. -/
theorem witness_SetDirectionOutcomes :
    (2#32).toNat > 1 ∧ (0#32).toNat ≤ 1 ∧ (1#32).toNat ≤ 1 ∧
    ∀ evs ∈ [[Event.pinSet .dir ((0#32).getLsbD 0) .ok], [.pinSet .dir ((0#32).getLsbD 0) .fail],
        [.pinSet .dir ((1#32).getLsbD 0) .ok], [.pinSet .dir ((1#32).getLsbD 0) .fail]],
      Meets (facing evs) evs := by decide

theorem witness_StepPulseOutcomes :
    ∀ evs ∈ [[Event.pinSet .step true .ok, .delay 1000 .ok, .pinSet .step false .ok], [.pinSet .step true .fail],
        [.pinSet .step true .ok, .delay 1000 .ok, .pinSet .step false .fail]],
      Meets (facing evs) evs := by decide

theorem witness_NotReadyRejectsEverything :
    let s := { fresh [] with ready := false, inputs := [.present (.command ⟨0x33000000, 0, 0, 0⟩)] }
    s.busy = .idle ∧ s.ready = false ∧ s.inputs = [.present (.command ⟨0x33000000, 0, 0, 0⟩)] := by decide

/-- BusyAcceptsNothing and OnlyResetEndsHang: with something presented, and with nothing. -/
theorem witness_BusyAcceptsNothing :
    let s := held [.present (.command ⟨0x33000000, 0, 0, 0⟩)]
    s.busyBit = true ∧ s.busy = .running ∧ s.inputs = [.present (.command ⟨0x33000000, 0, 0, 0⟩)] ∧
      State.reset.busyBit = true ∧ (held []).busy = .running ∧ (held []).inputs = [] ∧
      see (step s) (fun t => t.inputs) = some [] := by decide

/-- ErrorsArePrecise: a command accepted that ends with BUS_ERROR, and one that ends with PIN_ERROR. -/
theorem witness_ErrorsArePrecise :
    (fresh []).Accepts ∧ isCommand .init = true ∧
      see (exec .init (fresh (writes ++ [ok, failed, ok]))) (fun t => (t.busyBit, t.statusCode)) = some (false, 1#3) ∧
      see (exec .init (fresh [ok, ok, failed])) (fun t => (t.busyBit, t.statusCode)) = some (false, 2#3) := by decide

/-- CommandsEndWithTheirCodes, RejectionIssuesNothing, PrimitiveCountsOnSuccess, StatusAndTraceNeverRead: commands that are
accepted and end, with OK, with INVALID_ARGUMENT and with NOT_INITIALIZED. -/
theorem witness_CommandsEnd :
    (fresh []).Accepts ∧ (fresh []).busyBit = false ∧
      see (exec (.modifyField 0x6C 0 4 5) (fresh (reads rx1 ++ writes))) (fun t => (t.busyBit, t.statusCode, t.trace.length)) =
        some (false, 0#3, 6) ∧
      see (exec (.setMicrosteps 9) (fresh [])) (fun t => (t.busyBit, t.statusCode)) = some (false, 3#3) ∧
      see (exec (.modifyField 0x13 0 20 500) (fresh [])) (fun t => (t.busyBit, t.statusCode)) = some (false, 4#3) := by decide

/-- ResultsKeptOnError: a presented command that ends with an error, an illegal one, and one that hangs. -/
theorem witness_ResultsKeptOnError :
    see (step { fresh [failed] with inputs := [.present (.command ⟨0x33000000, 0, 0, 0⟩)] })
        (fun t => (t.statusCode, t.busyBit)) = some (2#3, false) ∧
      see (step { fresh [] with inputs := [.present (.command ⟨0x34000000, 0, 0, 0⟩)] })
        (fun t => (t.statusCode, t.busyBit)) = some (5#3, false) ∧
      see (step { fresh [never] with inputs := [.present (.command ⟨0x33000000, 0, 0, 0⟩)] })
        (fun t => (t.statusCode, t.busyBit)) = some (0#3, true) := by decide

/-- HangWritesNothing. -/
theorem witness_HangWritesNothing :
    (fresh [ok, never]).Accepts ∧ see (exec (.readReg 0x10) (fresh [ok, never])) (fun t => t.busyBit) = some true := by decide

/-- EffectsAreThoseOfEvents, InstructionFrame: an instruction with a next state, one that issues
events and one that may issue none. -/
theorem witness_exec_next :
    see (exec .step (fresh [ok, ok, ok])) (fun t => t.trace.length) = some 3 ∧ mayDrive (.cacheGet 0x10) = [] ∧
      see (exec (.cacheGet 0x10) (fresh [])) (fun t => t.trace.length) = some 0 := by decide

/-- The clause of NoInstructionStops about an RBIC that is starting. -/
theorem witness_NoInstructionStops : see (exec .init State.reset) (fun t => t.busy) = some .starting := by decide

/-- Fifteen answers Ok, what INIT uses up. -/
theorem witness_CompletesWhenPrimitivesSucceed :
    let s := fresh (writes ++ reads rx1 ++ writes ++ reads rx1 ++ writes)
    s.Accepts ∧ ∀ k, k < 15 → (s.upcoming k).out = .ok := by decide

theorem witness_StepRunsDecodedInstruction :
    let s := { fresh [ok] with inputs := [.present (.command ⟨0x30000000, 0, 0, 0⟩), .assertReset] }
    s.busy ≠ .starting ∧ s.inputs = .present (.command ⟨0x30000000, 0, 0, 0⟩) :: [.assertReset] ∧
      decode (.command ⟨0x30000000, 0, 0, 0⟩) = .ok .enableDriver := by decide

theorem witness_PlacedInstructionRuns : decodeTableWord 96 0x000000020000100811000508 = some (.fieldSet 8 5 0x00001008 2) := by
  decide

/-- TraceOnlyGrows: a step that issues an event, and one that asserts reset. -/
theorem witness_TraceOnlyGrows :
    see (step { fresh [ok] with inputs := [.present (.command ⟨0x30000000, 0, 0, 0⟩)] }) (fun t => t.trace.length) = some 1 ∧
      see (step { fresh [] with inputs := [.assertReset] }) (fun t => (t.busy, t.trace)) = some (.starting, []) := by decide

/-- PowerOnSequence in another order than the default (R141), every line Ok. -/
theorem witness_PowerOnSequence :
    let c := { Config.default with resetPinOrder := [.step, .dir, .enN, .csN] }
    let evs : List Event := [.pinSet .step false .ok, .pinSet .dir false .ok, .pinSet .enN true .ok, .pinSet .csN true .ok]
    let s := { State.reset with cfg := c, env := answers evs }
    s.busy = .starting ∧ s.cfg.Valid ∧
      s.cfg.resetPinOrder.map (fun l => Event.pinSet l (l == .csN || l == .enN) .ok) = evs ∧ s.gives evs = true := by decide

/-- Its second clause: the first line fails, and the last. -/
theorem witness_PowerOnSequence_fails :
    let first : List Event := [.pinSet .csN true .fail]
    let last : List Event := [.pinSet .csN true .ok, .pinSet .enN true .ok, .pinSet .dir false .ok, .pinSet .step false .fail]
    State.reset.busy = .starting ∧ State.reset.cfg.Valid ∧
      State.reset.cfg.resetPinOrder = [] ++ Line.csN :: [.enN, .dir, .step] ∧
      State.reset.cfg.resetPinOrder = [.csN, .enN, .dir] ++ Line.step :: [] ∧
      State.gives { State.reset with env := answers first } first = true ∧
      State.gives { State.reset with env := answers last } last = true := by decide

/-- ResetAbandonsCommand and the first part of ResetTable: reset during a hang. -/
theorem witness_ResetAbandonsCommand :
    (held [.assertReset]).busy ≠ .starting ∧ (held [.assertReset]).inputs = .assertReset :: [] := by decide

/-- The state after reset meets the premises of every invariant and of ResetTable's second part. -/
theorem witness_Sound : State.reset.Sound :=
  ⟨by decide, by decide, by decide, by decide, by decide, by decide, by decide⟩

theorem witness_Invariants :
    State.reset.LinesFollowTrace ∧ State.reset.ShadowFollowsTrace ∧ State.reset.TraceFramed ∧
      see (step { State.reset with env := [ok, ok, ok, ok] }) (fun t => (t.busyBit, t.ready)) = some (false, true) ∧
      see (step { State.reset with env := [ok, failed] }) (fun t => (t.busyBit, t.ready)) = some (false, false) :=
  ⟨rfl, rfl, rfl, by decide, by decide⟩

end Sys2Proof.Tests
end

/-! PROOFS. The scope of the machine (00_scope.md): what a step keeps of the registers (R11, R27 to R31, R36, R47), how it extends
`TRACE` (R17, R53, R58, R89), and what a primitive that never returns leaves (R18, R150). -/

namespace Sys2Proof.Machine

/-! ### Where `TRACE` stands while the RBIC is idle, starting, or held -/

/-- Where a reader of a framed `TRACE` stands, by the activity of the RBIC (log 6). -/
def Activity.framing (b : Activity) : Framing := if b = .running then .stuck else .between

@[simp] theorem Activity.framing_idle : Activity.idle.framing = .between := rfl
@[simp] theorem Activity.framing_starting : Activity.starting.framing = .between := rfl
@[simp] theorem Activity.framing_running : Activity.running.framing = .stuck := rfl

theorem State.traceFramed_iff (s : State) : s.TraceFramed ↔ s.trace.foldl frameStep .between = s.busy.framing := Iff.rfl

/-- From `s` to `t` the configuration is kept and the events `evs` are added to `TRACE`; they lead a reader of `TRACE` from where
it stands at `s` to where it stands at `t`. -/
structure ExtendsTrace (s t : State) (evs : List Event) : Prop where
  cfg : t.cfg = s.cfg
  trace : t.trace = s.trace ++ evs
  framed : evs.foldl frameStep s.busy.framing = t.busy.framing

theorem ExtendsTrace.traceFramed {s t : State} {evs : List Event} (h : ExtendsTrace s t evs) (hs : s.TraceFramed) :
    t.TraceFramed := by
  rw [State.traceFramed_iff] at *
  rw [h.trace, List.foldl_append, hs, h.framed]

/-- A change of other fields issues nothing. -/
theorem ExtendsTrace.nil {s t : State} (hc : t.cfg = s.cfg) (ht : t.trace = s.trace) (hb : t.busy = s.busy) :
    ExtendsTrace s t [] :=
  ⟨hc, by simp [ht], by simp [hb]⟩

/-- An instruction that was accepted adds framed events, whichever way it ends. -/
theorem Ending.extendsTrace {i : Instr} {s t : State} (ha : s.Accepts) (h : Ending i s t) : ∃ evs, ExtendsTrace s t evs := by
  obtain ⟨hidle, -⟩ := ha
  cases h with
  | completed evs x y h counts keep0 keep1 bit1 eq =>
    subst eq
    exact ⟨evs, by simp, by simp, by simp [hidle, h.framed]⟩
  | rejected c code which eq =>
    subst eq
    exact ⟨[], .nil rfl rfl rfl⟩
  | stopped st c csf before tail h eq =>
    subst eq
    exact ⟨before ++ tail, by simp, by simp, by simpa [hidle] using h.framed⟩
  | held before e h eq =>
    subst eq
    exact ⟨before ++ [e], by simp, by simp, by simpa [hidle] using h.framed⟩

theorem exec_extendsTrace {i : Instr} {s t : State} (h : exec i s = .next t) : ∃ evs, ExtendsTrace s t evs := by
  rcases exec_cases h with ⟨-, rfl⟩ | ⟨-, -, rfl⟩ | ⟨ha, he⟩
  · exact ⟨[], .nil rfl rfl rfl⟩
  · exact ⟨[], .nil rfl rfl rfl⟩
  · exact he.extendsTrace ha

theorem illegalCommand_extendsTrace (s : State) : ExtendsTrace s (illegalCommand s) [] := by
  rcases illegalCommand_cases s with ⟨-, h⟩ | ⟨-, -, h⟩ | ⟨-, h⟩ <;> rw [h] <;> exact .nil rfl rfl rfl

/-! ### The power-on sequence (R139 to R141) -/

/-- A `PinSet` of the sequence stands between transactions (R140: chip-select is set high, which asserts nothing). -/
theorem frameStep_powerOn (l : Line) (out : PrimOutcome) :
    frameStep .between (.pinSet l (l == .csN || l == .enN) out) = if out = .noReturn then .stuck else .between := by
  cases l <;> cases out <;> rfl

theorem foldl_frameStep_powerOnEvents (ls : List Line) : (ls.map powerOnEvent).foldl frameStep .between = .between := by
  induction ls with
  | nil => rfl
  | cons l ls ih => simpa [powerOnEvent, frameStep_powerOn] using ih

theorem State.issue_running (s : State) (evs : List Event) :
    State.issue { s with busy := .running } evs = { s.issue evs with busy := .running } := by
  rw [State.issue_eq, State.issue_eq s]
  simp only [State.mk.injEq, true_and, and_true]
  exact ⟨State.dropDraws_env_congr (by rfl) _, State.dropDraws_drawCount_congr (by rfl) (by rfl) _⟩

/-- The sequence changes `STATUS`, `READY` and `BUSY` beyond what its events do, and leaves the starting state. -/
theorem powerOn_effect (s : State) : ∃ evs st r b,
    powerOn s = { s.issue evs with status := st, ready := r, busy := b } ∧ (st = s.status ∨ st = 0x0#32 ∨ st = 0x2#32) ∧
      b ≠ .starting ∧ evs.foldl frameStep .between = b.framing := by
  have hf := foldl_frameStep_powerOnEvents
  unfold powerOn
  rcases powerOnLines_cases s.cfg.resetPinOrder { s with busy := .running } with
    ⟨-, h⟩ | ⟨before, -, l, -, -, h⟩ | ⟨before, -, l, -, -, h⟩
  · exact ⟨_, 0#32, true, .idle, by rw [h, State.issue_running], by simp, by simp, hf _⟩
  · exact ⟨_, 0x2#32, false, .idle, by rw [h, State.issue_running], by simp, by simp, by
      simp [List.foldl_append, hf, frameStep_powerOn]⟩
  · exact ⟨_, s.status, s.ready, .running, by rw [h, State.issue_running, State.issue_eq], by simp, by simp, by
      simp [List.foldl_append, hf, frameStep_powerOn]⟩

theorem powerOn_extendsTrace {s : State} (hb : s.busy = .starting) : ∃ evs, ExtendsTrace s (powerOn s) evs := by
  obtain ⟨evs, st, r, b, h, -, -, hf⟩ := powerOn_effect s
  rw [h]
  exact ⟨evs, by simp, by simp [State.issue_eq], by simpa [hb] using hf⟩

/-- Every step but a reset extends `TRACE` by framed events. -/
theorem step_extendsTrace {s t : State} (h : step s = .next t) :
    (∃ evs, ExtendsTrace s t evs) ∨ ∃ rest, t = State.assertReset { s with inputs := rest } := by
  rcases step_cases h with ⟨hb, rfl⟩ | ⟨-, -, rfl⟩ | ⟨-, rest, -, rfl⟩ | ⟨-, p, rest, i, -, -, he⟩ | ⟨-, p, rest, e, -, -, rfl⟩
  · exact .inl (powerOn_extendsTrace hb)
  · exact .inl ⟨[], .nil rfl rfl rfl⟩
  · exact .inr ⟨rest, rfl⟩
  · obtain ⟨evs, hc, ht, hf⟩ := exec_extendsTrace he
    exact .inl ⟨evs, hc, ht, hf⟩
  · obtain ⟨hc, ht, hf⟩ := illegalCommand_extendsTrace { s with inputs := rest }
    exact .inl ⟨[], hc, ht, hf⟩

/-- Settles O55: every step but a reset extends `TRACE` by framed events, and a reset empties it. -/
theorem stepKeepsTraceFramed : Obligations.StepKeepsTraceFramed := by
  intro s t hs h
  rcases step_extendsTrace h with ⟨evs, he⟩ | ⟨rest, rfl⟩
  · exact he.traceFramed hs
  · simp [State.traceFramed_iff]

/-- Settles O45: every step but a reset keeps the configuration and extends `TRACE`, and a reset empties it. -/
theorem traceOnlyGrows : Obligations.TraceOnlyGrows := by
  intro s t h
  rcases step_extendsTrace h with ⟨evs, he⟩ | ⟨rest, rfl⟩
  · exact ⟨he.cfg, .inl ⟨evs, he.trace⟩⟩
  · exact ⟨rfl, .inr ⟨rfl, rfl⟩⟩

/-! ### The shadow's form (R36) -/

theorem shadowStep_preserves {c : Config} {P : List ShadowCell → Prop}
    (hput : ∀ a v cells, a ∈ c.trackedSet → P cells → P (putCell cells a v)) (w : Option Frame × List ShadowCell) (e : Event)
    (h : P w.2) : P (shadowStep c w e).2 := by
  fun_cases shadowStep c w e
  · exact h
  · split
    next hmem => exact hput _ _ _ (by simpa using hmem) h
    next => exact h
  · exact h

/-- What every write of a tracked entry keeps, every list of events keeps (R104, R105). -/
theorem shadowAfter_preserves {c : Config} {P : List ShadowCell → Prop}
    (hput : ∀ a v cells, a ∈ c.trackedSet → P cells → P (putCell cells a v)) (evs : List Event) {cells : List ShadowCell}
    (h : P cells) : P (shadowAfter c evs cells) := by
  suffices ∀ w : Option Frame × List ShadowCell, P w.2 → P (evs.foldl (shadowStep c) w).2 from this (none, cells) h
  induction evs with
  | nil => exact fun _ h => h
  | cons e evs ih => exact fun w h => ih _ (shadowStep_preserves hput w e h)

/-- Writing the entry of an address that has a cell keeps the addresses and their order. -/
theorem map_addr_putCell {cells : List ShadowCell} {a : Addr} (v : Word) (h : a ∈ cells.map ShadowCell.addr) :
    (putCell cells a v).map ShadowCell.addr = cells.map ShadowCell.addr := by
  induction cells with
  | nil => simp at h
  | cons c cs ih =>
    by_cases hc : c.addr = a
    · simp [putCell, hc]
    · have ha : a ∈ cs.map ShadowCell.addr := by simpa [Ne.symm hc] using h
      simp [putCell, hc, ih ha]

theorem mem_putCell {cells : List ShadowCell} {a : Addr} {v : Word} {c : ShadowCell} (h : c ∈ putCell cells a v) :
    c = ⟨a, true, v⟩ ∨ c ∈ cells := by
  induction cells with
  | nil => simpa [putCell] using h
  | cons b bs ih =>
    by_cases hb : b.addr = a
    · have : c = ⟨a, true, v⟩ ∨ c ∈ bs := by simpa [putCell, hb] using h
      exact this.imp_right (List.mem_cons_of_mem b)
    · have : c = b ∨ c ∈ putCell bs a v := by simpa [putCell, hb] using h
      rcases this with rfl | hc
      · exact .inr List.mem_cons_self
      · exact (ih hc).imp_right (List.mem_cons_of_mem b)

/-- The cells are one per tracked address, in order, and an invalid one holds 0 (R36, R104). -/
def ShadowFormed (c : Config) (cells : List ShadowCell) : Prop :=
  cells.map ShadowCell.addr = c.trackedSet ∧ ∀ x ∈ cells, x.v = false → x.d = 0#32

theorem ShadowFormed.shadowAfter {c : Config} {cells : List ShadowCell} (h : ShadowFormed c cells) (evs : List Event) :
    ShadowFormed c (shadowAfter c evs cells) := by
  refine shadowAfter_preserves (fun a v cells ha h => ?_) evs h
  obtain ⟨haddr, hempty⟩ := h
  refine ⟨by rw [map_addr_putCell v (by rwa [haddr]), haddr], fun x hx hv => ?_⟩
  rcases mem_putCell hx with rfl | hx
  · cases hv
  · exact hempty x hx hv

theorem shadowFormed_emptyShadow (c : Config) : ShadowFormed c (emptyShadow c) := by
  simp [ShadowFormed, emptyShadow, Function.comp_def]

theorem State.Sound.shadowFormed {s : State} (h : s.Sound) : ShadowFormed s.cfg s.shadow := ⟨h.shadowAddrs, h.shadowEmpty⟩

/-! ### What keeps a state sound -/

theorem FailsAs.status_mem {st : Word} {c : ErrCode} {csf : Bool} {tail : List Event} (h : FailsAs st c csf tail) :
    st ∈ statusValues := by
  cases h <;> decide

theorem statusWord_false_mem (c : ErrCode) : statusWord c false ∈ statusValues := by
  cases c <;> decide

theorem State.Sound.withInputs {s : State} (h : s.Sound) (ins : List HostInput) : State.Sound { s with inputs := ins } :=
  ⟨h.cfg, h.status, h.result1, h.shadowAddrs, h.shadowEmpty, h.notReady, h.starting⟩

theorem State.Sound.withStatus {s : State} (h : s.Sound) {w : Word} (hw : w ∈ statusValues) :
    State.Sound { s with status := w } :=
  ⟨h.cfg, hw, h.result1, h.shadowAddrs, h.shadowEmpty, h.notReady, h.starting⟩

/-- A state with `READY = 1` outside the power-on sequence is sound by its configuration, `STATUS`, `RESULT1` and shadow. -/
theorem State.Sound.ofReady {t : State} (hr : t.ready = true) (hb : t.busy ≠ .starting) (cfg : t.cfg.Valid)
    (status : t.status ∈ statusValues) (result1 : t.result1 = 0#32 ∨ t.result1 = 1#32)
    (shadow : ShadowFormed t.cfg t.shadow) : t.Sound :=
  ⟨cfg, status, result1, shadow.1, shadow.2, fun h => by simp [hr] at h, fun h => absurd h hb⟩

theorem State.Sound.assertReset {s : State} (h : s.Sound) : s.assertReset.Sound :=
  ⟨h.cfg, List.mem_cons_self, .inl rfl, (shadowFormed_emptyShadow s.cfg).1, (shadowFormed_emptyShadow s.cfg).2,
    fun _ => ⟨rfl, rfl, rfl⟩, fun _ => ⟨rfl, rfl, rfl⟩⟩

/-- The power-on sequence changes no result and no shadow entry, so it keeps what holds while `READY = 0`. -/
theorem State.Sound.powerOn {s : State} (h : s.Sound) (hb : s.busy = .starting) : (powerOn s).Sound := by
  obtain ⟨hready, -, -⟩ := h.starting hb
  obtain ⟨evs, st, r, b, he, hst, hb', -⟩ := powerOn_effect s
  have hmem : st ∈ statusValues := by
    rcases hst with rfl | rfl | rfl
    · exact h.status
    · decide
    · decide
  rw [he, State.issue_eq]
  exact ⟨h.cfg, hmem, h.result1, h.shadowAddrs, h.shadowEmpty, fun _ => h.notReady hready, fun hs => absurd hs hb'⟩

/-- An accepted instruction keeps the state sound, whichever way it ends. -/
theorem Ending.sound {i : Instr} {s t : State} (ha : s.Accepts) (hs : s.Sound) (h : Ending i s t) : t.Sound := by
  obtain ⟨hidle, hready⟩ := ha
  have hshadow := hs.shadowFormed.shadowAfter
  cases h with
  | completed evs x y h counts keep0 keep1 bit1 eq =>
    subst eq
    refine .ofReady (by simpa using hready) (by simp [hidle]) (by simpa using hs.cfg) ?_ ?_ (by simpa using hshadow evs)
    · dsimp only
      split
      · decide
      · exact hs.status
    · rcases bit1 with rfl | hy
      · exact hs.result1
      · exact hy
  | rejected c code which eq =>
    subst eq
    exact hs.withStatus (statusWord_false_mem c)
  | stopped st c csf before tail h eq =>
    subst eq
    exact .ofReady (by simpa using hready) (by simp [hidle]) (by simpa using hs.cfg) h.fails.status_mem
      (by simpa using hs.result1) (by simpa using hshadow (before ++ tail))
  | held before e h eq =>
    subst eq
    exact .ofReady (by simpa using hready) (by simp) (by simpa using hs.cfg) (by simpa using hs.status)
      (by simpa using hs.result1) (by simpa using hshadow (before ++ [e]))

theorem State.Sound.exec {i : Instr} {s t : State} (hs : s.Sound) (h : exec i s = .next t) : t.Sound := by
  rcases exec_cases h with ⟨-, rfl⟩ | ⟨-, -, rfl⟩ | ⟨ha, he⟩
  · exact hs
  · exact hs.withStatus (by decide)
  · exact he.sound ha hs

theorem State.Sound.illegalCommand {s : State} (hs : s.Sound) : (illegalCommand s).Sound := by
  rcases illegalCommand_cases s with ⟨-, h⟩ | ⟨-, -, h⟩ | ⟨-, h⟩ <;> rw [h]
  · exact hs
  · exact hs.withStatus (by decide)
  · exact hs.withStatus (by decide)

/-- Settles O52, by what a step can do: power-on, waiting, reset, an instruction, or an illegal header. -/
theorem stepKeepsSound : Obligations.StepKeepsSound := by
  intro s t hs h
  rcases step_cases h with ⟨hb, rfl⟩ | ⟨-, -, rfl⟩ | ⟨-, rest, -, rfl⟩ | ⟨-, p, rest, i, -, -, he⟩ | ⟨-, p, rest, e, -, -, rfl⟩
  · exact hs.powerOn hb
  · exact hs
  · exact (hs.withInputs rest).assertReset
  · exact (hs.withInputs rest).exec he
  · exact (hs.withInputs rest).illegalCommand

/-! ### A primitive that never returns (R18, R150; log 6) -/

/-- A command whose pseudocode hangs after events of its own stays in progress, with nothing written beyond them. -/
theorem command_andThen_hung {α β : Type} {s : State} {piece : State → Run α} {f : α → State → Run β} {evs : List Event}
    (ha : s.Accepts)
    (h : piece { s with busy := .running } = .hung (State.afterEvents { s with busy := .running } evs)) :
    command (fun s => (piece s).andThen f) s = { s.afterEvents evs with busy := .running } := by
  rw [command_accepts _ ha, h]
  exact s.afterEvents_running evs

/-- Settles O12: the transaction's hang is the command's. -/
theorem hungTransactionHolds : Obligations.HungTransactionHolds := by
  intro s a v rx h ha
  have running : ∀ evs, State.gives { s with busy := .running } evs = s.gives evs := State.gives_congr rfl rfl
  refine ⟨fun hg => ?_, fun hg => ?_⟩
  · exact congrArg _ (command_andThen_hung ha (regRead_hang (by rwa [running])))
  · exact congrArg _ (command_andThen_hung ha (regWrite_hang (by rwa [running])))

/-- Of the four endings only the held one leaves `BUSY = 1`. -/
theorem Ending.idle_or_held {i : Instr} {s t : State} (hidle : s.busy = .idle) (h : Ending i s t) :
    t.busy = .idle ∨ ∃ before e, Hangs (Allowed i) s before e ∧ t = { s.afterEvents (before ++ [e]) with busy := .running } := by
  cases h with
  | completed evs x y h counts keep0 keep1 bit1 eq => exact .inl (by simp [eq, hidle])
  | rejected c code which eq => exact .inl (by simp [eq, hidle])
  | stopped st c csf before tail h eq => exact .inl (by simp [eq, hidle])
  | held before e h eq => exact .inr ⟨before, e, h, eq⟩

/-- Settles O37: an accepted instruction that leaves `BUSY = 1` is held in its last event. -/
theorem hangWritesNothing : Obligations.HangWritesNothing := by
  intro i s t ha h hbusy
  obtain ⟨u, hu, hend⟩ := exec_ending i ha
  obtain rfl : u = t := by simpa [hu] using h
  rcases hend.idle_or_held ha.1 with hidle | ⟨before, e, hh, rfl⟩
  · simp [State.busyBit, hidle] at hbusy
  · exact ⟨by simp, by simp, by simp, before, e, by simp, hh.returned, hh.hangs⟩

/-- Settles O50: while the RBIC is held, nothing presented is accepted. -/
theorem onlyResetEndsHang : Obligations.OnlyResetEndsHang := by
  intro s hb
  have hne : ∀ rest, ({ s with inputs := rest } : State).busy ≠ .idle := by simp [hb]
  refine ⟨fun t h => ?_, fun hi => by simp [step, advance, hb, hi]⟩
  rcases step_cases h with ⟨hb', -⟩ | ⟨hb', -, -⟩ | ⟨-, rest, -, rfl⟩ | ⟨-, p, rest, i, hi, -, he⟩ | ⟨-, p, rest, e, hi, -, rfl⟩
  · simp [hb] at hb'
  · simp [hb] at hb'
  · exact .inl rfl
  · rw [exec_busy i (hne rest)] at he
    cases he
    exact .inr (by rw [hi, List.tail_cons])
  · exact .inr (by rw [illegalCommand, command_busy _ (hne rest), hi, List.tail_cons])

/-! ### Reset -/

/-- Settles O46: the column "at reset assertion" of R47, line by line. -/
theorem resetValues : Obligations.ResetValues := by
  have lines : ∀ l, State.reset.lines.get l = .unknown := by
    intro l
    cases l <;> rfl
  exact ⟨rfl, rfl, rfl, rfl, rfl, lines, rfl, rfl⟩

end Sys2Proof.Machine

/-! PROOFS. The state (10_state.md): which fields an instruction and a step may change, and by which events (R23, R26, R27, R34, R37,
R104); what is presented while `BUSY = 1` or `READY = 0` (R31, R32, R149); and what reset leaves (R47, R139). -/

namespace Sys2Proof.Machine

/-! ### What lists of events do to the lines and the shadow -/

theorem linesAfter_append (a b : List Event) (ls : Lines) : linesAfter (a ++ b) ls = linesAfter b (linesAfter a ls) :=
  List.foldl_append

/-- A line no event drives keeps its level (R34). -/
theorem linesAfter_get_of_undriven {evs : List Event} {l : Line} (h : ∀ lvl o, .pinSet l lvl o ∉ evs) (ls : Lines) :
    (linesAfter evs ls).get l = ls.get l := by
  induction evs generalizing ls with
  | nil => rfl
  | cons e evs ih =>
    have hstep : (lineStep ls e).get l = ls.get l := by
      fun_cases lineStep ls e
      case case1 k lvl =>
        have hk : l ≠ k := by rintro rfl; exact h lvl .ok List.mem_cons_self
        simp [hk]
      case case2 k lvl =>
        have hk : l ≠ k := by rintro rfl; exact h lvl .fail List.mem_cons_self
        simp [hk]
      all_goals rfl
    exact (ih (fun lvl o hm => h lvl o (List.mem_cons_of_mem e hm)) _).trans hstep

/-- Events among which is no bus write leave the shadow, and no write waits after them (R105). -/
theorem foldl_shadowStep_of_no_write (c : Config) {evs : List Event} (h : ∀ e ∈ evs, e.kind ≠ .write)
    (cells : List ShadowCell) : evs.foldl (shadowStep c) (none, cells) = (none, cells) := by
  induction evs with
  | nil => rfl
  | cons e evs ih =>
    have hstep : shadowStep c (none, cells) e = (none, cells) := by
      cases e with
      | busWrite f o => exact absurd rfl (h _ List.mem_cons_self)
      | pinSet l lvl o => cases l <;> cases lvl <;> cases o <;> rfl
      | busXfer f o => rfl
      | delay n o => rfl
    rw [List.foldl_cons, hstep]
    exact ih fun e he => h e (List.mem_cons_of_mem _ he)

/-! ### An instruction: its events, and at most `STATUS`, the results and `BUSY` beyond them -/

/-- The next state `t` of an instruction is the one its events `evs` give, but for `STATUS`, the results and `BUSY`. -/
structure EffectOf (i : Instr) (s t : State) (evs : List Event) : Prop where
  gives : s.gives evs = true
  noneWaiting : NoneWaiting s.cfg evs
  allowed : ∀ e ∈ evs, Allowed i e
  eq : t = { s.afterEvents evs with status := t.status, result0 := t.result0, result1 := t.result1, busy := t.busy }

/-- A change of `STATUS` alone is the effect of no event. -/
theorem EffectOf.status (i : Instr) (s : State) (w : Word) : EffectOf i s { s with status := w } [] :=
  ⟨rfl, NoneWaiting.nil _, by simp, by simp⟩

theorem Ending.effectOf {i : Instr} {s t : State} (h : Ending i s t) : ∃ evs, EffectOf i s t evs := by
  cases h with
  | completed evs x y h counts keep0 keep1 bit1 eq =>
    subst eq
    exact ⟨evs, h.gives, h.noneWaiting, h.allowed, by simp⟩
  | rejected c code which eq =>
    subst eq
    exact ⟨[], .status i s _⟩
  | stopped st c csf before tail h eq =>
    subst eq
    exact ⟨before ++ tail, h.gives, h.noneWaiting, h.allowed, by simp⟩
  | held before e h eq =>
    subst eq
    exact ⟨before ++ [e], h.gives, h.noneWaiting, h.allowed, by simp⟩

theorem exec_effectOf {i : Instr} {s t : State} (h : exec i s = .next t) : ∃ evs, EffectOf i s t evs := by
  rcases exec_cases h with ⟨-, rfl⟩ | ⟨-, -, rfl⟩ | ⟨-, he⟩
  · exact ⟨[], .status i _ _⟩
  · exact ⟨[], .status i s _⟩
  · exact he.effectOf

/-- Settles O38: each way an instruction can end gives the events and the fields beyond them. -/
theorem effectsAreThoseOfEvents : Obligations.EffectsAreThoseOfEvents := by
  intro i s t h
  obtain ⟨evs, he⟩ := exec_effectOf h
  exact ⟨evs, he.gives, he.eq⟩

section
variable {i : Instr} {s t : State} {evs : List Event}

theorem EffectOf.cfg (h : EffectOf i s t evs) : t.cfg = s.cfg :=
  (congrArg State.cfg h.eq).trans (s.afterEvents_cfg evs)
theorem EffectOf.ready (h : EffectOf i s t evs) : t.ready = s.ready :=
  (congrArg State.ready h.eq).trans (s.afterEvents_ready evs)
theorem EffectOf.inputs (h : EffectOf i s t evs) : t.inputs = s.inputs :=
  (congrArg State.inputs h.eq).trans (s.afterEvents_inputs evs)
theorem EffectOf.trace (h : EffectOf i s t evs) : t.trace = s.trace ++ evs := congrArg State.trace h.eq
theorem EffectOf.lines (h : EffectOf i s t evs) : t.lines = linesAfter evs s.lines := congrArg State.lines h.eq
theorem EffectOf.shadow (h : EffectOf i s t evs) : t.shadow = shadowAfter s.cfg evs s.shadow := congrArg State.shadow h.eq

end

/-! ### A step: its events, or reset -/

/-- `TRACE`, `LINE` and `SHADOW` at `t` are what the events `evs` make of them at `s`. -/
structure FollowsEvents (s t : State) (evs : List Event) : Prop extends ExtendsTrace s t evs where
  lines : t.lines = linesAfter evs s.lines
  shadow : t.shadow = shadowAfter s.cfg evs s.shadow
  noneWaiting : NoneWaiting s.cfg evs

/-- The events a step adds to `TRACE` are determined by it. -/
theorem ExtendsTrace.of_trace {s t : State} {evs evs' : List Event} (h : ExtendsTrace s t evs')
    (ht : t.trace = s.trace ++ evs) : ExtendsTrace s t evs := by
  obtain rfl : evs = evs' := List.append_cancel_left (ht.symm.trans h.trace)
  exact h

/-- Events a step adds are those of whole transactions, and a held RBIC adds none (R53, R150). -/
theorem ExtendsTrace.unbroken {s t : State} {evs : List Event} (h : ExtendsTrace s t evs) :
    evs.foldl frameStep .between ≠ .broken := by
  have hf := h.framed
  have ht : t.busy.framing ≠ .broken := by cases t.busy <;> decide
  cases hs : s.busy with
  | idle => rw [hs] at hf; exact fun hb => ht (hf.symm.trans hb)
  | starting => rw [hs] at hf; exact fun hb => ht (hf.symm.trans hb)
  | running =>
    rw [hs] at hf
    rw [frameStep_stuck (fun hb => ht (hf.symm.trans hb))]
    decide

theorem exec_followsEvents {i : Instr} {s t : State} (h : exec i s = .next t) : ∃ evs, FollowsEvents s t evs := by
  obtain ⟨evs, he⟩ := exec_effectOf h
  obtain ⟨evs', hx⟩ := exec_extendsTrace h
  exact ⟨evs, hx.of_trace he.trace, he.lines, he.shadow, he.noneWaiting⟩

/-- A change of fields other than the configuration, `TRACE`, `BUSY`, `LINE` and `SHADOW` follows no event. -/
theorem ExtendsTrace.followsNil {s t : State} (h : ExtendsTrace s t []) (hl : t.lines = s.lines) (hs : t.shadow = s.shadow) :
    FollowsEvents s t [] :=
  ⟨h, hl, hs, NoneWaiting.nil _⟩

theorem illegalCommand_followsNil (s : State) : FollowsEvents s (illegalCommand s) [] := by
  rcases illegalCommand_cases s with ⟨-, h⟩ | ⟨-, -, h⟩ | ⟨-, h⟩ <;>
    exact (illegalCommand_extendsTrace s).followsNil (by rw [h]) (by rw [h])

/-! ### The power-on sequence: its three ends, from the state in which it starts (R140) -/

/-- The event of a line the sequence fails or hangs in. -/
def powerOnStop (l : Line) (out : PrimOutcome) : Event := .pinSet l (l == .csN || l == .enN) out

/-- The power-on sequence sets every line, or stops at the first that fails, or is held in one that never returns. -/
theorem powerOn_cases (s : State) :
    (powerOn s = { s.issue (s.cfg.resetPinOrder.map powerOnEvent) with status := 0#32, ready := true, busy := .idle }) ∨
    ∃ (before after : List Line) (l : Line), s.cfg.resetPinOrder = before ++ l :: after ∧
      ((powerOn s = { s.issue (before.map powerOnEvent ++ [powerOnStop l .fail]) with
          status := 0x2#32, ready := false, busy := .idle }) ∨
        powerOn s = { s.issue (before.map powerOnEvent ++ [powerOnStop l .noReturn]) with busy := .running }) := by
  unfold powerOn
  rcases powerOnLines_cases s.cfg.resetPinOrder { s with busy := .running } with
    ⟨-, h⟩ | ⟨before, after, l, ho, -, h⟩ | ⟨before, after, l, ho, -, h⟩
  · exact .inl (by rw [h, State.issue_running])
  · exact .inr ⟨before, after, l, ho, .inl (by rw [h, State.issue_running]; rfl)⟩
  · exact .inr ⟨before, after, l, ho, .inr (by rw [h, State.issue_running]; rfl)⟩

/-- The sequence issues `PinSet` events alone. -/
theorem powerOn_pins (s : State) : ∃ evs, (∀ e ∈ evs, e.kind ≠ .write) ∧ (powerOn s).trace = s.trace ++ evs ∧
    (powerOn s).lines = linesAfter evs s.lines ∧ (powerOn s).shadow = s.shadow := by
  rcases powerOn_cases s with h | ⟨before, after, l, -, h | h⟩ <;> rw [h]
  all_goals exact ⟨_, by simp +contextual [powerOnEvent, powerOnStop, Event.kind, or_imp], rfl, rfl, State.issue_shadow s _⟩

theorem powerOn_followsEvents {s : State} (hb : s.busy = .starting) : ∃ evs, FollowsEvents s (powerOn s) evs := by
  obtain ⟨evs, hk, ht, hl, hs⟩ := powerOn_pins s
  obtain ⟨evs', hx⟩ := powerOn_extendsTrace hb
  have hf := foldl_shadowStep_of_no_write s.cfg hk
  exact ⟨evs, hx.of_trace ht, hl, by rw [hs, shadowAfter, hf], fun cells => by rw [hf]⟩

/-- Every step but a reset follows events of its own. -/
theorem step_followsEvents {s t : State} (h : step s = .next t) :
    (∃ evs, FollowsEvents s t evs) ∨ ∃ rest, t = State.assertReset { s with inputs := rest } := by
  rcases step_cases h with ⟨hb, rfl⟩ | ⟨-, -, rfl⟩ | ⟨-, rest, -, rfl⟩ | ⟨-, p, rest, i, -, -, he⟩ | ⟨-, p, rest, e, -, -, rfl⟩
  · exact .inl (powerOn_followsEvents hb)
  · exact .inl ⟨[], (ExtendsTrace.nil rfl rfl rfl).followsNil rfl rfl⟩
  · exact .inr ⟨rest, rfl⟩
  · obtain ⟨evs, ⟨hc, ht, hf⟩, hl, hs, hn⟩ := exec_followsEvents he
    exact .inl ⟨evs, ⟨hc, ht, hf⟩, hl, hs, hn⟩
  · obtain ⟨⟨hc, ht, hf⟩, hl, hs, hn⟩ := illegalCommand_followsNil { s with inputs := rest }
    exact .inl ⟨[], ⟨hc, ht, hf⟩, hl, hs, hn⟩

/-- Settles O53: the events a step adds carry `LINE` from what `TRACE` made it to what it now makes it; a reset leaves every line
U and `TRACE` empty. -/
theorem stepKeepsLinesFollowTrace : Obligations.StepKeepsLinesFollowTrace := by
  intro s t hs h
  rcases step_followsEvents h with ⟨evs, he⟩ | ⟨rest, rfl⟩
  · calc
      t.lines = linesAfter evs s.lines := he.lines
      _ = linesAfter evs (linesAfter s.trace Lines.allUnknown) := by rw [← hs]
      _ = linesAfter t.trace Lines.allUnknown := by rw [he.trace, linesAfter_append]
  · rfl

/-- Settles O54: the events a step adds hold whole write transactions, so they carry `SHADOW` from what `TRACE` made it to what it
now makes it; a reset leaves every entry invalid and `TRACE` empty. -/
theorem stepKeepsShadowFollowsTrace : Obligations.StepKeepsShadowFollowsTrace := by
  intro s t hs h
  rcases step_followsEvents h with ⟨evs, he⟩ | ⟨rest, rfl⟩
  · unfold State.ShadowFollowsTrace at *
    rw [he.cfg, he.trace, List.foldl_append, hs, he.noneWaiting.foldl, he.shadow]
  · rfl

/-- Settles O20: reset aside, a step follows its events. -/
theorem onlyPinSetsChangeLines : Obligations.OnlyPinSetsChangeLines := by
  intro s t h hb
  rcases step_followsEvents h with ⟨evs, he⟩ | ⟨rest, rfl⟩
  · exact ⟨evs, he.trace, he.lines⟩
  · exact absurd rfl hb

end Sys2Proof.Machine

/-! PROOFS. The state (10_state.md), continued: the last successful write in `SHADOW` (R37), the frame of an instruction, `RESULT1`
(R27), and what is presented while `BUSY = 1` or `READY = 0` (R31, R32, R149). -/

namespace Sys2Proof.Machine

/-! ### The last successful write (R37) -/

/-- A successful write transaction stands between transactions, or the trace is not one of the RBIC. -/
theorem foldl_frameStep_writeTxn (p : Framing) (f : Frame) :
    (writeTxn f).foldl frameStep p = .between ∨ (writeTxn f).foldl frameStep p = .broken := by
  cases p with
  | between => exact .inl rfl
  | _ => exact .inr rfl

/-- After a successful write transaction to a tracked register and events that hold no later one to it, its entry is the value
written, whatever stood before. -/
theorem findCell_shadowAfter_writeTxn {c : Config} {a : Addr} {v : Word} {before after : List Event} (cells : List ShadowCell)
    (ha : a ∈ c.trackedSet) (hf : (before ++ writeTxn (writeFrame a v) ++ after).foldl frameStep .between ≠ .broken)
    (hafter : NoWriteTo a after) :
    findCell (shadowAfter c (before ++ writeTxn (writeFrame a v) ++ after) cells) a = some ⟨a, true, v⟩ := by
  have hbetween : after.foldl frameStep .between ≠ .broken := by
    rw [List.foldl_append, List.foldl_append] at hf
    rcases foldl_frameStep_writeTxn (before.foldl frameStep .between) (writeFrame a v) with h | h
    · rwa [h] at hf
    · rw [h, frameStep_broken] at hf
      exact absurd rfl hf
  have hwrite : ∀ w : Option Frame × List ShadowCell,
      (writeTxn (writeFrame a v)).foldl (shadowStep c) w = (none, putCell w.2 a v) := by
    rintro ⟨o, cs⟩
    have hassert : shadowStep c (o, cs) (.pinSet .csN false .ok) = (none, cs) := by cases o <;> rfl
    rw [writeTxn, List.foldl_cons, hassert]
    simp [shadowStep, ha]
  rw [shadowAfter, List.foldl_append, List.foldl_append, hwrite]
  exact (findCell_shadowAfter_framed _ hbetween hafter).trans (findCell_putCell_self _ a v)

/-- Settles O18: the events of a step are framed, so a write that is not released with Ok leaves its entry, and the last one that
is gives it. -/
theorem cacheHoldsLastWrite : Obligations.CacheHoldsLastWrite := by
  refine ⟨fun s t a v before after h ha ht hafter => ?_, fun s t a v evs h hb ht hno hs => ?_⟩
  · rcases step_followsEvents h with ⟨evs, he⟩ | ⟨rest, rfl⟩
    · obtain rfl := List.append_cancel_left (he.trace.symm.trans ht)
      rw [he.shadow]
      exact findCell_shadowAfter_writeTxn _ ha he.unbroken hafter
    · simp [writeTxn] at ht
  · rcases step_followsEvents h with ⟨evs', he⟩ | ⟨rest, rfl⟩
    · obtain rfl := List.append_cancel_left (he.trace.symm.trans ht)
      rw [he.shadow, findCell_shadowAfter_framed _ he.unbroken hno, hs]
    · exact absurd rfl hb

/-! ### The frame of an instruction -/

/-- An accepted instruction writes only the results its rule names (R26, R27). -/
theorem Ending.keeps_results {i : Instr} {s t : State} (h : Ending i s t) :
    (writesResult0 i = false → t.result0 = s.result0) ∧ (writesResult1 i = false → t.result1 = s.result1) := by
  cases h with
  | completed evs x y h counts keep0 keep1 bit1 eq => subst eq; exact ⟨keep0, keep1⟩
  | rejected c code which eq => subst eq; exact ⟨fun _ => rfl, fun _ => rfl⟩
  | stopped st c csf before tail h eq => subst eq; simp
  | held before e h eq => subst eq; simp

theorem exec_keeps_results {i : Instr} {s t : State} (h : exec i s = .next t) :
    (writesResult0 i = false → t.result0 = s.result0) ∧ (writesResult1 i = false → t.result1 = s.result1) := by
  rcases exec_cases h with ⟨-, rfl⟩ | ⟨-, -, rfl⟩ | ⟨-, he⟩
  · exact ⟨fun _ => rfl, fun _ => rfl⟩
  · exact ⟨fun _ => rfl, fun _ => rfl⟩
  · exact he.keeps_results

/-- An instruction's events write only the addresses its rule names (R104). -/
theorem EffectOf.noWriteTo {i : Instr} {s t : State} {evs : List Event} (h : EffectOf i s t evs) {a : Addr}
    (ha : a ∉ mayWrite i) : NoWriteTo a evs := by
  rintro f hf rfl
  obtain ⟨-, hmem⟩ := h.allowed (.busWrite f .ok) (hf.subset (by simp [writeTxn]))
  exact ha hmem

/-- An instruction that drives no line issues no primitive: a transfer needs chip-select, a delay the step line. -/
theorem EffectOf.eq_nil {i : Instr} {s t : State} {evs : List Event} (h : EffectOf i s t evs) (hi : mayDrive i = []) :
    evs = [] := by
  refine List.eq_nil_iff_forall_not_mem.2 fun e he => ?_
  have ha := h.allowed e he
  cases e <;> simp [Allowed, hi] at ha

/-- Settles O39, clause by clause, from the events the instruction may issue. -/
theorem instructionFrame : Obligations.InstructionFrame := by
  intro i s t h
  obtain ⟨evs, he⟩ := exec_effectOf h
  obtain ⟨hr0, hr1⟩ := exec_keeps_results h
  refine ⟨he.cfg, he.ready, he.inputs, hr0, hr1, fun l hl => ?_, fun a ha => ?_, fun hi => ?_⟩
  · rw [he.lines]
    exact linesAfter_get_of_undriven (fun lvl o hm => hl (he.allowed _ hm)) _
  · obtain ⟨evs', hx⟩ := exec_extendsTrace h
    rw [he.shadow]
    exact findCell_shadowAfter_framed _ (hx.of_trace he.trace).unbroken (he.noWriteTo ha)
  · obtain rfl := he.eq_nil hi
    rw [he.eq, State.afterEvents_nil]
    exact ⟨rfl, rfl, rfl, rfl⟩

/-! ### `RESULT1` (R27) -/

/-- The shadow gives a value exactly for a tracked address with a valid entry (R102). -/
theorem State.cacheGet_eq_some_iff (s : State) (a : Addr) (d : Word) :
    s.cacheGet a = some d ↔ a ∈ s.cfg.trackedSet ∧ findCell s.shadow a = some ⟨a, true, d⟩ := by
  cases hf : findCell s.shadow a with
  | none => simp [State.cacheGet, hf]
  | some x =>
    have hx : x.addr = a := by simpa using List.find?_some hf
    obtain ⟨b, valid, w⟩ := x
    cases valid <;> simp_all [State.cacheGet, State.tracked]

theorem exec_cacheGet {s : State} (hs : s.Accepts) (a : Addr) :
    exec (.cacheGet a) s = .next { s with
      status := 0#32, result0 := (s.cacheGet a).getD 0#32, result1 := if (s.cacheGet a).isSome then 1#32 else 0#32 } := by
  have hrun : State.cacheGet { s with busy := .running } a = s.cacheGet a := rfl
  change Host.Outcome.next (command (cacheGetBody a) s) = _
  rw [command_accepts _ hs, cacheGetBody, hrun, hs.1]
  cases s.cacheGet a <;> rfl

/-- Settles O21: only CACHE_GET may write `RESULT1`, and it writes whether the shadow gives a value. -/
theorem result1IsCacheGets : Obligations.Result1IsCacheGets := by
  refine ⟨rfl, fun i s t h hi => (exec_keeps_results h).2 ?_, fun s a hs => ⟨_, exec_cacheGet hs a, ?_, ?_⟩⟩
  · cases i with
    | cacheGet a => exact absurd rfl (hi a)
    | _ => rfl
  · rintro ⟨ha, d, hd⟩
    simp [(s.cacheGet_eq_some_iff a d).2 ⟨ha, hd⟩]
  · intro hmiss
    cases hg : s.cacheGet a with
    | none => rfl
    | some d =>
      obtain ⟨ha, hd⟩ := (s.cacheGet_eq_some_iff a d).1 hg
      exact absurd ⟨ha, d, hd⟩ hmiss

/-! ### What is presented while `READY = 0` or `BUSY = 1` (R31, R32, R149) -/

/-- The check of `READY` stands before decoding (R125). -/
theorem runPacket_notReady (p : Packet) {s : State} (h : s.busy = .idle) (hr : s.ready = false) :
    runPacket p s = .next { s with status := 0x4#32 } := by
  unfold runPacket
  cases decode p with
  | ok i => exact exec_notReady i h hr
  | error e => exact congrArg _ (command_notReady _ h hr)

theorem runPacket_busy (p : Packet) {s : State} (h : s.busy ≠ .idle) : runPacket p s = .next s := by
  unfold runPacket
  cases decode p with
  | ok i => exact exec_busy i h
  | error e => exact congrArg _ (command_busy _ h)

/-- Settles O30: a presented packet is answered before it is decoded. -/
theorem notReadyRejectsEverything : Obligations.NotReadyRejectsEverything := by
  intro s c rest hb hr hi
  rw [step_present (by simp [hb]) hi]
  exact runPacket_notReady (.command c) hb hr

theorem State.busyBit_iff (s : State) : s.busyBit = true ↔ s.busy ≠ .idle := by
  unfold State.busyBit
  cases s.busy <;> decide

/-- Settles O31: a held RBIC takes the packet off the host's list, and no instruction or illegal header does more. -/
theorem busyAcceptsNothing : Obligations.BusyAcceptsNothing := by
  refine ⟨fun s i hb => exec_busy i (s.busyBit_iff.1 hb), fun s p rest hb hi => ?_⟩
  rw [step_present (by simp [hb]) hi]
  exact runPacket_busy p (by simp [hb])

end Sys2Proof.Machine

/-! PROOFS. The state (10_state.md), continued: no command reads `STATUS` or `TRACE` (R23, R30), and what reset leaves (R47, R139). -/

namespace Sys2Proof.Machine

/-! ### Pseudocode that reads neither `STATUS` nor `TRACE` -/

/-- The same state with another `STATUS`, and with `TRACE` standing after the events `tr`. -/
def State.onto (s : State) (w : Word) (tr : List Event) : State := { s with status := w, trace := tr ++ s.trace }

theorem State.upcoming_onto (s : State) (w : Word) (tr : List Event) (k : Nat) : (s.onto w tr).upcoming k = s.upcoming k :=
  State.upcoming_congr rfl rfl k

theorem State.issue_onto (s : State) (w : Word) (tr evs : List Event) : (s.onto w tr).issue evs = (s.issue evs).onto w tr := by
  have he : ((s.onto w tr).dropDraws evs.length).env = (s.dropDraws evs.length).env := State.dropDraws_env_congr (by rfl) _
  have hc : ((s.onto w tr).dropDraws evs.length).drawCount = (s.dropDraws evs.length).drawCount :=
    State.dropDraws_drawCount_congr (by rfl) (by rfl) _
  rw [State.issue_eq, State.issue_eq s, he, hc]
  simp [State.onto]

theorem State.issue_busy (s : State) (evs : List Event) : (s.issue evs).busy = s.busy := by
  rw [State.issue_eq]

theorem State.cachePut_onto (s : State) (a : Addr) (v : Word) (w : Word) (tr : List Event) :
    (s.onto w tr).cachePut a v = (s.cachePut a v).onto w tr := by
  have ht : (s.onto w tr).tracked a = s.tracked a := rfl
  unfold State.cachePut
  rw [ht]
  split <;> rfl

/-- The second run ends as the first does, in the same state but for `STATUS` and the events before; unless they raise, both
are still in progress. -/
inductive Run.Matches {α : Type} (w : Word) (tr : List Event) : Run α → Run α → Prop where
  | done (a : α) (s : State) (h : s.busy = .running) : Matches w tr (.done a s) (.done a (s.onto w tr))
  | raised (e : ErrCode) (csf : Bool) (s : State) : Matches w tr (.raised e csf s) (.raised e csf (s.onto w tr))
  | hung (s : State) (h : s.busy = .running) : Matches w tr (.hung s) (.hung (s.onto w tr))

/-- Pseudocode that reads neither `STATUS` nor `TRACE`. -/
def Run.Blind {α : Type} (body : State → Run α) : Prop :=
  ∀ (w : Word) (tr : List Event) (s : State), s.busy = .running → (body s).Matches w tr (body (s.onto w tr))

theorem Run.Matches.andThen {α β : Type} {w : Word} {tr : List Event} {r q : Run α} {g : α → State → Run β}
    (h : r.Matches w tr q) (hg : ∀ a, Run.Blind (g a)) : (r.andThen g).Matches w tr (q.andThen g) := by
  cases h with
  | done a t ht => exact hg a w tr t ht
  | raised e csf t => exact .raised e csf t
  | hung t ht => exact .hung t ht

theorem Run.Blind.andThen {α β : Type} {f : State → Run α} {g : α → State → Run β} (hf : Run.Blind f)
    (hg : ∀ a, Run.Blind (g a)) : Run.Blind fun s => (f s).andThen g :=
  fun w tr s hs => (hf w tr s hs).andThen hg

/-- The configuration may be read. -/
theorem Run.Blind.ofCfg {α : Type} {f : Config → State → Run α} (h : ∀ c, Run.Blind (f c)) : Run.Blind fun s => f s.cfg s :=
  fun w tr s hs => h s.cfg w tr s hs

theorem Run.Blind.done {α : Type} (a : α) : Run.Blind (Run.done a) := fun _ _ s hs => .done a s hs

theorem Run.Blind.raised {α : Type} (e : ErrCode) (csf : Bool) : Run.Blind (Run.raised (α := α) e csf) :=
  fun _ _ s _ => .raised e csf s

theorem Run.Blind.setResult0 (v : Word) : Run.Blind fun s => .done () (s.setResult0 v) :=
  fun _ _ s hs => .done () (s.setResult0 v) hs

/-! ### The shared operations are blind -/

theorem txnEnd_matches (transfer release : PrimOutcome) (rx : Frame) {s : State} (hs : s.busy = .running) (w : Word)
    (tr : List Event) : (txnEnd transfer release rx s).Matches w tr (txnEnd transfer release rx (s.onto w tr)) := by
  unfold txnEnd
  cases release with
  | noReturn => exact .hung s hs
  | ok =>
    dsimp only
    split
    · exact .raised _ _ s
    · exact .done rx s hs
  | fail =>
    dsimp only
    split <;> exact .raised _ _ s

theorem txn_blind (kind : TxnKind) (f : Frame) : Run.Blind (txn kind f) := by
  intro w tr s hs
  have hbusy : ∀ evs, (s.issue evs).busy = .running := fun evs => (s.issue_busy evs).trans hs
  rw [txn_eq, txn_eq]
  simp only [State.upcoming_onto, State.issue_onto]
  cases (s.upcoming 0).out with
  | noReturn => exact .hung _ (hbusy _)
  | fail => exact .raised _ _ _
  | ok =>
    cases (s.upcoming 1).out with
    | noReturn => exact .hung _ (hbusy _)
    | ok => exact txnEnd_matches _ _ _ (hbusy _) w tr
    | fail => exact txnEnd_matches _ _ _ (hbusy _) w tr

theorem linePin_blind (l : Line) (lvl : Bool) : Run.Blind (linePin l lvl) := by
  intro w tr s hs
  rw [linePin_eq, linePin_eq]
  simp only [State.upcoming_onto, State.issue_onto]
  cases (s.upcoming 0).out with
  | ok => exact .done _ _ ((s.issue_busy _).trans hs)
  | fail => exact .raised _ _ _
  | noReturn => exact .hung _ ((s.issue_busy _).trans hs)

theorem lineDelay_blind (n : Nat) : Run.Blind (lineDelay n) := by
  intro w tr s hs
  rw [lineDelay_eq, lineDelay_eq]
  simp only [State.upcoming_onto, State.issue_onto]
  cases (s.upcoming 0).out with
  | ok => exact .done _ _ ((s.issue_busy _).trans hs)
  | fail => exact .done _ _ ((s.issue_busy _).trans hs)
  | noReturn => exact .hung _ ((s.issue_busy _).trans hs)

theorem regRead_blind (a : Addr) : Run.Blind (regRead a) :=
  .andThen (.ofCfg fun c => txn_blind .read (readRequest c.placeholder a)) fun rx => .done (responseValue rx)

theorem cachePut_blind (a : Addr) (v : Word) : Run.Blind fun s => .done () (s.cachePut a v) := by
  intro w tr s hs
  dsimp only
  rw [State.cachePut_onto]
  exact .done () _ (by simpa using hs)

theorem regWrite_blind (a : Addr) (v : Word) : Run.Blind (regWrite a v) :=
  (txn_blind .write (writeRequest a v)).andThen fun _ => cachePut_blind a v

theorem modifyChopconf_blind (f : FieldDesc) (x : Word) : Run.Blind (modifyChopconf f x) :=
  (regRead_blind regChopconf).andThen fun _ => (regWrite_blind regChopconf _).andThen fun _ => .done _

theorem currentForModify_blind (a : Addr) : Run.Blind (currentForModify a) := by
  intro w tr s hs
  have ht : (s.onto w tr).tracked a = s.tracked a := rfl
  have hg : (s.onto w tr).cacheGet a = s.cacheGet a := rfl
  unfold currentForModify
  rw [ht, hg]
  split
  · cases s.cacheGet a with
    | some d => exact .done d s hs
    | none => exact .raised _ _ s
  · exact regRead_blind a w tr s hs

/-! ### The commands are blind -/

/-- A check of operands, before any primitive (R125). -/
theorem Run.Blind.guard {α : Type} {p : Prop} [Decidable p] {body : State → Run α} (h : Run.Blind body) (e : ErrCode) :
    Run.Blind fun s => if p then body s else .raised e false s := by
  by_cases hp : p
  · simpa only [if_pos hp] using h
  · simpa only [if_neg hp] using Run.Blind.raised e false

theorem cacheGetBody_blind (a : Addr) : Run.Blind (cacheGetBody a) := by
  intro w tr s hs
  have hg : (s.onto w tr).cacheGet a = s.cacheGet a := rfl
  unfold cacheGetBody
  rw [hg]
  cases s.cacheGet a <;> exact .done () _ hs

theorem modifyFieldBody_blind (a : Addr) (off wid : Nat) (x : Word) : Run.Blind (modifyFieldBody a off wid x) :=
  .guard ((currentForModify_blind a).andThen fun _ => (regWrite_blind a _).andThen fun _ => .setResult0 _) _

theorem resetToff_blind : Run.Blind fun s => (modifyChopconf s.cfg.toffField Config.initToff s).andThen fun _ s => .done () s :=
  .andThen (.ofCfg fun c => modifyChopconf_blind c.toffField _) fun _ => .done ()

theorem setDirectionBody_blind (d : Word) : Run.Blind (setDirectionBody d) := by
  unfold setDirectionBody
  cases directionLevel d with
  | some lvl => exact linePin_blind .dir lvl
  | none => exact .raised _ _

/-- A host command is blind pseudocode with its acceptance and its end around it (R69, R32). -/
theorem exec_eq_command {i : Instr} (hi : isCommand i = true) :
    ∃ body : State → Run Unit, Run.Blind body ∧ ∀ s, exec i s = .next (command body s) := by
  cases i with
  | readReg a => exact ⟨_, (regRead_blind a).andThen fun v => .setResult0 v, fun _ => rfl⟩
  | writeReg a v => exact ⟨_, (regWrite_blind a v).andThen fun _ => .setResult0 v, fun _ => rfl⟩
  | modifyField a off wid x => exact ⟨_, modifyFieldBody_blind a off.toNat wid.toNat x, fun _ => rfl⟩
  | cacheGet a => exact ⟨_, cacheGetBody_blind a, fun _ => rfl⟩
  | fieldGet off wid v => exact ⟨_, .guard (.setResult0 _) _, fun _ => rfl⟩
  | fieldSet off wid v x => exact ⟨_, .guard (.setResult0 _) _, fun _ => rfl⟩
  | init =>
    exact ⟨_, (regWrite_blind _ _).andThen fun _ =>
      .andThen (.ofCfg fun c => modifyChopconf_blind c.mresField _) fun _ => resetToff_blind, fun _ => rfl⟩
  | resetCfg => exact ⟨_, (regWrite_blind _ _).andThen fun _ => resetToff_blind, fun _ => rfl⟩
  | setCurrent run hold delay =>
    exact ⟨_, .guard ((regWrite_blind _ _).andThen fun _ => .setResult0 _) _, fun _ => rfl⟩
  | setMicrosteps code =>
    exact ⟨_, .guard (.andThen (.ofCfg fun c => modifyChopconf_blind c.mresField code) fun v => .setResult0 v) _, fun _ => rfl⟩
  | getDriverStatus =>
    exact ⟨_, (regRead_blind _).andThen fun _ => (regRead_blind _).andThen fun _ => .setResult0 _, fun _ => rfl⟩
  | enableDriver => exact ⟨_, linePin_blind .enN false, fun _ => rfl⟩
  | disableDriver => exact ⟨_, linePin_blind .enN true, fun _ => rfl⟩
  | setDirection d => exact ⟨_, setDirectionBody_blind d, fun _ => rfl⟩
  | step =>
    exact ⟨_, (linePin_blind .step true).andThen fun _ => (lineDelay_blind _).andThen fun _ => linePin_blind .step false,
      fun _ => rfl⟩
  | wireRead a p => cases hi
  | wireWrite a v => cases hi

/-- Matching runs finish in the same state but for the events before and, when both hang, `STATUS`. -/
theorem Run.Matches.finish {α : Type} {w : Word} {tr : List Event} {r q : Run α} (h : r.Matches w tr q) :
    q.finish = r.finish.onto (if r.finish.busy = .running then w else r.finish.status) tr := by
  cases h with
  | done a s h => rfl
  | raised e csf s => rfl
  | hung s h => simp [Run.finish, h]

theorem command_onto {body : State → Run Unit} (hb : Run.Blind body) {s : State} (hs : s.Accepts) (w : Word) (tr : List Event) :
    command body (s.onto w tr) =
      (command body s).onto (if (command body s).busy = .running then w else (command body s).status) tr := by
  rw [command_accepts body hs, command_accepts body (s := s.onto w tr) hs]
  exact (hb w tr { s with busy := .running } rfl).finish

/-- Settles O42: both runs match the one from an empty `TRACE`. -/
theorem statusAndTraceNeverRead : Obligations.StatusAndTraceNeverRead := by
  intro i s t w tr evs hi h hs hidle ht
  obtain ⟨body, hblind, hexec⟩ := exec_eq_command hi
  have hbare : State.Accepts { s with trace := [] } := hs
  have hsame : s = State.onto { s with trace := [] } s.status s.trace := by simp [State.onto]
  have hother : ({ s with status := w, trace := tr } : State) = State.onto { s with trace := [] } w tr := by simp [State.onto]
  rw [hexec, hsame, command_onto hblind hbare] at h
  rw [hexec, hother, command_onto hblind hbare]
  generalize command body { s with trace := [] } = u at *
  obtain rfl := Host.Outcome.next.inj h
  have hu : u.busy ≠ .running := fun hr => by simp [State.busyBit, State.onto, hr] at hidle
  obtain rfl : u.trace = evs := List.append_cancel_left ht
  simp [State.onto, hu]

/-! ### Reset (R47, R139) -/

/-- Settles O49: the record that reset assertion writes is the column, field by field. -/
theorem resetAbandonsCommand : Obligations.ResetAbandonsCommand := by
  intro s rest hb hi
  exact step_reset hb hi

/-- The level the sequence gives a line (R140). -/
theorem ofBit_powerOnLevel (l : Line) : Level.ofBit (powerOnLevel l) = if l = .csN ∨ l = .enN then .high else .low := by
  cases l <;> rfl

theorem lineStep_powerOnEvent (ls : Lines) (l : Line) :
    lineStep ls (powerOnEvent l) = ls.set l (Level.ofBit (powerOnLevel l)) := by
  cases l <;> rfl

/-- The sequence gives each line it sets its level and leaves the others. -/
theorem linesAfter_powerOnEvents_get (ks : List Line) (ls : Lines) (k : Line) :
    (linesAfter (ks.map powerOnEvent) ls).get k = if k ∈ ks then Level.ofBit (powerOnLevel k) else ls.get k := by
  induction ks generalizing ls with
  | nil => rfl
  | cons l ks ih =>
    rw [List.map_cons, linesAfter, List.foldl_cons, lineStep_powerOnEvent]
    refine (ih _).trans ?_
    by_cases hk : k ∈ ks
    · simp [hk]
    · by_cases hl : k = l
      · simp [hl]
      · simp [hk, hl]

/-- The line the sequence fails in is U (R34). -/
theorem linesAfter_powerOnFail_get (before : List Line) (l : Line) (ls : Lines) (k : Line) :
    (linesAfter (before.map powerOnEvent ++ [powerOnStop l .fail]) ls).get k =
      if k = l then .unknown else if k ∈ before then Level.ofBit (powerOnLevel k) else ls.get k := by
  rw [linesAfter_append, ← linesAfter_powerOnEvents_get]
  exact Lines.get_set _ l k .unknown

/-- A valid order names every line, and none twice (R141). -/
theorem Config.resetPinOrder_of_valid {c : Config} (h : c.Valid) : (∀ l, l ∈ c.resetPinOrder) ∧ c.resetPinOrder.Nodup := by
  obtain ⟨-, -, -, -, hperm⟩ := h
  refine ⟨fun l => hperm.mem_iff.2 ?_, hperm.nodup_iff.2 (by decide)⟩
  cases l <;> decide

/-- The power-on sequence writes no result and no entry. -/
theorem powerOn_keeps (s : State) : (powerOn s).result0 = s.result0 ∧ (powerOn s).result1 = s.result1 ∧
    (powerOn s).shadow = s.shadow := by
  obtain ⟨evs, st, r, b, h, -⟩ := powerOn_effect s
  rw [h, State.issue_eq]
  exact ⟨rfl, rfl, rfl⟩

theorem emptyShadow_cells {c : Config} : ∀ x ∈ emptyShadow c, x.v = false ∧ x.d = 0#32 := by
  simp [emptyShadow]

/-- The lines and the events of a sequence that ends, from every line U and an empty `TRACE` (the last two columns of R47). -/
theorem powerOn_columns {s : State} (hv : s.cfg.Valid) (ht : s.trace = []) (hl : s.lines = Lines.allUnknown)
    (hend : (powerOn s).busyBit = false) :
    ((powerOn s).ready = true ∧ (powerOn s).status = 0#32 ∧ (powerOn s).lines = ⟨.high, .high, .low, .low⟩ ∧
      (powerOn s).trace = s.cfg.resetPinOrder.map powerOnEvent) ∨
    ∃ (before after : List Line) (l : Line), s.cfg.resetPinOrder = before ++ l :: after ∧
      (powerOn s).ready = false ∧ (powerOn s).status = 0x2#32 ∧
      (∀ k ∈ before, (powerOn s).lines.get k = if k = .csN ∨ k = .enN then .high else .low) ∧
      (powerOn s).lines.get l = .unknown ∧ (∀ k ∈ after, (powerOn s).lines.get k = .unknown) ∧
      (powerOn s).trace = before.map powerOnEvent ++ [powerOnStop l .fail] := by
  obtain ⟨hall, hnodup⟩ := Config.resetPinOrder_of_valid hv
  have hU : ∀ k, s.lines.get k = .unknown := by
    intro k
    rw [hl]
    cases k <;> rfl
  rcases powerOn_cases s with h | ⟨before, after, l, ho, h | h⟩
  · refine .inl (h ▸ ⟨rfl, rfl, Lines.ext_get _ _ fun k => ?_, by simp [State.issue, ht]⟩)
    refine (linesAfter_powerOnEvents_get _ s.lines k).trans ?_
    rw [if_pos (hall k)]
    cases k <;> rfl
  · obtain ⟨hlne, hdis⟩ := List.nodup_cons.1 (List.nodup_middle.1 (ho ▸ hnodup))
    have hget := linesAfter_powerOnFail_get before l s.lines
    refine .inr ⟨before, after, l, ho, h ▸ ⟨rfl, rfl, fun k hk => ?_, ?_, fun k hk => ?_, by simp [State.issue, ht]⟩⟩
    · have hne : k ≠ l := by rintro rfl; exact hlne (List.mem_append_left _ hk)
      exact (hget k).trans (by rw [if_neg hne, if_pos hk, ofBit_powerOnLevel])
    · exact (hget l).trans (if_pos rfl)
    · have hne : k ≠ l := by rintro rfl; exact hlne (List.mem_append_right _ hk)
      have hnb : k ∉ before := fun hb => List.disjoint_of_nodup_append hdis hb hk
      exact (hget k).trans (by rw [if_neg hne, if_neg hnb, hU])
  · rw [h] at hend
    cases hend

/-- Settles O48: the first column is what reset assertion writes; the other two are the ends of the power-on sequence. -/
theorem resetTable : Obligations.ResetTable := by
  refine ⟨fun s rest hb hi => ⟨_, step_reset hb hi, rfl, rfl, rfl, rfl, rfl, ?_, ?_, emptyShadow_cells, rfl⟩,
    fun s t hs hb h hend => ?_⟩
  · intro l
    cases l <;> rfl
  · exact (shadowFormed_emptyShadow s.cfg).1
  · obtain ⟨hready, htrace, hlines⟩ := hs.starting hb
    obtain ⟨h0, h1, hshadow⟩ := hs.notReady hready
    obtain ⟨k0, k1, kshadow⟩ := powerOn_keeps s
    rw [step_starting hb] at h
    obtain rfl := Host.Outcome.next.inj h
    refine ⟨k0.trans h0, k1.trans h1, ?_, powerOn_columns hs.cfg htrace hlines hend⟩
    rw [kshadow, hshadow]
    exact emptyShadow_cells

/-! ### The state at reset, and a placed instruction -/

/-- Reset assertion makes any state with a valid configuration sound. -/
theorem State.assertReset_sound {s : State} (h : s.cfg.Valid) : s.assertReset.Sound :=
  ⟨h, List.mem_cons_self, .inl rfl, (shadowFormed_emptyShadow s.cfg).1, (shadowFormed_emptyShadow s.cfg).2,
    fun _ => ⟨rfl, rfl, rfl⟩, fun _ => ⟨rfl, rfl, rfl⟩⟩

/-- Settles O51: the reset state is what reset assertion makes of itself. -/
theorem invariantsAtReset : Obligations.InvariantsAtReset := by
  have hvalid : State.reset.cfg.Valid := by decide
  exact ⟨State.assertReset_sound hvalid, rfl, rfl, rfl⟩

theorem State.accepting_accepts (s : State) : s.accepting.Accepts := by
  unfold State.accepting
  cases s.busy <;> exact ⟨rfl, rfl⟩

theorem State.accepting_inputs (s : State) : s.accepting.inputs = s.inputs := by
  unfold State.accepting
  cases s.busy <;> rfl

theorem decode_tablePacket {nbits w : Nat} {i : Instr} (h : decodeTableWord nbits w = some i) :
    decode (tablePacket nbits w) = .ok i := by
  unfold decodeTableWord at h
  cases hd : decode (tablePacket nbits w) with
  | ok j => rw [hd] at h; rw [Option.some.inj h]
  | error e => rw [hd] at h; cases h

/-- Settles O44: the placed words are the host's next act, and they decode to the instruction. -/
theorem placedInstructionRuns : Obligations.PlacedInstructionRuns := by
  intro s nbits w i hd
  have hacc := s.accepting_accepts
  have hb : (s.withFetchWord nbits w).busy ≠ .starting := by simp [State.withFetchWord, State.withPacket, hacc.1]
  refine ⟨hacc, ?_⟩
  rw [step_present (p := tablePacket nbits w) (rest := s.inputs) hb rfl, runPacket, decode_tablePacket hd]
  simp only [State.withFetchWord, State.withPacket, ← s.accepting_inputs]

end Sys2Proof.Machine

/-! PROOFS. The encoding (30_encoding.md): legal headers by fields and by mask and match (R65, R70), decoding and encoding as
inverses (R67, R69, R77, R80), and what a step does with the words it is given (R71, R72, R77). -/

namespace Sys2Proof.Machine

/-! ### A header's fields (R65) -/

theorem append_eq_append_iff {n m : Nat} {x x' : BitVec n} {y y' : BitVec m} : x ++ y = x' ++ y' ↔ x = x' ∧ y = y' := by
  refine ⟨fun h => ⟨?_, ?_⟩, fun ⟨hx, hy⟩ => hx ▸ hy ▸ rfl⟩
  · simpa only [BitVec.extractLsb'_append_eq_left] using congrArg (BitVec.extractLsb' m n) h
  · simpa only [BitVec.extractLsb'_append_eq_right] using congrArg (BitVec.extractLsb' 0 m) h

/-- A word is its seven fields, the three reserved ones included, in the order of R65. -/
theorem fields_append (H : Word) :
    H.extractLsb' 24 8 ++ (H.extractLsb' 23 1 ++ H.extractLsb' 16 7) ++ (H.extractLsb' 14 2 ++ H.extractLsb' 8 6) ++
      (H.extractLsb' 5 3 ++ H.extractLsb' 0 5) = H := by
  iterate 6 rw [BitVec.extractLsb'_append_extractLsb'_eq_extractLsb' (by rfl)]
  exact BitVec.extractLsb'_eq_self

/-- Words are equal field by field. -/
theorem eq_fields_iff (H : Word) (opc : Byte) (r : BitVec 1) (addr : Addr) (r' : BitVec 2) (wid : BitVec 6) (r'' : BitVec 3)
    (off : BitVec 5) :
    H = opc ++ (r ++ addr) ++ (r' ++ wid) ++ (r'' ++ off) ↔
      ((H.extractLsb' 24 8 = opc ∧ H.extractLsb' 23 1 = r ∧ H.extractLsb' 16 7 = addr) ∧
        H.extractLsb' 14 2 = r' ∧ H.extractLsb' 8 6 = wid) ∧ H.extractLsb' 5 3 = r'' ∧ H.extractLsb' 0 5 = off := by
  conv_lhs => rw [← fields_append H]
  iterate 6 rw [append_eq_append_iff]

/-- The match word of an opcode is its header with every other field 0 (R70). -/
theorem matchWord_eq_fields (opc : Byte) :
    (opc ++ 0#24 : Word) = opc ++ (0#1 ++ 0#7) ++ (0#2 ++ 0#6) ++ (0#3 ++ 0#5) := by
  have hzero : ∀ start len, start + len ≤ 24 → (opc ++ 0#24 : Word).extractLsb' start len = 0#len := by
    intro start len h
    rw [BitVec.extractLsb'_append_eq_of_add_le h, BitVec.extractLsb'_zero]
  rw [eq_fields_iff]
  exact ⟨⟨⟨BitVec.extractLsb'_append_eq_left, hzero _ _ (by decide), hzero _ _ (by decide)⟩, hzero _ _ (by decide),
    hzero _ _ (by decide)⟩, hzero _ _ (by decide), hzero _ _ (by decide)⟩

/-- The mask of a row keeps `OPC`, the reserved bits, and the fields the row does not use (R70). -/
theorem HeaderRow.mask_fields (r : HeaderRow) :
    ((r.mask.extractLsb' 24 8 = BitVec.allOnes 8 ∧ r.mask.extractLsb' 23 1 = BitVec.allOnes 1 ∧
        r.mask.extractLsb' 16 7 = bif r.usesAddr then 0#7 else BitVec.allOnes 7) ∧
      r.mask.extractLsb' 14 2 = BitVec.allOnes 2 ∧
        r.mask.extractLsb' 8 6 = bif r.usesField then 0#6 else BitVec.allOnes 6) ∧
      r.mask.extractLsb' 5 3 = BitVec.allOnes 3 ∧
        r.mask.extractLsb' 0 5 = bif r.usesField then 0#5 else BitVec.allOnes 5 := by
  obtain ⟨opc, usesAddr, usesField⟩ := r
  cases usesAddr <;> cases usesField <;> simp only [HeaderRow.mask] <;> decide

/-- A field that meets 0 under its mask is used, or is 0 itself. -/
theorem and_unused_eq_zero_iff {w : Nat} (used : Bool) (x : BitVec w) :
    (x &&& bif used then 0#w else BitVec.allOnes w) = 0#w ↔ used = true ∨ x = 0#w := by
  cases used with
  | true => simp
  | false => simp

/-- The two forms of R70: by fields, and by mask and match. -/
theorem HeaderRow.legal_iff_match (r : HeaderRow) (H : Word) :
    r.legal H = true ↔ H &&& r.mask = (r.opc ++ 0#24 : Word) := by
  obtain ⟨⟨⟨hopc, h23, haddr⟩, h14, hwid⟩, h5, hoff⟩ := r.mask_fields
  rw [matchWord_eq_fields, eq_fields_iff]
  simp only [BitVec.extractLsb'_and, hopc, h23, haddr, h14, hwid, h5, hoff, BitVec.and_allOnes, and_unused_eq_zero_iff,
    HeaderRow.legal, Bool.and_eq_true, Bool.or_eq_true, beq_iff_eq]
  tauto

end Sys2Proof.Machine

namespace Sys2Proof

open Machine

/-! ### Opcodes and their rows (R69, R70) -/

/-- The commands whose header carries ADDR (R69). -/
def Opcode.usesAddr : Opcode → Bool
  | .readReg | .writeReg | .modifyField | .cacheGet => true
  | _ => false

/-- The commands whose header carries WID and OFF (R69). -/
def Opcode.usesField : Opcode → Bool
  | .modifyField | .fieldGet | .fieldSet => true
  | _ => false

/-- The row of R69 an opcode has. -/
def Opcode.row (o : Opcode) : HeaderRow := ⟨o.byte, o.usesAddr, o.usesField⟩

theorem headerRows_eq_map_row : headerRows = Opcode.all.map Opcode.row := by decide

theorem Opcode.mem_all (o : Opcode) : o ∈ Opcode.all := by
  cases o <;> decide

@[simp] theorem Opcode.row_mask (o : Opcode) : o.row.mask = o.mask := by
  cases o <;> decide

theorem Opcode.ofByte_byte (o : Opcode) : Opcode.ofByte o.byte = some o := by
  cases o <;> decide

theorem legalHeader_iff (H : Word) : legalHeader H = true ↔ ∃ o : Opcode, o.row.legal H = true := by
  simp [legalHeader, headerRows_eq_map_row, Opcode.mem_all]

theorem Opcode.legal_iff_match (o : Opcode) (H : Word) : o.row.legal H = true ↔ H &&& o.mask = o.matchWord := by
  rw [HeaderRow.legal_iff_match, Opcode.row_mask]
  rfl

/-- A field set to 0 where it is not used is the same field only if it is used, or is 0 itself. -/
theorem eq_kept_iff {w : Nat} (used : Bool) (x : BitVec w) : x = (bif used then x else 0) ↔ used = true ∨ x = 0 := by
  cases used with
  | true => simp
  | false => simp

/-- A legal header is the encoder's header of its own fields (R65, R67). -/
theorem Opcode.legal_iff_eq_header (o : Opcode) (H : Word) :
    o.row.legal H = true ↔
      H = header o (bif o.usesAddr then H.extractLsb' 16 7 else 0) (bif o.usesField then H.extractLsb' 8 6 else 0)
        (bif o.usesField then H.extractLsb' 0 5 else 0) := by
  rw [header, eq_fields_iff]
  simp only [HeaderRow.legal, Opcode.row, Bool.and_eq_true, Bool.or_eq_true, beq_iff_eq, eq_kept_iff]
  tauto

/-- Every mask of R70 covers the reserved bits of R65. -/
theorem Opcode.reserved_eq_zero {o : Opcode} {H : Word} (h : H &&& o.mask = o.matchWord) : H &&& reservedMask = 0#32 := by
  have hmask : o.mask &&& reservedMask = reservedMask := by cases o <;> decide
  have hmatch : o.matchWord &&& reservedMask = 0#32 := by cases o <;> decide
  rw [← hmask, ← BitVec.and_assoc, h, hmatch]

theorem Opcode.opc_of_legal {o : Opcode} {c : Command} (h : o.row.legal c.H = true) : c.opc = o.byte := by
  rw [Opcode.legal_iff_eq_header, header, eq_fields_iff] at h
  obtain ⟨⟨⟨hopc, -⟩, -⟩, -⟩ := h
  exact hopc

/-- What a record decodes to: the instruction of the opcode whose row its header meets (R70). -/
theorem decodeCommand_eq_ok_iff (c : Command) (i : Instr) :
    decodeCommand c = .ok i ↔ ∃ o : Opcode, o.row.legal c.H = true ∧ i = o.assemble c := by
  constructor
  · intro h
    unfold decodeCommand at h
    split at h
    · cases h
    next o _ =>
      split at h
      · cases h
      · split at h
        next hmatch =>
          cases h
          exact ⟨o, (o.legal_iff_match _).2 hmatch, rfl⟩
        · cases h
  · rintro ⟨o, hlegal, rfl⟩
    have hmatch := (o.legal_iff_match _).1 hlegal
    simp [decodeCommand, Opcode.opc_of_legal hlegal, Opcode.ofByte_byte, Opcode.reserved_eq_zero hmatch, hmatch]

theorem decodes_iff_legalHeader (c : Command) : (∃ i, decode (.command c) = .ok i) ↔ legalHeader c.H = true := by
  rw [legalHeader_iff]
  constructor
  · rintro ⟨i, hi⟩
    obtain ⟨o, hlegal, -⟩ := (decodeCommand_eq_ok_iff c i).1 hi
    exact ⟨o, hlegal⟩
  · rintro ⟨o, hlegal⟩
    exact ⟨o.assemble c, (decodeCommand_eq_ok_iff c _).2 ⟨o, hlegal, rfl⟩⟩

/-- Settles O3: a record decodes by the row of its opcode, and each row has two forms. -/
theorem legalHeadersDecode : Obligations.LegalHeadersDecode := by
  intro c
  refine ⟨decodes_iff_legalHeader c, ?_⟩
  simp only [legalHeader, List.any_eq_true, HeaderRow.legal_iff_match]

/-! ### Headers the encoder makes (R67) -/

section

variable (o : Opcode) (addr : Addr) (wid : BitVec 6) (off : BitVec 5) (A B C : Word)

theorem header_fields :
    (((header o addr wid off).extractLsb' 24 8 = o.byte ∧ (header o addr wid off).extractLsb' 23 1 = 0#1 ∧
        (header o addr wid off).extractLsb' 16 7 = addr) ∧
      (header o addr wid off).extractLsb' 14 2 = 0#2 ∧ (header o addr wid off).extractLsb' 8 6 = wid) ∧
      (header o addr wid off).extractLsb' 5 3 = 0#3 ∧ (header o addr wid off).extractLsb' 0 5 = off :=
  (eq_fields_iff _ _ _ _ _ _ _ _).1 rfl

@[simp] theorem addr_header : (⟨header o addr wid off, A, B, C⟩ : Command).addr = addr := by
  obtain ⟨⟨⟨-, -, haddr⟩, -⟩, -⟩ := header_fields o addr wid off
  exact haddr

@[simp] theorem wid_header : (⟨header o addr wid off, A, B, C⟩ : Command).wid = wid := by
  obtain ⟨⟨-, -, hwid⟩, -⟩ := header_fields o addr wid off
  exact hwid

@[simp] theorem off_header : (⟨header o addr wid off, A, B, C⟩ : Command).off = off := by
  obtain ⟨-, -, hoff⟩ := header_fields o addr wid off
  exact hoff

variable {o addr wid off}

/-- A header of the encoder is legal if it carries only fields its opcode uses (R70). -/
theorem legal_header (haddr : o.usesAddr = true ∨ addr = 0) (hfield : o.usesField = true ∨ wid = 0 ∧ off = 0) :
    o.row.legal (header o addr wid off) = true := by
  obtain ⟨⟨⟨hopc, h23, h16⟩, h14, h8⟩, h5, h0⟩ := header_fields o addr wid off
  simpa [HeaderRow.legal, Opcode.row, hopc, h23, h16, h14, h8, h5, h0] using And.intro haddr hfield

theorem decode_header (haddr : o.usesAddr = true ∨ addr = 0) (hfield : o.usesField = true ∨ wid = 0 ∧ off = 0) :
    decode (.command ⟨header o addr wid off, A, B, C⟩) = .ok (o.assemble ⟨header o addr wid off, A, B, C⟩) :=
  (decodeCommand_eq_ok_iff _ _).2 ⟨o, legal_header haddr hfield, rfl⟩

end

/-- The encoder gives an assembled instruction the header of the fields its opcode uses. -/
theorem encode_assemble (o : Opcode) (c : Command) :
    ∃ a b d, encode (o.assemble c) = .command ⟨header o (bif o.usesAddr then c.addr else 0) (bif o.usesField then c.wid else 0)
      (bif o.usesField then c.off else 0), a, b, d⟩ := by
  cases o <;> exact ⟨_, _, _, rfl⟩

/-! ### Wire frames (R77) -/

/-- A 40-bit word is its direction bit, its address and its low word (R74, R77). -/
theorem eq_frame_iff (w : BitVec 40) (b : Bool) (a : Addr) (v : Word) :
    w = BitVec.ofBool b ++ a ++ v ↔ (w.getLsbD 39 = b ∧ w.extractLsb' 32 7 = a) ∧ w.extractLsb' 0 32 = v := by
  have hbit : BitVec.ofBool (w.getLsbD 39) = w.extractLsb' 39 1 := by
    ext i hi
    obtain rfl : i = 0 := by omega
    simp
  have hw : BitVec.ofBool (w.getLsbD 39) ++ w.extractLsb' 32 7 ++ w.extractLsb' 0 32 = w := by
    rw [hbit]
    iterate 2 rw [BitVec.extractLsb'_append_extractLsb'_eq_extractLsb' (by rfl)]
    exact BitVec.extractLsb'_eq_self
  conv_lhs => rw [← hw]
  rw [append_eq_append_iff, append_eq_append_iff, BitVec.ofBool_eq_iff_eq]

/-- Bit 39 alone tells a read request from a write request (R77). -/
theorem decodeFrame_append (b : Bool) (a : Addr) (v : Word) :
    decodeFrame (BitVec.ofBool b ++ a ++ v) = if b then .wireWrite a v else .wireRead a v := by
  obtain ⟨⟨hdir, haddr⟩, hvalue⟩ := (eq_frame_iff _ _ _ _).1 (Eq.refl (BitVec.ofBool b ++ a ++ v))
  rw [decodeFrame, hdir, haddr, hvalue]

theorem encode_decodeFrame (w : BitVec 40) : encode (decodeFrame w) = .frame w := by
  rw [(eq_frame_iff w _ _ _).2 ⟨⟨rfl, rfl⟩, rfl⟩, decodeFrame_append]
  cases w.getLsbD 39 with
  | true => rfl
  | false => rfl

theorem toNat_frame (b : Bool) (a : Addr) (v : Word) :
    (BitVec.ofBool b ++ a ++ v).toNat = b.toNat * 2 ^ 39 + a.toNat * 2 ^ 32 + v.toNat := by
  rw [BitVec.toNat_append, BitVec.toNat_append, ← Nat.shiftLeft_add_eq_or_of_lt v.isLt, ← Nat.shiftLeft_add_eq_or_of_lt a.isLt,
    BitVec.toNat_ofBool, Nat.shiftLeft_eq, Nat.shiftLeft_eq]
  ring

/-- Five bytes joined one by one are the first before the word of the other four. -/
theorem append_fourBytes (f b3 b2 b1 b0 : Byte) : f ++ (b3 ++ b2 ++ b1 ++ b0) = f ++ b3 ++ b2 ++ b1 ++ b0 := by
  rw [BitVec.append_assoc', BitVec.append_assoc', BitVec.append_assoc']
  rfl

/-! ### The statements about words alone -/

/-- Settles O1: a frame by its bit 39, a command because its header carries only fields its opcode uses, which assembling reads
back. -/
theorem decodeOfEncode : Obligations.DecodeOfEncode := by
  intro i
  cases i with
  | wireRead a p => exact congrArg Except.ok (decodeFrame_append false a p)
  | wireWrite a v => exact congrArg Except.ok (decodeFrame_append true a v)
  | _ => simp [encode, decode_header, Opcode.usesAddr, Opcode.usesField, Opcode.assemble]

/-- Settles O2: a legal header is the encoder's header of its own fields, and a frame is its three fields. -/
theorem encodeOfDecode : Obligations.EncodeOfDecode := by
  refine ⟨fun c i h => ?_, fun w i h => ?_⟩
  · obtain ⟨o, hlegal, rfl⟩ := (decodeCommand_eq_ok_iff c i).1 h
    rw [(o.legal_iff_eq_header _).1 hlegal]
    exact encode_assemble o c
  · obtain rfl := Except.ok.inj h
    exact encode_decodeFrame w

/-- Settles O6: the low 32 bits are the four value bytes joined, and decoding looks at bit 39. -/
theorem wireFrameWord : Obligations.WireFrameWord := by
  have hplaceholders : placeholderWord.toNat = 0 := by decide
  refine ⟨fun a v => ⟨_, rfl, ?_, ?_⟩, fun a => ⟨_, rfl, ?_, ?_⟩, fun w => ⟨_, rfl, ?_, ?_⟩⟩
  · exact (toNat_frame true a v).trans (by simp)
  · rw [← append_fourBytes]
    exact congrArg (1#1 ++ a ++ ·) (frameValue_writeFrame a v).symm
  · exact (toNat_frame false a placeholderWord).trans (by simp [hplaceholders])
  · rw [← append_fourBytes]
    rfl
  · intro h
    exact ⟨_, _, if_pos h⟩
  · intro h
    exact ⟨_, _, if_neg (ne_true_of_eq_false h)⟩

/-- Settles O5: the encoder gives each row its words, and decoding undoes it. -/
theorem workedEncodingsDecode : Obligations.WorkedEncodingsDecode := by
  intro p hp
  have hencode : encode p.2 = .command p.1 := by
    revert p
    simp only [List.forall_mem_cons]
    decide
  exact ⟨hencode ▸ decodeOfEncode p.2, hencode⟩

end Sys2Proof

namespace Sys2Proof.Machine

/-! ### What a step does with the words it is given (R71, R72) -/

/-- Settles O4: an illegal header does not decode. -/
theorem illegalCommandCompletes : Obligations.IllegalCommandCompletes := by
  intro s c rest ha hi hillegal
  rw [step_present (by simp [ha.1]) hi, runPacket]
  cases hd : decode (.command c) with
  | ok i => simp [(decodes_iff_legalHeader c).1 ⟨i, hd⟩] at hillegal
  | error e => exact congrArg Host.Outcome.next (illegalCommand_accepts (s := { s with inputs := rest }) ha)

/-- Settles O43: the presented words are decoded and run. -/
theorem stepRunsDecodedInstruction : Obligations.StepRunsDecodedInstruction := by
  intro s p rest i hb hi hd
  rw [step_present hb hi, runPacket, hd]

/-! ### The wire rows (log 8) -/

section

variable {α : Type} {s : State} {body : State → Run α} {evs : List Event}

/-- `BUSY` does not bear on the environment's answers. -/
theorem State.gives_running (s : State) (evs : List Event) : State.gives { s with busy := .running } evs = s.gives evs :=
  State.gives_congr (by rfl) (by rfl) evs

/-- A bare transaction that succeeds leaves the state its events make (log 8). -/
theorem frameTxn_done {x : α} (ha : s.Accepts)
    (h : body { s with busy := .running } = .done x (State.afterEvents { s with busy := .running } evs)) :
    frameTxn body s = s.afterEvents evs := by
  have hb : Activity.idle = (s.afterEvents evs).busy := by simp [ha.1]
  rw [frameTxn_accepts _ ha, h, s.afterEvents_running, Run.finishFrame, hb]

/-- A bare transaction that fails writes `STATUS` besides (R90, R94). -/
theorem frameTxn_raised {e : TxnFailure} (ha : s.Accepts)
    (h : body { s with busy := .running } = .raised e.code e.csf (State.afterEvents { s with busy := .running } evs)) :
    frameTxn body s = { s.afterEvents evs with status := e.status } := by
  have hb : Activity.idle = (s.afterEvents evs).busy := by simp [ha.1]
  rw [frameTxn_accepts _ ha, h, s.afterEvents_running, Run.finishFrame, State.raise, e.statusWord_eq, hb]

end

/-- Settles O16: both rows are a bare transaction, with the outcomes of Txn and RegWrite. -/
theorem wireRowOutcomes : Obligations.WireRowOutcomes := by
  intro s a v ha f
  refine ⟨fun rx hg => ?_, fun e rx hg => ?_, fun hg => ?_, fun e hg => ?_⟩ <;> rw [← s.gives_running] at hg
  · have hrun := txn_read_ok hg
    rw [State.issue_eq_afterEvents (shadowAfter_readTxn _ _ _ _)] at hrun
    exact congrArg _ (frameTxn_done ha hrun)
  · have hrun := txn_read_fail hg
    rw [State.issue_eq_afterEvents (shadowAfter_readFail _ _ _ _ _)] at hrun
    exact congrArg _ (frameTxn_raised ha hrun)
  · exact congrArg _ (frameTxn_done ha (regWrite_ok hg))
  · exact congrArg _ (frameTxn_raised ha (regWrite_fail hg))

end Sys2Proof.Machine

/-! PROOFS. The bitfield codec (41_codec.md): GetField and SetField bit by bit and the laws of R86 (R83 to R86), FIELD_GET and
FIELD_SET (R87, R88), and MODIFY_FIELD's two sources of the current value (R97, R98). -/

namespace Sys2Proof

open Machine

/-- A header that meets an opcode's mask and match decodes to what the opcode assembles (R70). -/
theorem encodedAs_assemble (o : Opcode) : EncodedAs o.mask o.matchWord (fun c => o.assemble c) :=
  fun c h => (decodeCommand_eq_ok_iff c _).2 ⟨o, (o.legal_iff_match c.H).2 h, rfl⟩

end Sys2Proof

namespace Sys2Proof.Machine

/-! ### The codec, bit by bit (R12, R84, R85) -/

theorem fieldLegal_iff (off wid : Nat) : FieldLegal off wid = true ↔ LegalDesc off wid := decide_eq_true_iff

@[simp] theorem getElem_fieldMask (wid : Nat) {i : Nat} (hi : i < 32) : (fieldMask wid)[i] = decide (i < wid) := by
  rw [fieldMask, ← BitVec.getLsbD_eq_getElem, BitVec.getLsbD_ofNat, Nat.testBit_two_pow_sub_one, decide_eq_true hi,
    Bool.true_and]

/-- `mask(w) = 2^w - 1` (R12). -/
theorem toNat_fieldMask {wid : Nat} (h : wid ≤ 32) : (fieldMask wid).toNat = 2 ^ wid - 1 := by
  have hpow : 2 ^ wid ≤ 2 ^ 32 := Nat.pow_le_pow_right (by decide) h
  rw [fieldMask, BitVec.toNat_ofNat, Nat.mod_eq_of_lt (by omega)]

/-- `get_field` by division and modulus (R84). -/
theorem toNat_getField (v : Word) (off : Nat) {wid : Nat} (h : wid ≤ 32) :
    (getField v off wid).toNat = v.toNat / 2 ^ off % 2 ^ wid := by
  rw [getField, BitVec.toNat_and, toNat_fieldMask h, Nat.and_two_pow_sub_one_eq_mod, BitVec.toNat_ushiftRight,
    Nat.shiftRight_eq_div_pow]

theorem getLsbD_getField (v : Word) (off wid : Nat) {i : Nat} (hi : i < 32) :
    (getField v off wid).getLsbD i = (v.getLsbD (off + i) && decide (i < wid)) := by
  simp [getField, hi]

/-- `set_field` is the insertion of R85. -/
theorem fieldInserted_setField (v x : Word) {off wid : Nat} (h : LegalDesc off wid) :
    FieldInserted v off wid x (setField v off wid x) := by
  intro i hi
  obtain ⟨-, hwid, hend⟩ := h
  by_cases hlo : off ≤ i
  · by_cases hhi : i < off + wid
    · have hin : i - off < wid := by omega
      simp [setField, hi, hlo, hhi, hin, show ¬ i < off by omega, show i - off < 32 by omega]
    · have hout : ¬ i - off < wid := by omega
      simp [setField, hi, hlo, hhi, hout]
  · simp [setField, hi, hlo, show i < off by omega]

theorem getLsbD_setField (v x : Word) {off wid : Nat} (h : LegalDesc off wid) {i : Nat} (hi : i < 32) :
    (setField v off wid x).getLsbD i = if off ≤ i ∧ i < off + wid then x.getLsbD (i - off) else v.getLsbD i :=
  fieldInserted_setField v x h i hi

/-! ### The laws of R86 -/

/-- Truncation: get after set is the low part of what was set. -/
theorem getField_setField_self (v x : Word) {off wid : Nat} (h : LegalDesc off wid) :
    getField (setField v off wid x) off wid = getField x 0 wid := by
  refine BitVec.eq_of_getLsbD_eq fun i hi => ?_
  rw [getLsbD_getField _ _ _ hi, getLsbD_getField _ _ _ hi]
  by_cases hin : i < wid
  · rw [getLsbD_setField v x h (by omega), if_pos (by omega), Nat.add_sub_cancel_left, Nat.zero_add]
  · simp [hin]

theorem toNat_getField_setField_self (v x : Word) {off wid : Nat} (h : LegalDesc off wid) :
    (getField (setField v off wid x) off wid).toNat = x.toNat % 2 ^ wid := by
  have ⟨_, hwid, _⟩ := h
  rw [getField_setField_self v x h, toNat_getField x 0 hwid, pow_zero, Nat.div_one]

/-- Non-interference: a field that does not overlap the one set. -/
theorem getField_setField_of_disjoint (v x : Word) {f g : FieldDesc} (hf : LegalDesc f.off f.wid) (hg : LegalDesc g.off g.wid)
    (hfg : DisjointFields f g) : getField (setField v f.off f.wid x) g.off g.wid = getField v g.off g.wid := by
  refine BitVec.eq_of_getLsbD_eq fun i hi => ?_
  rw [getLsbD_getField _ _ _ hi, getLsbD_getField _ _ _ hi]
  by_cases hin : i < g.wid
  · rw [getLsbD_setField v x hf (by omega), if_neg (by omega)]
  · simp [hin]

/-- Identity: a field set to its own value. -/
theorem setField_getField_self (v : Word) {off wid : Nat} (h : LegalDesc off wid) :
    setField v off wid (getField v off wid) = v := by
  refine BitVec.eq_of_getLsbD_eq fun i hi => ?_
  rw [getLsbD_setField v _ h hi]
  split
  next hin =>
    rw [getLsbD_getField _ _ _ (by omega), Nat.add_sub_of_le hin.1, decide_eq_true (by omega), Bool.and_true]
  next => rfl

theorem setField_comm (v x y : Word) {f g : FieldDesc} (hf : LegalDesc f.off f.wid) (hg : LegalDesc g.off g.wid)
    (hfg : DisjointFields f g) :
    setField (setField v f.off f.wid x) g.off g.wid y = setField (setField v g.off g.wid y) f.off f.wid x := by
  refine BitVec.eq_of_getLsbD_eq fun i hi => ?_
  rw [getLsbD_setField _ _ hg hi, getLsbD_setField _ _ hf hi, getLsbD_setField _ _ hf hi, getLsbD_setField _ _ hg hi]
  by_cases hin : f.off ≤ i ∧ i < f.off + f.wid
  · rw [if_neg (by omega), if_pos hin, if_pos hin]
  · rw [if_neg hin, if_neg hin]

/-! ### Field sets (R86) -/

section

variable {fs gs : List (FieldDesc × Word)} (hlegal : ∀ f ∈ fs, LegalDesc f.1.off f.1.wid)
  (hdisjoint : fs.Pairwise fun f g => DisjointFields f.1 g.1)

include hlegal hdisjoint

/-- Setting the fields of a set commutes, a field with itself included. -/
theorem setField_comm_of_mem {f g : FieldDesc × Word} (hf : f ∈ fs) (hg : g ∈ fs) (v : Word) :
    setField (setField v f.1.off f.1.wid f.2) g.1.off g.1.wid g.2 =
      setField (setField v g.1.off g.1.wid g.2) f.1.off f.1.wid f.2 := by
  by_cases hfg : f = g
  · rw [hfg]
  · have : Std.Symm fun f g : FieldDesc × Word => DisjointFields f.1 g.1 := ⟨fun _ _ h => h.symm⟩
    exact setField_comm v f.2 g.2 (hlegal f hf) (hlegal g hg) (hdisjoint.forall hf hg hfg)

/-- The order of the fields does not matter. -/
theorem encodeFields_perm (h : gs.Perm fs) : encodeFields gs = encodeFields fs :=
  h.foldl_eq' (fun _ hf _ hg v => setField_comm_of_mem hlegal hdisjoint (h.subset hf) (h.subset hg) v) 0#32

/-- Decoding one field of an encoded set: in another order it is the one set last. -/
theorem toNat_getField_encodeFields {f : FieldDesc × Word} (hf : f ∈ fs) :
    (getField (encodeFields fs) f.1.off f.1.wid).toNat = f.2.toNat % 2 ^ f.1.wid := by
  have hlast : (fs.erase f ++ [f]).Perm fs := (List.perm_append_singleton f _).trans (List.perm_cons_erase hf).symm
  rw [← encodeFields_perm hlegal hdisjoint hlast, encodeFields, List.foldl_append]
  exact toNat_getField_setField_self _ f.2 (hlegal f hf)

end

/-- Settles O9: the laws of one field hold bit by bit, and those of a field set because setting disjoint fields commutes. -/
theorem codecLaws : Obligations.CodecLaws := by
  refine ⟨fun v x off wid h => ⟨toNat_getField_setField_self v x h, fun hx => ?_, fun off2 wid2 h2 hd => ?_,
    fieldInserted_setField v x h, setField_getField_self v h⟩,
    fun fs hl hd => ⟨rfl, fun f hf => toNat_getField_encodeFields hl hd hf, fun gs => encodeFields_perm hl hd⟩⟩
  · exact BitVec.eq_of_toNat_eq ((toNat_getField_setField_self v x h).trans (Nat.mod_eq_of_lt hx))
  · exact getField_setField_of_disjoint v x (f := ⟨off, wid⟩) (g := ⟨off2, wid2⟩) h h2 hd

/-! ### How an accepted command ends, from how its pseudocode ends -/

section

variable {s : State} {body : State → Run Unit} {evs : List Event}

/-- A command whose pseudocode runs to its end after the events `evs`, with `RESULT0` written last. -/
theorem command_setResult0 {v : Word} (ha : s.Accepts)
    (h : body { s with busy := .running } = .done () ((State.afterEvents { s with busy := .running } evs).setResult0 v)) :
    command body s = { s.afterEvents evs with status := 0#32, result0 := v } := by
  have hb : Activity.idle = (s.afterEvents evs).busy := by simp [ha.1]
  rw [command_accepts _ ha, h, s.afterEvents_running, Run.finish, State.complete, hb]
  rfl

/-- A command whose pseudocode raises after the events `evs`. -/
theorem command_raised {c : ErrCode} {csf : Bool} (ha : s.Accepts)
    (h : body { s with busy := .running } = .raised c csf (State.afterEvents { s with busy := .running } evs)) :
    command body s = { s.afterEvents evs with status := statusWord c csf } := by
  have hb : Activity.idle = (s.afterEvents evs).busy := by simp [ha.1]
  rw [command_accepts _ ha, h, s.afterEvents_running, Run.finish, State.raise, hb]

/-- A codec command's pseudocode (R87, R88): `RESULT0 <- v` behind the check of a descriptor. -/
theorem command_fieldGuard (ha : s.Accepts) (off wid : Nat) (v : Word)
    (h : ∀ t, body t = if FieldLegal off wid then .done () (t.setResult0 v) else .raised .invalidArgument false t) :
    (LegalDesc off wid → command body s = { s with status := 0#32, result0 := v }) ∧
      (¬ LegalDesc off wid → command body s = { s with status := 0x3#32 }) := by
  rw [← fieldLegal_iff]
  refine ⟨fun hl => ?_, fun hl => ?_⟩
  · simpa using command_setResult0 (evs := []) ha ((h _).trans (by simp [hl]))
  · have hstatus : statusWord .invalidArgument false = 0x3#32 := by decide
    simpa [hstatus] using command_raised (c := .invalidArgument) (csf := false) (evs := []) ha ((h _).trans (by simp [hl]))

end

/-! ### FIELD_GET and FIELD_SET (R87, R88) -/

/-- Settles O7: the guarded GetField, read by division and modulus. -/
theorem fieldGetResult : Obligations.FieldGetResult := by
  refine ⟨encodedAs_assemble .fieldGet, fun s off wid v ha => ?_⟩
  obtain ⟨hok, hbad⟩ := command_fieldGuard (body := fieldGetBody off.toNat wid.toNat v) ha _ _ _ fun _ => rfl
  refine ⟨fun hl => congrArg _ ((hok hl).trans ?_), fun hl => congrArg _ (hbad hl)⟩
  obtain ⟨-, hwid, -⟩ := hl
  rw [← toNat_getField v off.toNat hwid, BitVec.ofNat_toNat, BitVec.setWidth_eq]

/-- Settles O8: the guarded SetField, which is the insertion of R85. -/
theorem fieldSetResult : Obligations.FieldSetResult := by
  refine ⟨encodedAs_assemble .fieldSet, fun s off wid v x ha => ?_⟩
  obtain ⟨hok, hbad⟩ := command_fieldGuard (body := fieldSetBody off.toNat wid.toNat v x) ha _ _ _ fun _ => rfl
  exact ⟨fun hl => ⟨_, fieldInserted_setField v x hl, congrArg _ (hok hl)⟩, fun hl => congrArg _ (hbad hl)⟩

/-! ### MODIFY_FIELD (R97, R98) -/

/-- The answers to two runs of events are those to the first, and then those to the second. -/
theorem State.gives_append_iff (s : State) (a b : List Event) :
    s.gives (a ++ b) = true ↔ s.gives a = true ∧ (s.afterEvents a).gives b = true := by
  rw [s.gives_append, s.afterEvents_gives, Bool.and_eq_true]

section

variable {s : State} {before : List Event} {a : Addr} {v : Word}

/-- The write and the result of a command whose earlier transactions were `before` (R93, R96). -/
theorem writeRegBody_ok (hb : NoneWaiting s.cfg before) (h : s.gives (before ++ writeTxn (writeFrame a v)) = true) :
    writeRegBody a v (s.afterEvents before) =
      .done () ((s.afterEvents (before ++ writeTxn (writeFrame a v))).setResult0 v) := by
  rw [writeRegBody, regWrite_ok ((s.gives_append_iff _ _).1 h).2, ← s.afterEvents_append _ _ hb]
  rfl

theorem writeRegBody_fail {e : TxnFailure} (hb : NoneWaiting s.cfg before)
    (h : s.gives (before ++ e.writeEvents (writeFrame a v)) = true) :
    writeRegBody a v (s.afterEvents before) =
      .raised e.code e.csf (s.afterEvents (before ++ e.writeEvents (writeFrame a v))) := by
  rw [writeRegBody, regWrite_fail ((s.gives_append_iff _ _).1 h).2, ← s.afterEvents_append _ _ hb]
  rfl

/-- MODIFY_FIELD with a legal descriptor is WRITE_REG of the current value with the field inserted (R97). -/
theorem modifyFieldBody_of_legal {off wid : Nat} (hl : LegalDesc off wid) (x : Word) :
    modifyFieldBody a off wid x s =
      (currentForModify a s).andThen fun cur s => writeRegBody a (setField cur off wid x) s :=
  if_pos ((fieldLegal_iff off wid).2 hl)

/-- A tracked register with a valid entry gives the shadow's value and issues no primitive (R98). -/
theorem currentForModify_tracked (ha : a ∈ s.cfg.trackedSet) (hd : findCell s.shadow a = some ⟨a, true, v⟩) :
    currentForModify a s = .done v s := by
  simp [currentForModify, State.tracked, ha, (s.cacheGet_eq_some_iff a v).2 ⟨ha, hd⟩]

/-- An untracked register is read from the bus (R98). -/
theorem currentForModify_untracked (ha : a ∉ s.cfg.trackedSet) : currentForModify a s = regRead a s := by
  simp [currentForModify, State.tracked, ha]

/-- MODIFY_FIELD once the current value is known: `cur`, after the events `before` (R97). -/
theorem exec_modifyField_of_current {off : BitVec 5} {wid : BitVec 6} {cur : Word} (x : Word) (ha : s.Accepts)
    (hl : LegalDesc off.toNat wid.toNat) (hb : NoneWaiting s.cfg before)
    (hcur : State.gives { s with busy := .running } before = true → currentForModify a { s with busy := .running } =
      .done cur (State.afterEvents { s with busy := .running } before)) :
    let new := setField cur off.toNat wid.toNat x
    (s.gives (before ++ writeTxn (writeFrame a new)) = true → exec (.modifyField a off wid x) s =
      .next { s.afterEvents (before ++ writeTxn (writeFrame a new)) with status := 0#32, result0 := new }) ∧
    StopsInWrite (.modifyField a off wid x) s before (writeFrame a new) := by
  intro new
  have hbody : ∀ after, State.gives { s with busy := .running } (before ++ after) = true →
      modifyFieldBody a off.toNat wid.toNat x { s with busy := .running } =
        writeRegBody a new (State.afterEvents { s with busy := .running } before) := by
    intro after hg
    rw [modifyFieldBody_of_legal hl, hcur ((State.gives_append_iff _ _ _).1 hg).1]
    rfl
  refine ⟨fun hg => ?_, fun e hg => ?_⟩ <;> rw [← s.gives_running] at hg
  · exact congrArg _ (command_setResult0 ha ((hbody _ hg).trans (writeRegBody_ok hb hg)))
  · rw [← e.statusWord_eq]
    exact congrArg _ (command_raised ha ((hbody _ hg).trans (writeRegBody_fail hb hg)))

end

/-- Settles O14: the current value is the shadow's, before any event. -/
theorem modifyFieldFromShadow : Obligations.ModifyFieldFromShadow := by
  intro s a off wid x cur hacc hl ha hd
  have hcur : currentForModify a { s with busy := .running } =
      .done cur (State.afterEvents { s with busy := .running } []) := by
    rw [State.afterEvents_nil]
    exact currentForModify_tracked ha hd
  obtain ⟨hok, hstop⟩ := exec_modifyField_of_current x hacc hl (.nil _) fun _ => hcur
  refine ⟨_, fieldInserted_setField cur x hl, fun hg => (hok hg).trans ?_, hstop⟩
  simp [shadowAfter_writeTxn, ha]

/-- Settles O15: the current value is that of a read transaction, whose failure is the command's. -/
theorem modifyFieldFromBus : Obligations.ModifyFieldFromBus := by
  intro s a off wid x hacc hl ha
  have hcur : currentForModify a { s with busy := .running } = regRead a { s with busy := .running } :=
    currentForModify_untracked ha
  refine ⟨fun e rx hg => ?_, fun rx => ?_⟩
  · rw [← s.gives_running] at hg
    rw [← e.statusWord_eq]
    refine congrArg _ (command_raised hacc ?_)
    rw [modifyFieldBody_of_legal hl, hcur, regRead_fail hg]
    rfl
  · obtain ⟨hok, hstop⟩ := exec_modifyField_of_current x hacc hl (noneWaiting_readTxn s.cfg _ rx) fun hg =>
      hcur.trans (regRead_ok hg)
    refine ⟨_, fieldInserted_setField (rxValue rx) x hl, fun hg => (hok hg).trans ?_, hstop⟩
    simp [shadowAfter_append (noneWaiting_readTxn _ _ _), shadowAfter_writeTxn, ha]

end Sys2Proof.Machine

/-! PROOFS. Transport (40_transport.md): READ_REG and WRITE_REG (R95, R96), how an error stands in the events (R127), the primitives
of a command that ends with OK (R100), and completion when the environment answers Ok (R122). -/

namespace Sys2Proof.Machine

/-! ### What the events of a transaction do to the lines (R34, R90) -/

theorem linesAfter_readTxn (f rx : Frame) (ls : Lines) : linesAfter (readTxn f rx) ls = { ls with csN := .high } := rfl

theorem linesAfter_writeTxn (f : Frame) (ls : Lines) : linesAfter (writeTxn f) ls = { ls with csN := .high } := rfl

theorem linesAfter_readFail (f rx : Frame) (e : TxnFailure) (ls : Lines) :
    linesAfter (e.readEvents f rx) ls = { ls with csN := e.csN } := by
  cases e <;> rfl

theorem linesAfter_writeFail (f : Frame) (e : TxnFailure) (ls : Lines) :
    linesAfter (e.writeEvents f) ls = { ls with csN := e.csN } := by
  cases e <;> rfl

/-! ### READ_REG and WRITE_REG -/

/-- READ_REG's pseudocode from RegRead's outcomes (R92, R95). -/
theorem readRegBody_ok {s : State} {a : Addr} {rx : Frame} (h : s.gives (readTxn (readFrame s.cfg.placeholder a) rx) = true) :
    readRegBody a s = .done () ((s.afterEvents (readTxn (readFrame s.cfg.placeholder a) rx)).setResult0 (rxValue rx)) := by
  rw [readRegBody, regRead_ok h]
  rfl

theorem readRegBody_fail {s : State} {a : Addr} {rx : Frame} {e : TxnFailure}
    (h : s.gives (e.readEvents (readFrame s.cfg.placeholder a) rx) = true) :
    readRegBody a s = .raised e.code e.csf (s.afterEvents (e.readEvents (readFrame s.cfg.placeholder a) rx)) := by
  rw [readRegBody, regRead_fail h]
  rfl

/-- Settles O10: RegRead's outcome is the command's, for tracked and untracked addresses alike. -/
theorem readRegOutcomes : Obligations.ReadRegOutcomes := by
  refine ⟨encodedAs_assemble .readReg, fun s a ha => ⟨fun rx hg => ?_, fun e rx hg => ?_⟩⟩ <;> rw [← s.gives_running] at hg
  · refine (congrArg _ (command_setResult0 ha (readRegBody_ok hg))).trans ?_
    simp [linesAfter_readTxn]
  · refine (congrArg _ (command_raised ha (readRegBody_fail hg))).trans ?_
    simp [linesAfter_readFail]

/-- Settles O11: RegWrite's outcome is the command's, and its events write the shadow only when all succeed. -/
theorem writeRegOutcomes : Obligations.WriteRegOutcomes := by
  refine ⟨encodedAs_assemble .writeReg, fun s a v ha => ⟨fun hg => ?_, fun e hg => ?_⟩⟩ <;> rw [← s.gives_running] at hg
  · have hrun := writeRegBody_ok (.nil _) hg
    rw [State.afterEvents_nil] at hrun
    refine (congrArg _ (command_setResult0 ha hrun)).trans ?_
    simp [linesAfter_writeTxn, shadowAfter_writeTxn]
  · have hrun := writeRegBody_fail (.nil _) hg
    rw [State.afterEvents_nil] at hrun
    refine (congrArg _ (command_raised ha hrun)).trans ?_
    simp [linesAfter_writeFail]

/-! ### How a command that leaves `BUSY = 0` has ended (R89, R100, R127) -/

/-- `STATUS.CODE` of an error's status word (R28). -/
theorem State.statusCode_of_statusWord {t : State} {c : ErrCode} {csf : Bool} (h : t.status = statusWord c csf) :
    t.statusCode = c.code := by
  rw [State.statusCode, h]
  cases c <;> cases csf <;> decide

/-- Only the primitives' own errors stand in the events (R122). -/
theorem FailsAs.code_bus_or_pin {st : Word} {c : ErrCode} {csf : Bool} {tail : List Event} (h : FailsAs st c csf tail) :
    c.code = 1#3 ∨ c.code = 2#3 := by
  cases h <;> decide

/-- The failing event stands first, and only a release attempted after a failed transfer follows it (R89, R127). -/
theorem FailsAs.eq_cons {st : Word} {c : ErrCode} {csf : Bool} {tail : List Event} (h : FailsAs st c csf tail) :
    ∃ e after, tail = e :: after ∧ e.succeeded = false ∧
      (after = [] ∨ ∃ f o, after = [.pinSet .csN true o] ∧ (e = .busXfer f .fail ∨ e = .busWrite f .fail)) := by
  cases h with
  | pin l lvl => exact ⟨_, _, rfl, rfl, .inl rfl⟩
  | release => exact ⟨_, _, rfl, rfl, .inl rfl⟩
  | xfer f => exact ⟨_, _, rfl, rfl, .inr ⟨f, _, rfl, .inl rfl⟩⟩
  | xferRelease f => exact ⟨_, _, rfl, rfl, .inr ⟨f, _, rfl, .inl rfl⟩⟩
  | write f => exact ⟨_, _, rfl, rfl, .inr ⟨f, _, rfl, .inr rfl⟩⟩
  | writeRelease f => exact ⟨_, _, rfl, rfl, .inr ⟨f, _, rfl, .inr rfl⟩⟩

/-- An accepted command that leaves `BUSY = 0` has completed, was rejected, or was stopped by its events, as its code tells. -/
theorem exec_command_ends {i : Instr} {s t : State} (hi : isCommand i = true) (ha : s.Accepts) (h : exec i s = .next t)
    (hidle : t.busyBit = false) :
    (t.statusCode = 0#3 ∧ ∃ evs, t.trace = s.trace ++ evs ∧ countsOf evs = primitiveCounts s.cfg i) ∨
    (t.statusCode = 3#3 ∨ t.statusCode = 4#3) ∨
    ((t.statusCode = 1#3 ∨ t.statusCode = 2#3) ∧ ∃ st c csf before tail, Stops (Allowed i) s st c csf before tail ∧
      t.trace = s.trace ++ (before ++ tail)) := by
  obtain ⟨u, hu, hend⟩ := exec_ending i ha
  obtain rfl : u = t := by simpa [hu] using h
  cases hend with
  | completed evs x y h counts keep0 keep1 bit1 eq =>
    subst eq
    exact .inl ⟨by simp [State.statusCode, hi], evs, by simp, counts⟩
  | rejected c code which eq =>
    have hcode := u.statusCode_of_statusWord (congrArg State.status eq)
    rcases which with rfl | rfl
    · exact .inr (.inl (.inl hcode))
    · exact .inr (.inl (.inr hcode))
  | stopped st c csf before tail h eq =>
    have hcode := u.statusCode_of_statusWord ((congrArg State.status eq).trans h.fails.statusWord_eq.symm)
    refine .inr (.inr ⟨?_, st, c, csf, before, tail, h, by simp [eq]⟩)
    rw [hcode]
    exact h.fails.code_bus_or_pin
  | held before e h eq => simp [eq, State.busyBit] at hidle

/-- Settles O35: only a command stopped by its events ends with these codes. -/
theorem errorsArePrecise : Obligations.ErrorsArePrecise := by
  intro i s t hi ha h hidle hcode
  rcases exec_command_ends hi ha h hidle with ⟨h0, -⟩ | h34 | ⟨-, st, c, csf, before, tail, hstop, ht⟩
  · simp [h0] at hcode
  · rcases hcode with h1 | h2
    · simp [h1] at h34
    · simp [h2] at h34
  · obtain ⟨e, after, rfl, he, hafter⟩ := hstop.fails.eq_cons
    exact ⟨before, after, e, by simpa using ht, hstop.succeeded, he, hafter⟩

/-- Settles O36: only a command that completed ends with OK. -/
theorem primitiveCountsOnSuccess : Obligations.PrimitiveCountsOnSuccess := by
  intro i s t hi ha h hidle hcode
  rcases exec_command_ends hi ha h hidle with ⟨-, hcounts⟩ | h34 | ⟨h12, -⟩
  · exact hcounts
  · simp [hcode] at h34
  · simp [hcode] at h12

/-! ### Pseudocode whose primitives all return Ok -/

/-- The environment's next `n` answers are Ok. -/
def State.NextOk (s : State) (n : Nat) : Prop := ∀ k, k < n → (s.upcoming k).out = .ok

theorem State.NextOk.mono {s : State} {m n : Nat} (h : s.NextOk n) (hmn : m ≤ n) : s.NextOk m :=
  fun k hk => h k (hk.trans_le hmn)

theorem State.NextOk.issue {s : State} {evs : List Event} {m : Nat} (h : s.NextOk (evs.length + m)) :
    (s.issue evs).NextOk m := by
  intro k hk
  rw [s.upcoming_issue]
  exact h _ (Nat.add_lt_add_left hk _)

theorem State.NextOk.congr {s t : State} {n : Nat} (h : s.NextOk n) (he : t.env = s.env) (hc : t.drawCount = s.drawCount) :
    t.NextOk n :=
  fun k hk => by rw [State.upcoming_congr he hc]; exact h k hk

/-- The run came to its end with the next `m` answers still Ok, or was rejected (R106, R125): no primitive failed or hung. -/
def Run.EndsOk {α : Type} (m : Nat) : Run α → Prop
  | .done _ t => t.NextOk m
  | .raised c _ _ => c = .invalidArgument ∨ c = .notInitialized
  | .hung _ => False

/-- Pseudocode that `n` answers Ok bring to its end: it issues at most `n` primitives when they all return Ok. -/
def Run.CompletesIn {α : Type} (n : Nat) (body : State → Run α) : Prop :=
  ∀ (m : Nat) (s : State), s.NextOk (n + m) → (body s).EndsOk m

theorem Run.EndsOk.andThen {α β : Type} {n m : Nat} {r : Run α} {g : α → State → Run β} (h : r.EndsOk (n + m))
    (hg : ∀ a, Run.CompletesIn n (g a)) : (r.andThen g).EndsOk m := by
  cases r with
  | done a t => exact hg a m t h
  | raised c csf t => exact h
  | hung t => exact h

theorem Run.CompletesIn.andThen {α β : Type} {n k : Nat} {f : State → Run α} {g : α → State → Run β}
    (hf : Run.CompletesIn n f) (hg : ∀ a, Run.CompletesIn k (g a)) : Run.CompletesIn (n + k) fun s => (f s).andThen g :=
  fun m s hs => (hf (k + m) s (by rwa [← Nat.add_assoc])).andThen hg

/-- The configuration may be read. -/
theorem Run.CompletesIn.ofCfg {α : Type} {n : Nat} {f : Config → State → Run α} (h : ∀ c, Run.CompletesIn n (f c)) :
    Run.CompletesIn n fun s => f s.cfg s :=
  fun m s hs => h s.cfg m s hs

theorem Run.CompletesIn.done {α : Type} (a : α) : Run.CompletesIn 0 (Run.done a) :=
  fun _ _ hs => hs.mono (Nat.le_add_left _ _)

theorem Run.CompletesIn.setResult0 (v : Word) : Run.CompletesIn 0 fun s => .done () (s.setResult0 v) :=
  fun _ _ hs => (hs.mono (Nat.le_add_left _ _)).congr rfl rfl

/-- A check of operands, before any primitive (R125). -/
theorem Run.CompletesIn.guard {α : Type} {n : Nat} {p : Prop} [Decidable p] {body : State → Run α}
    (h : Run.CompletesIn n body) : Run.CompletesIn n fun s => if p then body s else .raised .invalidArgument false s := by
  by_cases hp : p
  · simpa only [if_pos hp] using h
  · simp only [if_neg hp]
    exact fun _ _ _ => .inl rfl

/-! ### The shared operations complete -/

theorem txn_completesIn (kind : TxnKind) (f : Frame) : Run.CompletesIn 3 (txn kind f) := by
  intro m s hs
  rw [txn_eq, hs 0 (by omega), hs 1 (by omega), hs 2 (by omega)]
  exact State.NextOk.issue hs

theorem linePin_completesIn (l : Line) (lvl : Bool) : Run.CompletesIn 1 (linePin l lvl) := by
  intro m s hs
  rw [linePin_eq, hs 0 (by omega)]
  exact State.NextOk.issue hs

theorem lineDelay_completesIn (ns : Nat) : Run.CompletesIn 1 (lineDelay ns) := by
  intro m s hs
  rw [lineDelay_eq, hs 0 (by omega)]
  exact State.NextOk.issue hs

theorem regRead_completesIn (a : Addr) : Run.CompletesIn 3 (regRead a) :=
  .andThen (.ofCfg fun c => txn_completesIn .read (readRequest c.placeholder a)) fun rx => .done (responseValue rx)

theorem cachePut_completesIn (a : Addr) (v : Word) : Run.CompletesIn 0 fun s => .done () (s.cachePut a v) :=
  fun _ s hs => (hs.mono (Nat.le_add_left _ _)).congr (s.cachePut_env a v) (s.cachePut_drawCount a v)

theorem regWrite_completesIn (a : Addr) (v : Word) : Run.CompletesIn 3 (regWrite a v) :=
  (txn_completesIn .write (writeRequest a v)).andThen fun _ => cachePut_completesIn a v

theorem modifyChopconf_completesIn (f : FieldDesc) (x : Word) : Run.CompletesIn 6 (modifyChopconf f x) :=
  (regRead_completesIn regChopconf).andThen fun _ => (regWrite_completesIn regChopconf _).andThen fun _ => .done _

/-- A shadow's value needs no answer, and a miss is a rejection (R98, R106). -/
theorem currentForModify_completesIn (a : Addr) : Run.CompletesIn 3 (currentForModify a) := by
  intro m s hs
  unfold currentForModify
  split
  · cases s.cacheGet a with
    | some d => exact hs.mono (Nat.le_add_left _ _)
    | none => exact .inr rfl
  · exact regRead_completesIn a m s hs

/-! ### The commands complete -/

theorem cacheGetBody_completesIn (a : Addr) : Run.CompletesIn 0 (cacheGetBody a) := by
  intro m s hs
  unfold cacheGetBody
  split <;> exact (hs.mono (Nat.le_add_left _ _)).congr rfl rfl

theorem resetToff_completesIn :
    Run.CompletesIn 6 fun s => (modifyChopconf s.cfg.toffField Config.initToff s).andThen fun _ s => .done () s :=
  .andThen (.ofCfg fun c => modifyChopconf_completesIn c.toffField _) fun _ => .done ()

theorem setDirectionBody_completesIn (d : Word) : Run.CompletesIn 1 (setDirectionBody d) := by
  unfold setDirectionBody
  cases directionLevel d with
  | some lvl => exact linePin_completesIn .dir lvl
  | none => exact fun _ _ _ => .inl rfl

/-- Every host command is pseudocode that fifteen answers Ok bring to its end, with its acceptance and its end around it. -/
theorem exec_eq_command_completesIn {i : Instr} (hi : isCommand i = true) :
    ∃ (n : Nat) (body : State → Run Unit), n ≤ 15 ∧ Run.CompletesIn n body ∧ ∀ s, exec i s = .next (command body s) := by
  have hread := regRead_completesIn
  have hwrite := regWrite_completesIn
  have hpin := linePin_completesIn
  cases i with
  | readReg a => exact ⟨3, _, by decide, (hread a).andThen fun v => .setResult0 v, fun _ => rfl⟩
  | writeReg a v => exact ⟨3, _, by decide, (hwrite a v).andThen fun _ => .setResult0 v, fun _ => rfl⟩
  | modifyField a off wid x =>
    exact ⟨6, _, by decide,
      .guard ((currentForModify_completesIn a).andThen fun _ => (hwrite a _).andThen fun _ => .setResult0 _), fun _ => rfl⟩
  | cacheGet a => exact ⟨0, _, by decide, cacheGetBody_completesIn a, fun _ => rfl⟩
  | fieldGet off wid v => exact ⟨0, _, by decide, .guard (.setResult0 _), fun _ => rfl⟩
  | fieldSet off wid v x => exact ⟨0, _, by decide, .guard (.setResult0 _), fun _ => rfl⟩
  | init =>
    exact ⟨15, _, by decide, (hwrite _ _).andThen fun _ =>
      .andThen (.ofCfg fun c => modifyChopconf_completesIn c.mresField _) fun _ => resetToff_completesIn, fun _ => rfl⟩
  | resetCfg => exact ⟨9, _, by decide, (hwrite _ _).andThen fun _ => resetToff_completesIn, fun _ => rfl⟩
  | setCurrent run hold delay =>
    exact ⟨3, _, by decide, .guard ((hwrite _ _).andThen fun _ => .setResult0 _), fun _ => rfl⟩
  | setMicrosteps code =>
    exact ⟨6, _, by decide,
      .guard (.andThen (.ofCfg fun c => modifyChopconf_completesIn c.mresField code) fun v => .setResult0 v), fun _ => rfl⟩
  | getDriverStatus =>
    exact ⟨6, _, by decide, (hread _).andThen fun _ => (hread _).andThen fun _ => .setResult0 _, fun _ => rfl⟩
  | enableDriver => exact ⟨1, _, by decide, hpin .enN false, fun _ => rfl⟩
  | disableDriver => exact ⟨1, _, by decide, hpin .enN true, fun _ => rfl⟩
  | setDirection d => exact ⟨1, _, by decide, setDirectionBody_completesIn d, fun _ => rfl⟩
  | step =>
    exact ⟨3, _, by decide, (hpin .step true).andThen fun _ => (lineDelay_completesIn _).andThen fun _ => hpin .step false,
      fun _ => rfl⟩
  | wireRead a p => cases hi
  | wireWrite a v => cases hi

theorem Run.EndsOk.finish {α : Type} {m : Nat} {r : Run α} (h : r.EndsOk m) :
    r.finish.busy = .idle ∧ (r.finish.statusCode = 0#3 ∨ r.finish.statusCode = 3#3 ∨ r.finish.statusCode = 4#3) := by
  cases r with
  | done a t => exact ⟨rfl, .inl rfl⟩
  | raised c csf t =>
    have hcode : (Run.raised (α := α) c csf t).finish.statusCode = c.code := State.statusCode_of_statusWord rfl
    rcases h with rfl | rfl
    · exact ⟨rfl, .inr (.inl hcode)⟩
    · exact ⟨rfl, .inr (.inr hcode)⟩
  | hung t => exact h.elim

/-- A wire row whose three primitives return Ok leaves the state its events make (log 8). -/
theorem exec_wireRow_of_nextOk {i : Instr} {s : State} (hi : isCommand i = false) (ha : s.Accepts) (hok : s.NextOk 3) :
    ∃ evs, exec i s = .next (s.afterEvents evs) := by
  have h0 := hok 0 (by decide)
  have h1 := hok 1 (by decide)
  have h2 := hok 2 (by decide)
  cases i with
  | wireRead a v =>
    obtain ⟨hread, -⟩ := wireRowOutcomes s a v ha
    exact ⟨_, hread (s.upcoming 1).rx (by simp [readTxn, State.gives_three, Event.answeredBy, h0, h1, h2])⟩
  | wireWrite a v =>
    obtain ⟨-, -, hwrite, -⟩ := wireRowOutcomes s a v ha
    exact ⟨_, hwrite (by simp [writeTxn, State.gives_three, Event.answeredBy, h0, h1, h2])⟩
  | _ => cases hi

/-- Settles O41: a command's pseudocode and a wire row's transaction both end when their primitives return Ok. -/
theorem completesWhenPrimitivesSucceed : Obligations.CompletesWhenPrimitivesSucceed := by
  intro i s ha hok
  obtain ⟨hidle, hready⟩ := ha
  cases hi : isCommand i with
  | true =>
    obtain ⟨n, body, hn, hbody, hexec⟩ := exec_eq_command_completesIn hi
    obtain ⟨evs, heff⟩ := exec_effectOf (hexec s)
    have hnext : State.NextOk { s with busy := .running } (n + 0) := (State.NextOk.mono hok hn).congr rfl rfl
    obtain ⟨hbusy, hcode⟩ := (hbody 0 _ hnext).finish
    rw [← command_accepts body ⟨hidle, hready⟩] at hbusy hcode
    exact ⟨_, hexec s, ⟨hbusy, heff.ready.trans hready⟩, fun _ => hcode, by simp⟩
  | false =>
    obtain ⟨evs, hexec⟩ := exec_wireRow_of_nextOk hi ⟨hidle, hready⟩ (State.NextOk.mono hok (by decide))
    exact ⟨_, hexec, ⟨by simp [hidle], by simp [hready]⟩, by simp, by simp⟩

end Sys2Proof.Machine

/-! PROOFS. The shadow cache (43_cache.md): what a miss does to MODIFY_FIELD (R106) and CACHE_GET (R107), and what alone changes an
entry (R105). -/

namespace Sys2Proof.Machine

/-- The shadow gives no value for an untracked address and for an entry that is not valid (R102). -/
theorem State.cacheGet_eq_none_iff (s : State) (a : Addr) :
    s.cacheGet a = none ↔ a ∉ s.cfg.trackedSet ∨ ∀ d, findCell s.shadow a ≠ some ⟨a, true, d⟩ := by
  simp only [Option.eq_none_iff_forall_ne_some, ne_eq, s.cacheGet_eq_some_iff, not_and_or, forall_or_left]

/-- A tracked register without a valid entry rejects MODIFY_FIELD before any primitive (R106). -/
theorem currentForModify_miss {s : State} {a : Addr} (ha : a ∈ s.cfg.trackedSet)
    (hmiss : ∀ d, findCell s.shadow a ≠ some ⟨a, true, d⟩) : currentForModify a s = .raised .notInitialized false s := by
  simp [currentForModify, State.tracked, ha, (s.cacheGet_eq_none_iff a).2 (.inr hmiss)]

/-- A command whose pseudocode raises before any primitive changes `STATUS` alone (R125). -/
theorem command_raised_before_primitive {s : State} {body : State → Run Unit} {c : ErrCode} (ha : s.Accepts)
    (h : body { s with busy := .running } = .raised c false { s with busy := .running }) :
    command body s = { s with status := statusWord c false } := by
  simpa using command_raised (evs := []) ha (by rwa [State.afterEvents_nil])

/-- Settles O13: the descriptor is checked first, then the shadow, and either failure raises before any primitive. -/
theorem modifyFieldRejects : Obligations.ModifyFieldRejects := by
  refine ⟨encodedAs_assemble .modifyField, fun s a off wid x hacc => ⟨fun hl => ?_, fun hl ha hmiss => ?_⟩⟩
  · have hbad : FieldLegal off.toNat wid.toNat ≠ true := mt (fieldLegal_iff _ _).1 hl
    exact congrArg _ (command_raised_before_primitive (c := .invalidArgument) hacc (if_neg hbad))
  · have hcur : currentForModify a { s with busy := .running } =
        .raised .notInitialized false { s with busy := .running } := currentForModify_miss ha hmiss
    refine congrArg _ (command_raised_before_primitive (c := .notInitialized) hacc ?_)
    rw [modifyFieldBody_of_legal hl, hcur]
    rfl

/-- Settles O17: CACHE_GET answers whether the shadow gives a value, and the value or 0. -/
theorem cacheGetResult : Obligations.CacheGetResult := by
  refine ⟨encodedAs_assemble .cacheGet, fun s a hacc => ⟨fun d ha hd => ?_, fun hmiss => ?_⟩⟩ <;> rw [exec_cacheGet hacc]
  · rw [(s.cacheGet_eq_some_iff a d).2 ⟨ha, hd⟩]
    rfl
  · rw [(s.cacheGet_eq_none_iff a).2 hmiss]
    rfl

/-- Settles O19: reset aside, a step follows its events. -/
theorem onlySuccessfulWritesReachShadow : Obligations.OnlySuccessfulWritesReachShadow := by
  intro s t h hb
  rcases step_followsEvents h with ⟨evs, he⟩ | ⟨rest, rfl⟩
  · exact ⟨evs, he.trace, he.shadow⟩
  · exact absurd rfl hb

end Sys2Proof.Machine

/-! PROOFS. Motor control (44_motor_control.md): the register-configuring and status commands (R108 to R115) and the line commands
(R116 to R119), each followed through the events of its pseudocode. -/

namespace Sys2Proof.Machine

/-! ### Following a command through its events -/

/-- The command `i`, accepted at `s`, has the pseudocode `rest` still to run once the environment has answered its primitives as
the events `evs` say. -/
structure Reaches (i : Instr) (s : State) (evs : List Event) (rest : State → Run Unit) : Prop where
  accepts : s.Accepts
  noneWaiting : NoneWaiting s.cfg evs
  runs : ∃ body, exec i s = .next (command body s) ∧ (s.gives evs = true →
    body { s with busy := .running } = rest (State.afterEvents { s with busy := .running } evs))

/-- A command whose pseudocode runs to its end after the events `evs`, with no result written. -/
theorem command_done {s : State} {body : State → Run Unit} {evs : List Event} (ha : s.Accepts)
    (h : body { s with busy := .running } = .done () (State.afterEvents { s with busy := .running } evs)) :
    command body s = { s.afterEvents evs with status := 0#32 } := by
  have hb : Activity.idle = (s.afterEvents evs).busy := by simp [ha.1]
  rw [command_accepts _ ha, h, s.afterEvents_running, Run.finish, State.complete, hb]
  rfl

theorem Reaches.start {i : Instr} {s : State} {body : State → Run Unit} (ha : s.Accepts)
    (h : exec i s = .next (command body s)) : Reaches i s [] body :=
  ⟨ha, .nil _, body, h, fun _ => by rw [State.afterEvents_nil]⟩

section

variable {i : Instr} {s : State} {evs : List Event} {rest : State → Run Unit}

/-- What is left goes through the events `tail` to `rest'`. -/
theorem Reaches.advance {tail : List Event} {rest' : State → Run Unit} (h : Reaches i s evs rest)
    (htail : NoneWaiting s.cfg tail)
    (hrest : ∀ t : State, t.cfg = s.cfg → t.gives tail = true → rest t = rest' (t.afterEvents tail)) :
    Reaches i s (evs ++ tail) rest' := by
  obtain ⟨ha, hevs, body, hexec, hrun⟩ := h
  refine ⟨ha, hevs.append htail, body, hexec, fun hg => ?_⟩
  have hfirst : s.gives evs = true := ((s.gives_append_iff _ _).1 hg).1
  rw [← s.gives_running, State.gives_append_iff] at hg
  rw [hrun hfirst, hrest _ (by simp) hg.2, State.afterEvents_append { s with busy := .running } evs tail hevs]

/-- The configuration may be read. -/
theorem Reaches.ofCfg {f : Config → State → Run Unit} (h : Reaches i s evs fun t => f t.cfg t) :
    Reaches i s evs (f s.cfg) := by
  obtain ⟨ha, hevs, body, hexec, hrun⟩ := h
  exact ⟨ha, hevs, body, hexec, fun hg => by rw [hrun hg, State.afterEvents_cfg]⟩

/-! ### How it ends -/

theorem Reaches.done (h : Reaches i s evs (.done ())) (hg : s.gives evs = true) :
    exec i s = .next { s.afterEvents evs with status := 0#32 } := by
  obtain ⟨ha, -, body, hexec, hrun⟩ := h
  rw [hexec, command_done ha (hrun hg)]

theorem Reaches.setResult0 {v : Word} (h : Reaches i s evs fun t => .done () (t.setResult0 v)) (hg : s.gives evs = true) :
    exec i s = .next { s.afterEvents evs with status := 0#32, result0 := v } := by
  obtain ⟨ha, -, body, hexec, hrun⟩ := h
  rw [hexec, command_setResult0 ha (hrun hg)]

theorem Reaches.raised {c : ErrCode} {csf : Bool} (h : Reaches i s evs (.raised c csf)) (hg : s.gives evs = true) :
    exec i s = .next { s.afterEvents evs with status := statusWord c csf } := by
  obtain ⟨ha, -, body, hexec, hrun⟩ := h
  rw [hexec, command_raised ha (hrun hg)]

/-- A check of operands before any primitive (R125): a failed one changes `STATUS` alone. -/
theorem Reaches.guard {p : Prop} [Decidable p] {body : State → Run Unit}
    (h : Reaches i s [] fun t => if p then body t else .raised .invalidArgument false t) :
    (p → Reaches i s [] body) ∧ (¬ p → exec i s = .next { s with status := 0x3#32 }) := by
  refine ⟨fun hp => by simpa only [if_pos hp] using h, fun hp => ?_⟩
  simp only [if_neg hp] at h
  have hstatus : statusWord .invalidArgument false = 0x3#32 := by decide
  simpa [hstatus] using h.raised rfl

/-! ### Transactions (R90, R92, R93) -/

/-- A command about to read a register is stopped by a failed read, or goes on with the answer. -/
theorem Reaches.regRead {a : Addr} {g : Word → State → Run Unit}
    (h : Reaches i s evs fun t => (regRead a t).andThen g) :
    StopsInRead i s evs (readFrame s.cfg.placeholder a) ∧
      ∀ rx, Reaches i s (evs ++ readTxn (readFrame s.cfg.placeholder a) rx) (g (rxValue rx)) := by
  refine ⟨fun e rx hg => ?_, fun rx => h.advance (noneWaiting_readTxn _ _ _) fun t hc hg => ?_⟩
  · rw [← e.statusWord_eq]
    refine (h.advance (noneWaiting_readFail _ _ rx e) fun t hc hg => ?_).raised hg
    rw [← hc] at hg ⊢
    rw [regRead_fail hg]
    rfl
  · rw [← hc] at hg ⊢
    rw [regRead_ok hg]
    rfl

/-- A command about to write a register is stopped by a failed write, or goes on. -/
theorem Reaches.regWrite {a : Addr} {v : Word} {g : Unit → State → Run Unit}
    (h : Reaches i s evs fun t => (regWrite a v t).andThen g) :
    StopsInWrite i s evs (writeFrame a v) ∧ Reaches i s (evs ++ writeTxn (writeFrame a v)) (g ()) := by
  refine ⟨fun e hg => ?_, h.advance (noneWaiting_writeTxn _ _) fun t _ hg => ?_⟩
  · rw [← e.statusWord_eq]
    refine (h.advance (noneWaiting_writeFail _ _ e) fun t _ hg => ?_).raised hg
    rw [regWrite_fail hg]
    rfl
  · rw [regWrite_ok hg]
    rfl

theorem Run.andThen_assoc {α β γ : Type} (r : Run α) (f : α → State → Run β) (g : β → State → Run γ) :
    (r.andThen f).andThen g = r.andThen fun a t => (f a t).andThen g := by
  cases r <;> rfl

/-- A command about to set a field of CHOPCONF reads it from the bus, whatever the tracked set is, and writes it back with the
field inserted; a failure of either transaction stops it (R109, R111, R112). -/
theorem Reaches.modifyChopconf {x : Word} {g : Word → State → Run Unit} (f : Config → FieldDesc)
    (h : Reaches i s evs fun t => (modifyChopconf (f t.cfg) x t).andThen g) :
    let rd := readFrame s.cfg.placeholder regChopconf
    StopsInRead i s evs rd ∧ ∀ rx,
      let new := setField (rxValue rx) (f s.cfg).off (f s.cfg).wid x
      StopsInWrite i s (evs ++ readTxn rd rx) (writeFrame regChopconf new) ∧
      Reaches i s (evs ++ readTxn rd rx ++ writeTxn (writeFrame regChopconf new)) (g new) := by
  have hcfg := h.ofCfg (f := fun c t => (Machine.modifyChopconf (f c) x t).andThen g)
  simp only [Machine.modifyChopconf, Run.andThen_assoc] at hcfg
  obtain ⟨hstop, hread⟩ := hcfg.regRead
  exact ⟨hstop, fun rx => (hread rx).regWrite⟩

end

/-! ### The two CHOPCONF fields of a valid configuration (R11, R83) -/

theorem Config.legalDesc_mresField {c : Config} (h : c.Valid) : LegalDesc c.mresField.off c.mresField.wid := by
  obtain ⟨-, -, -, ⟨hwid, hend⟩, -⟩ := h
  exact ⟨hwid, by omega, hend⟩

theorem Config.legalDesc_toffField {c : Config} (h : c.Valid) : LegalDesc c.toffField.off c.toffField.wid := by
  obtain ⟨-, -, ⟨hwid, hend⟩, -⟩ := h
  exact ⟨hwid, by omega, hend⟩

/-! ### SET_CURRENT (R108) -/

theorem currentLegal_iff (run hold delay : Word) :
    CurrentLegal run hold delay = true ↔ run.toNat ≤ 31 ∧ hold.toNat ≤ 31 ∧ delay.toNat ≤ 7 := decide_eq_true_iff

/-- The three parts of the packed value do not overlap (R40). -/
theorem toNat_currentValue {run hold delay : Word} (h : CurrentLegal run hold delay = true) :
    (currentValue run hold delay).toNat = delay.toNat * 2 ^ 16 + run.toNat * 2 ^ 8 + hold.toNat := by
  obtain ⟨hrun, hhold, hdelay⟩ := (currentLegal_iff _ _ _).1 h
  have hd : (delay <<< 16).toNat = delay.toNat <<< 16 := by
    rw [BitVec.toNat_shiftLeft, Nat.shiftLeft_eq, Nat.mod_eq_of_lt (by omega)]
  have hr : (run <<< 8).toNat = run.toNat <<< 8 := by
    rw [BitVec.toNat_shiftLeft, Nat.shiftLeft_eq, Nat.mod_eq_of_lt (by omega)]
  have hlow : run.toNat <<< 8 ||| hold.toNat = run.toNat <<< 8 + hold.toNat :=
    (Nat.shiftLeft_add_eq_or_of_lt (by omega) _).symm
  rw [currentValue, BitVec.toNat_or, BitVec.toNat_or, hd, hr, Nat.or_assoc, hlow,
    ← Nat.shiftLeft_add_eq_or_of_lt (by rw [Nat.shiftLeft_eq]; omega), Nat.shiftLeft_eq, Nat.shiftLeft_eq, Nat.add_assoc]

/-- Settles O22: a checked write of the packed value, followed to its end. -/
theorem setCurrentOutcomes : Obligations.SetCurrentOutcomes := by
  refine ⟨encodedAs_assemble .setCurrent, fun s run hold delay ha => ?_⟩
  obtain ⟨hlegal, hillegal⟩ :=
    (Reaches.start (i := .setCurrent run hold delay) (body := setCurrentBody run hold delay) ha rfl).guard
  refine ⟨fun hbad => hillegal (mt (currentLegal_iff _ _ _).1 (by omega)), fun hrun hhold hdelay => ?_⟩
  have hrange : CurrentLegal run hold delay = true := (currentLegal_iff _ _ _).2 ⟨hrun, hhold, hdelay⟩
  obtain ⟨hstop, hwrite⟩ := (hlegal hrange).regWrite
  refine ⟨_, toNat_currentValue hrange, fun hg => (hwrite.setResult0 hg).trans ?_, hstop⟩
  simp [shadowAfter_writeTxn, regIholdIrun]

/-! ### SET_MICROSTEPS, INIT and RESET_CFG (R109 to R112) -/

theorem microstepsLegal_iff (code : Word) : MicrostepsLegal code = true ↔ code.toNat ≤ 8 := decide_eq_true_iff

/-- Settles O23: a checked modify of CHOPCONF, followed to its end. -/
theorem setMicrostepsOutcomes : Obligations.SetMicrostepsOutcomes := by
  refine ⟨encodedAs_assemble .setMicrosteps, fun s code ha hv => ?_⟩
  obtain ⟨hlegal, hillegal⟩ := (Reaches.start (i := .setMicrosteps code) (body := setMicrostepsBody code) ha rfl).guard
  refine ⟨fun hbad => hillegal (mt (microstepsLegal_iff code).1 (by omega)), fun hcode => ?_⟩
  obtain ⟨hstop, hread⟩ := (hlegal ((microstepsLegal_iff code).2 hcode)).modifyChopconf Config.mresField
  refine ⟨hstop, fun rx => ?_⟩
  obtain ⟨hstop', hwrite⟩ := hread rx
  exact ⟨_, fieldInserted_setField (rxValue rx) code (Config.legalDesc_mresField hv), hwrite.setResult0, hstop'⟩

/-- The constants of INIT and RESET_CFG, packed (R111, R112). -/
theorem initCurrent_eq : initCurrent = 0x00041008#32 := by decide

/-- Settles O24: INIT followed through its five transactions, the second read a fresh answer. -/
theorem initOutcomes : Obligations.InitOutcomes := by
  refine ⟨encodedAs_assemble .init, fun s rx1 rx2 ha hv => ?_⟩
  obtain ⟨stop1, h1⟩ := (Reaches.start (i := .init) (body := initBody) ha rfl).regWrite
  rw [initCurrent_eq] at stop1 h1
  obtain ⟨stop2, h2⟩ := h1.modifyChopconf Config.mresField
  obtain ⟨stop3, h3⟩ := h2 rx1
  obtain ⟨stop4, h4⟩ := h3.modifyChopconf Config.toffField
  obtain ⟨stop5, h5⟩ := h4 rx2
  exact ⟨_, _, fieldInserted_setField (rxValue rx1) _ (Config.legalDesc_mresField hv),
    fieldInserted_setField (rxValue rx2) _ (Config.legalDesc_toffField hv), h5.done, stop1, stop2, stop3, stop4, stop5⟩

/-- Settles O25: RESET_CFG followed through its three transactions. -/
theorem resetCfgOutcomes : Obligations.ResetCfgOutcomes := by
  refine ⟨encodedAs_assemble .resetCfg, fun s rx ha hv => ?_⟩
  obtain ⟨stop1, h1⟩ := (Reaches.start (i := .resetCfg) (body := resetCfgBody) ha rfl).regWrite
  rw [initCurrent_eq] at stop1 h1
  obtain ⟨stop2, h2⟩ := h1.modifyChopconf Config.toffField
  obtain ⟨stop3, h3⟩ := h2 rx
  exact ⟨_, fieldInserted_setField (rxValue rx) _ (Config.legalDesc_toffField hv), h3.done, stop1, stop2, stop3⟩

/-! ### GET_DRIVER_STATUS (R113 to R115) -/

/-- The flags of the decoded word (R114, R115). -/
theorem driverStatus_bits (g d : Word) :
    let r := driverStatus g d
    r.getLsbD 0 = g.getLsbD 0 ∧ r.getLsbD 1 = g.getLsbD 1 ∧ r.getLsbD 2 = g.getLsbD 2 ∧ r.getLsbD 3 = d.getLsbD 14 ∧
      r.getLsbD 4 = d.getLsbD 15 ∧ r.getLsbD 5 = false ∧ r.getLsbD 6 = false ∧ r.getLsbD 7 = false := by
  simp only [driverStatus, BitVec.getLsbD_append]
  simp

/-- The fields of the decoded word above its flags (R114). -/
theorem driverStatus_bytes (g d : Word) :
    (driverStatus g d).extractLsb' 8 8 = d.extractLsb' 16 8 ∧ (driverStatus g d).extractLsb' 16 16 = 0#16 := by
  unfold driverStatus
  constructor
  · iterate 8 rw [BitVec.extractLsb'_append_eq_of_le (by decide)]
    exact BitVec.extractLsb'_append_eq_right
  · iterate 8 rw [BitVec.extractLsb'_append_eq_of_le (by decide)]
    exact BitVec.extractLsb'_append_eq_left

/-- Settles O26: two reads followed to their end, whose events hold no write. -/
theorem getDriverStatusOutcomes : Obligations.GetDriverStatusOutcomes := by
  refine ⟨encodedAs_assemble .getDriverStatus, fun s rx1 rx2 ha => ?_⟩
  obtain ⟨stop1, h1⟩ := (Reaches.start (i := .getDriverStatus) (body := getDriverStatusBody) ha rfl).regRead
  obtain ⟨stop2, h2⟩ := (h1 rx1).regRead
  obtain ⟨b0, b1, b2, b3, b4, b5, b6, b7⟩ := driverStatus_bits (rxValue rx1) (rxValue rx2)
  exact ⟨_, ⟨b0, b1, b2, b3, b4, b5, b6, b7, driverStatus_bytes _ _⟩, (h2 rx2).setResult0, stop1, stop2⟩

/-! ### The line commands (R116 to R119) -/

/-- A primitive that is no bus write does nothing to the shadow. -/
theorem State.issue_singleton {e : Event} (he : e.kind ≠ .write) (t : State) : t.issue [e] = t.afterEvents [e] :=
  State.issue_eq_afterEvents (congrArg Prod.snd (foldl_shadowStep_of_no_write t.cfg (by simpa using he) t.shadow))

theorem noneWaiting_singleton {e : Event} (he : e.kind ≠ .write) (c : Config) : NoneWaiting c [e] :=
  fun cells => congrArg Prod.fst (foldl_shadowStep_of_no_write c (by simpa using he) cells)

theorem linePin_ok {t : State} {l : Line} {lvl : Bool} (h : t.gives [.pinSet l lvl .ok] = true) :
    linePin l lvl t = .done () (t.afterEvents [.pinSet l lvl .ok]) := by
  rw [State.gives_one, Event.answeredBy, beq_iff_eq] at h
  rw [linePin_eq, h]
  exact congrArg _ (State.issue_singleton (by simp [Event.kind]) t)

theorem linePin_fail {t : State} {l : Line} {lvl : Bool} (h : t.gives [.pinSet l lvl .fail] = true) :
    linePin l lvl t = .raised .pinError false (t.afterEvents [.pinSet l lvl .fail]) := by
  rw [State.gives_one, Event.answeredBy, beq_iff_eq] at h
  rw [linePin_eq, h]
  exact congrArg _ (State.issue_singleton (by simp [Event.kind]) t)

theorem lineDelay_ok {t : State} {n : Nat} (h : t.gives [.delay n .ok] = true) :
    lineDelay n t = .done () (t.afterEvents [.delay n .ok]) := by
  have hdone : lineDelay n t = .done () (t.issue [.delay n .ok]) := by
    rw [State.gives_one, Event.answeredBy, bne_iff_ne] at h
    rw [lineDelay_eq]
    cases ho : (t.upcoming 0).out with
    | ok => rfl
    | fail => rfl
    | noReturn => exact absurd ho h
  rw [hdone, State.issue_singleton (by simp [Event.kind])]

section

variable {i : Instr} {s : State} {evs : List Event} {l : Line} {lvl : Bool}

/-- A command whose last primitive is a `PinSet` completes with it, or ends with PIN_ERROR. -/
theorem Reaches.linePin (h : Reaches i s evs (linePin l lvl)) :
    (s.gives (evs ++ [.pinSet l lvl .ok]) = true →
      exec i s = .next { s.afterEvents (evs ++ [.pinSet l lvl .ok]) with status := 0#32 }) ∧
    (s.gives (evs ++ [.pinSet l lvl .fail]) = true →
      exec i s = .next { s.afterEvents (evs ++ [.pinSet l lvl .fail]) with status := 0x2#32 }) :=
  have hpin : ∀ o, NoneWaiting s.cfg [.pinSet l lvl o] := fun o => noneWaiting_singleton (by simp [Event.kind]) s.cfg
  ⟨(h.advance (hpin .ok) fun _ _ => linePin_ok).done, (h.advance (hpin .fail) fun _ _ => linePin_fail).raised⟩

end

theorem directionLevel_of_le {d : Word} (h : d.toNat ≤ 1) : directionLevel d = some (d.getLsbD 0) := by
  obtain rfl | rfl : d = 0#32 ∨ d = 1#32 := by bv_omega
  · decide
  · decide

theorem directionLevel_of_gt {d : Word} (h : d.toNat > 1) : directionLevel d = none := by
  rw [directionLevel, if_neg (by bv_omega), if_neg (by bv_omega)]

/-- Settles O27: the one `PinSet` of each command. -/
theorem enableDisableOutcomes : Obligations.EnableDisableOutcomes := by
  refine ⟨encodedAs_assemble .enableDriver, encodedAs_assemble .disableDriver, fun s ha => ?_⟩
  obtain ⟨low, lowFail⟩ := (Reaches.start (i := .enableDriver) ha rfl).linePin
  obtain ⟨high, highFail⟩ := (Reaches.start (i := .disableDriver) ha rfl).linePin
  exact ⟨low, lowFail, high, highFail⟩

/-- Settles O28: the direction operand is the level of the one `PinSet`, or is rejected. -/
theorem setDirectionOutcomes : Obligations.SetDirectionOutcomes := by
  refine ⟨encodedAs_assemble .setDirection, fun s d ha => ⟨fun hbad => ?_, fun hd => ?_⟩⟩
  · refine congrArg _ (command_raised_before_primitive (c := .invalidArgument) ha ?_)
    rw [setDirectionBody, directionLevel_of_gt hbad]
  · have hbody : setDirectionBody d = linePin .dir (d.getLsbD 0) := by
      funext t
      rw [setDirectionBody, directionLevel_of_le hd]
    have hexec : exec (.setDirection d) s = .next (command (setDirectionBody d) s) := rfl
    rw [hbody] at hexec
    exact (Reaches.start ha hexec).linePin

/-- Settles O29: the pulse followed through its rise, its delay and its fall. -/
theorem stepPulseOutcomes : Obligations.StepPulseOutcomes := by
  refine ⟨encodedAs_assemble .step, fun s ha => ?_⟩
  have start : Reaches .step s [] stepBody := .start ha rfl
  have hfail : Reaches .step s [.pinSet .step true .fail] (.raised .pinError false) :=
    start.advance (fun _ => rfl) fun t _ hg => by rw [stepBody, linePin_fail hg]; rfl
  have hrise : Reaches .step s [.pinSet .step true .ok] fun t =>
      (lineDelay Config.stepPulseNs t).andThen fun _ t => linePin .step false t :=
    start.advance (fun _ => rfl) fun t _ hg => by rw [stepBody, linePin_ok hg]; rfl
  have hdelay : Reaches .step s [.pinSet .step true .ok, .delay 1000 .ok] (linePin .step false) :=
    hrise.advance (fun _ => rfl) fun t _ hg => by rw [Config.stepPulseNs, lineDelay_ok hg]; rfl
  obtain ⟨fall, fallFail⟩ := hdelay.linePin
  exact ⟨fall, hfail.raised, fallFail⟩

end Sys2Proof.Machine

/-! PROOFS. Errors (60_exceptions.md): the codes a command ends with (R122, R138), what an error leaves (R124, R125), and that no error
is a stop (R127, R128). -/

namespace Sys2Proof.Machine

section

variable {i : Instr} {s t : State}

/-! ### The codes of a command's row (R122) -/

theorem ok_mem_mayEndWith (i : Instr) : 0#3 ∈ mayEndWith i := by
  cases i <;> simp [mayEndWith]

/-- PIN_ERROR stands in the row of every instruction that drives a line. -/
theorem pinError_mem_mayEndWith {l : Line} (h : l ∈ mayDrive i) : 2#3 ∈ mayEndWith i := by
  cases i <;> simp_all [mayDrive, mayEndWith]

/-- BUS_ERROR stands in the row of every instruction that drives chip-select, which is what a transaction takes (R89). -/
theorem busError_mem_mayEndWith (h : Line.csN ∈ mayDrive i) : 1#3 ∈ mayEndWith i := by
  cases i <;> simp_all [mayDrive, mayEndWith]

/-- An instruction fails only as its primitives may: the failing event is one it may issue, and gives the code. -/
theorem FailsAs.code_mem_mayEndWith {st : Word} {c : ErrCode} {csf : Bool} {tail : List Event} (h : FailsAs st c csf tail)
    (ha : ∀ e ∈ tail, Allowed i e) : c.code ∈ mayEndWith i := by
  have hfirst : ∀ e after, tail = e :: after → Allowed i e := fun e _ heq => ha e (heq ▸ List.mem_cons_self)
  cases h with
  | pin l lvl => exact pinError_mem_mayEndWith (hfirst _ _ rfl)
  | release => exact pinError_mem_mayEndWith (hfirst _ _ rfl)
  | xfer f => exact busError_mem_mayEndWith (hfirst _ _ rfl)
  | xferRelease f => exact busError_mem_mayEndWith (hfirst _ _ rfl)
  | write f => exact busError_mem_mayEndWith (hfirst _ _ rfl).1
  | writeRelease f => exact busError_mem_mayEndWith (hfirst _ _ rfl).1

/-- `STATUS.CODE` of a state whose `STATUS` is the failing event's. -/
theorem Stops.statusCode {Q : Event → Prop} {st : Word} {c : ErrCode} {csf : Bool} {before tail : List Event}
    (h : Stops Q s st c csf before tail) (ht : t.status = st) : t.statusCode = c.code :=
  t.statusCode_of_statusWord (ht.trans h.fails.statusWord_eq.symm)

/-- An accepted command that leaves `BUSY = 0` ends with a code of its row. -/
theorem Ending.code_mem_mayEndWith (hi : isCommand i = true) (h : Ending i s t) (hidle : t.busyBit = false) :
    t.statusCode ∈ mayEndWith i := by
  cases h with
  | completed evs x y h counts keep0 keep1 bit1 eq =>
    have hcode : t.statusCode = 0#3 := by simp [eq, State.statusCode, hi]
    rw [hcode]
    exact ok_mem_mayEndWith i
  | rejected c code which eq =>
    rwa [t.statusCode_of_statusWord (congrArg State.status eq)]
  | stopped st c csf before tail h eq =>
    rw [h.statusCode (congrArg State.status eq)]
    exact h.fails.code_mem_mayEndWith fun e he => h.allowed e (List.mem_append_right _ he)
  | held before e h eq => simp [eq, State.busyBit] at hidle

/-! ### What an error leaves (R124, R125) -/

/-- Of the four endings only a rejection gives INVALID_ARGUMENT or NOT_INITIALIZED, and it writes `STATUS` alone. -/
theorem Ending.eq_withStatus_of_rejection (hi : isCommand i = true) (h : Ending i s t) (hidle : t.busyBit = false)
    (hcode : t.statusCode = 3#3 ∨ t.statusCode = 4#3) : t = { s with status := t.status } := by
  cases h with
  | completed evs x y h counts keep0 keep1 bit1 eq => simp [eq, State.statusCode, hi] at hcode
  | rejected c code which eq => rw [eq]
  | stopped st c csf before tail h eq =>
    have hfail := h.fails.code_bus_or_pin
    rw [← h.statusCode (congrArg State.status eq)] at hfail
    rcases hcode with h3 | h4
    · simp [h3] at hfail
    · simp [h4] at hfail
  | held before e h eq => simp [eq, State.busyBit] at hidle

/-- A wire row writes no result (log 8). -/
theorem writesNoResult_of_wireRow (hi : isCommand i = false) : writesResult0 i = false ∧ writesResult1 i = false := by
  cases i <;> simp_all [isCommand, writesResult0, writesResult1]

/-- An accepted instruction writes a result only when it completes, and a command that completes leaves OK and `BUSY = 0`. -/
theorem Ending.keeps_results_of_error (hidle : s.busy = .idle) (h : Ending i s t)
    (herr : t.statusCode ≠ 0#3 ∨ t.busyBit = true) : t.result0 = s.result0 ∧ t.result1 = s.result1 := by
  cases h with
  | completed evs x y h counts keep0 keep1 bit1 eq =>
    subst eq
    cases hi : isCommand i with
    | true => simp [State.statusCode, State.busyBit, hidle, hi] at herr
    | false =>
      obtain ⟨hw0, hw1⟩ := writesNoResult_of_wireRow hi
      exact ⟨keep0 hw0, keep1 hw1⟩
  | rejected c code which eq => simp [eq]
  | stopped st c csf before tail h eq => simp [eq]
  | held before e h eq => simp [eq]

theorem exec_keeps_results_of_error (h : exec i s = .next t) (herr : t.statusCode ≠ 0#3 ∨ t.busyBit = true) :
    t.result0 = s.result0 ∧ t.result1 = s.result1 := by
  rcases exec_cases h with ⟨-, rfl⟩ | ⟨-, -, rfl⟩ | ⟨ha, hend⟩
  · exact ⟨rfl, rfl⟩
  · exact ⟨rfl, rfl⟩
  · exact hend.keeps_results_of_error ha.1 herr

theorem illegalCommand_keeps_results (s : State) :
    (illegalCommand s).result0 = s.result0 ∧ (illegalCommand s).result1 = s.result1 := by
  rcases illegalCommand_cases s with ⟨-, h⟩ | ⟨-, -, h⟩ | ⟨-, h⟩ <;> rw [h] <;> exact ⟨rfl, rfl⟩

/-! ### No error is a stop (R127, R128) -/

/-- Every instruction has a next state in every state: not accepted, answered with NOT_INITIALIZED, or an ending. -/
theorem exec_total (i : Instr) (s : State) : ∃ t, exec i s = .next t := by
  by_cases hb : s.busy = .idle
  · cases hr : s.ready with
    | false => exact ⟨_, exec_notReady i hb hr⟩
    | true =>
      obtain ⟨t, ht, -⟩ := exec_ending i ⟨hb, hr⟩
      exact ⟨t, ht⟩
  · exact ⟨s, exec_busy i hb⟩

end

/-- Settles O32: power-on, a rejected header and an instruction that errs or hangs all leave the results. -/
theorem resultsKeptOnError : Obligations.ResultsKeptOnError := by
  intro s t c rest hin h herr
  rcases step_cases h with ⟨-, rfl⟩ | ⟨-, hnil, -⟩ | ⟨-, rest', hreset, -⟩ | ⟨-, p, rest', i, -, -, he⟩ |
    ⟨-, p, rest', e, -, -, rfl⟩
  · obtain ⟨h0, h1, -⟩ := powerOn_keeps s
    exact ⟨h0, h1⟩
  · simp [hin] at hnil
  · simp [hin] at hreset
  · exact exec_keeps_results_of_error (s := { s with inputs := rest' }) he herr
  · exact illegalCommand_keeps_results { s with inputs := rest' }

/-- Settles O33: each way an accepted command can end gives a code of its row. -/
theorem commandsEndWithTheirCodes : Obligations.CommandsEndWithTheirCodes := by
  intro i s t hi ha h hidle
  obtain ⟨u, hu, hend⟩ := exec_ending i ha
  obtain rfl : u = t := by simpa [hu] using h
  exact hend.code_mem_mayEndWith hi hidle

/-- Settles O34: the check of `READY` and the command's own checks write `STATUS` alone, and no other ending has their codes. -/
theorem rejectionIssuesNothing : Obligations.RejectionIssuesNothing := by
  intro i s t hi hb h hidle hcode
  rcases exec_cases h with ⟨hbusy, -⟩ | ⟨-, -, rfl⟩ | ⟨-, hend⟩
  · simp [s.busyBit_iff.2 hbusy] at hb
  · rfl
  · exact hend.eq_withStatus_of_rejection hi hidle hcode

/-- Settles O40: a next state always exists, and only an RBIC that was starting is left starting. -/
theorem noInstructionStops : Obligations.NoInstructionStops := by
  intro i s
  obtain ⟨t, h⟩ := exec_total i s
  refine ⟨t, h, fun hstart => ?_⟩
  rcases exec_cases h with ⟨-, rfl⟩ | ⟨hb, -, rfl⟩ | ⟨ha, hend⟩
  · rfl
  · simp [hb] at hstart
  · rcases hend.idle_or_held ha.1 with hidle | ⟨before, e, -, rfl⟩
    · simp [hidle] at hstart
    · simp at hstart

end Sys2Proof.Machine

/-! PROOFS. Reset (70_reset_and_hazards.md): the power-on sequence in any order of the lines (R140, R141). -/

namespace Sys2Proof.Machine

/-- With the shadow as it was, the state after events is the one that issuing them leaves. -/
theorem State.afterEvents_withShadow (s : State) (evs : List Event) :
    { s.afterEvents evs with shadow := s.shadow } = s.issue evs := by
  rw [State.afterEvents_eq, State.issue_eq]

theorem powerOn_ok {s : State} (h : s.gives (s.cfg.resetPinOrder.map powerOnEvent) = true) :
    powerOn s = { s.issue (s.cfg.resetPinOrder.map powerOnEvent) with status := 0#32, ready := true, busy := .idle } := by
  rw [powerOn, powerOnLines_ok _ ((State.gives_running s _).trans h), State.issue_running]

theorem powerOn_fail {s : State} {before after : List Line} {l : Line} (ho : s.cfg.resetPinOrder = before ++ l :: after)
    (h : s.gives (before.map powerOnEvent ++ [powerOnStop l .fail]) = true) :
    powerOn s = { s.issue (before.map powerOnEvent ++ [powerOnStop l .fail]) with
      status := 0x2#32, ready := false, busy := .idle } := by
  rw [powerOn, ho, powerOnLines_fail before after l ((State.gives_running s _).trans h), State.issue_running]
  rfl

/-- An order that names every line sets each to its own level (R140, R141). -/
theorem linesAfter_powerOnEvents_of_all {ks : List Line} (hall : ∀ l, l ∈ ks) (ls : Lines) :
    linesAfter (ks.map powerOnEvent) ls = ⟨.high, .high, .low, .low⟩ := by
  refine Lines.ext_get _ _ fun k => ?_
  rw [linesAfter_powerOnEvents_get, if_pos (hall k)]
  cases k <;> rfl

/-- The lines when the sequence fails in `l`, no line being named twice: those before it set, `l` itself U, the later ones as they
were (R34, R141). -/
theorem linesAfter_powerOnFail_of_nodup {before after : List Line} {l : Line} (h : (before ++ l :: after).Nodup) (ls : Lines) :
    let ls' := linesAfter (before.map powerOnEvent ++ [powerOnStop l .fail]) ls
    (∀ k ∈ before, ls'.get k = if k = .csN ∨ k = .enN then .high else .low) ∧ ls'.get l = .unknown ∧
      ∀ k ∈ after, ls'.get k = ls.get k := by
  obtain ⟨hl, hdis⟩ := List.nodup_cons.1 (List.nodup_middle.1 h)
  have hget := linesAfter_powerOnFail_get before l ls
  refine ⟨fun k hk => ?_, (hget l).trans (if_pos rfl), fun k hk => ?_⟩
  · have hne : k ≠ l := ne_of_mem_of_not_mem (List.mem_append_left _ hk) hl
    rw [hget, if_neg hne, if_pos hk, ofBit_powerOnLevel]
  · have hne : k ≠ l := ne_of_mem_of_not_mem (List.mem_append_right _ hk) hl
    have hnb : k ∉ before := fun hb => List.disjoint_of_nodup_append hdis hb hk
    rw [hget, if_neg hne, if_neg hnb]

/-- Settles O47: the answers decide how the sequence ends, and a valid order names every line once. -/
theorem powerOnSequence : Obligations.PowerOnSequence := by
  intro s hb hv
  obtain ⟨hall, hnodup⟩ := Config.resetPinOrder_of_valid hv
  constructor
  · intro h
    rw [step_starting hb, powerOn_ok h, ← State.afterEvents_withShadow, ← linesAfter_powerOnEvents_of_all hall s.lines]
    rfl
  · intro before after l ho evs h
    refine ⟨?_, linesAfter_powerOnFail_of_nodup (ho ▸ hnodup) s.lines⟩
    rw [step_starting hb, powerOn_fail ho h, ← State.afterEvents_withShadow]
    rfl

end Sys2Proof.Machine
